-- ==== Sys2Proof/Word.lean ====
section
/-! DEFINITION. The word types of the kernel VM core and the four access widths
(00_scope.md R4 to R6, 20_memory.md R51). -/

namespace Sys2Proof

/-- A register value, the program counter, an address as software holds it: 64 bits (R4, R21, R25). -/
abbrev Word := BitVec 64

/-- One byte of memory, the addressable unit (R38). -/
abbrev Byte := BitVec 8

/-- An instruction word (R80). -/
abbrev InstrWord := BitVec 32

/-- A register field: 5 bits that index `x[0..31]` directly (R81). -/
abbrev RegIdx := BitVec 5

/-- The widths of the typed accessors, `n` = 1, 2, 4 and 8 bytes (R51). -/
inductive Width where
  | byte
  | half
  | word
  | dword
  deriving DecidableEq, Repr

/-- The number of bytes `n` an access of this width moves (R51, R58). -/
def Width.bytes : Width → Nat
  | .byte => 1
  | .half => 2
  | .word => 4
  | .dword => 8

/-- The number of bits `8n` of the value an access of this width moves (R53). -/
abbrev Width.bits (w : Width) : Nat := 8 * w.bytes

/-- The greatest value of a 64-bit counter, where it saturates (R33). -/
abbrev counterMax : Word := 0xffffffffffffffff

end Sys2Proof
end

