-- ==== Sys2Proof/Config.lean ====
section
/-! DEFINITION. What the spec leaves to the implementation: the collaborator's verdict `ENV_TERMINATES`
(00_scope.md R4), and the two configuration values `Sys2Proof.Machine.State.reset` is built with. -/

namespace Sys2Proof

/-- `ENV_TERMINATES` (00_scope.md R4, 45_system_fence.md R221): the verdict "the guest explicitly signals
completion", a total and deterministic function of the architectural state at the `ECALL`: the registers
`x[1..31]` (`x[0]` is the constant zero), `pc`, and the memory, which is the region (its base and its size) and the
bytes in it. The collaborator fixes it, so it has no body here: a claim holds whatever it is.
DESIGN CHOICE (log 7), safe. -/
opaque Config.envTerminates (x : Vector Word 31) (pc loadAddr : Word) (memSize : Nat) (mem : List Host.Cell) : Bool

/-- `LOAD_ADDR` of the `INIT` that `State.reset` stands for: the source's example value (20_memory.md R62).
DESIGN CHOICE (log 1), unsafe. -/
def Config.resetLoadAddr : Word := 0x80000000

/-- `MEM_SIZE` of the `INIT` that `State.reset` stands for: the size of the spec's own examples
(95_test_vectors.md, conventions). DESIGN CHOICE (log 1), unsafe. -/
def Config.resetMemSize : Nat := 0x1000

end Sys2Proof
end

