-- ==== Sys2Proof/Syntax.lean ====
section
/-! DEFINITION. The instructions: one constructor per row of spec/opcode_table.json (30_encoding.md R94, R103), carrying
the fields its format has: register indices, the ASSEMBLED 64-bit immediate (R88 to R92) or the shift amount (R93). -/

namespace Sys2Proof

/-- The closed set of 52 instructions (30_encoding.md R94). The mnemonic of each constructor is the constructor's name in
capitals. Each constructor's comment names the rule that gives its meaning. -/
inductive Instr where
  -- upper-immediate (R133, R134)
  | lui (rd : RegIdx) (imm : Word)
  | auipc (rd : RegIdx) (imm : Word)
  -- jumps (R181, R182)
  | jal (rd : RegIdx) (imm : Word)
  | jalr (rd rs1 : RegIdx) (imm : Word)
  -- conditional branches (R184 to R189)
  | beq (rs1 rs2 : RegIdx) (imm : Word)
  | bne (rs1 rs2 : RegIdx) (imm : Word)
  | blt (rs1 rs2 : RegIdx) (imm : Word)
  | bge (rs1 rs2 : RegIdx) (imm : Word)
  | bltu (rs1 rs2 : RegIdx) (imm : Word)
  | bgeu (rs1 rs2 : RegIdx) (imm : Word)
  -- loads (R201 to R207)
  | lb (rd rs1 : RegIdx) (imm : Word)
  | lh (rd rs1 : RegIdx) (imm : Word)
  | lw (rd rs1 : RegIdx) (imm : Word)
  | ld (rd rs1 : RegIdx) (imm : Word)
  | lbu (rd rs1 : RegIdx) (imm : Word)
  | lhu (rd rs1 : RegIdx) (imm : Word)
  | lwu (rd rs1 : RegIdx) (imm : Word)
  -- stores (R209 to R212)
  | sb (rs2 rs1 : RegIdx) (imm : Word)
  | sh (rs2 rs1 : RegIdx) (imm : Word)
  | sw (rs2 rs1 : RegIdx) (imm : Word)
  | sd (rs2 rs1 : RegIdx) (imm : Word)
  -- register-immediate (R135 to R143)
  | addi (rd rs1 : RegIdx) (imm : Word)
  | slti (rd rs1 : RegIdx) (imm : Word)
  | sltiu (rd rs1 : RegIdx) (imm : Word)
  | xori (rd rs1 : RegIdx) (imm : Word)
  | ori (rd rs1 : RegIdx) (imm : Word)
  | andi (rd rs1 : RegIdx) (imm : Word)
  | slli (rd rs1 : RegIdx) (shamt : BitVec 6)
  | srli (rd rs1 : RegIdx) (shamt : BitVec 6)
  | srai (rd rs1 : RegIdx) (shamt : BitVec 6)
  -- register-register (R144 to R153)
  | add (rd rs1 rs2 : RegIdx)
  | sub (rd rs1 rs2 : RegIdx)
  | sll (rd rs1 rs2 : RegIdx)
  | slt (rd rs1 rs2 : RegIdx)
  | sltu (rd rs1 rs2 : RegIdx)
  | xor (rd rs1 rs2 : RegIdx)
  | srl (rd rs1 rs2 : RegIdx)
  | sra (rd rs1 rs2 : RegIdx)
  | or (rd rs1 rs2 : RegIdx)
  | and (rd rs1 rs2 : RegIdx)
  -- 32-bit words, register-immediate (R161 to R164)
  | addiw (rd rs1 : RegIdx) (imm : Word)
  | slliw (rd rs1 : RegIdx) (shamt : BitVec 5)
  | srliw (rd rs1 : RegIdx) (shamt : BitVec 5)
  | sraiw (rd rs1 : RegIdx) (shamt : BitVec 5)
  -- 32-bit words, register-register (R165 to R169)
  | addw (rd rs1 rs2 : RegIdx)
  | subw (rd rs1 rs2 : RegIdx)
  | sllw (rd rs1 rs2 : RegIdx)
  | srlw (rd rs1 rs2 : RegIdx)
  | sraw (rd rs1 rs2 : RegIdx)
  -- fence and environment (R220 to R222); FENCE carries the fields it ignores (R98; DESIGN CHOICE, log 8, safe)
  | fence (ignored : BitVec 12) (rs1 rd : RegIdx)
  | ecall
  | ebreak
  deriving DecidableEq, Repr

end Sys2Proof
end

