-- ==== Sys2Proof/Machine/State.lean ====
section
/-! DEFINITION. The state of the kernel VM core as plain data (10_state.md R41 under the configuration R35), the enumerations
of the spec (state tag, fault kinds, events), the snapshot record, and the machine right after reset. -/

namespace Sys2Proof.Machine

/-- The state tag (10_state.md R30); its transitions are 60_exceptions.md R293. -/
inductive Tag where
  | halted
  | running
  | faulted
  | completed
  deriving DecidableEq, Repr

/-- The four fault kinds, a closed taxonomy (60_exceptions.md R280). They are the error values a command returns to the host
(R285). No meaning and no step of this model STOPS with one (`Host.Outcome.fault`): the spec gives every fault its effect, which
is a next state (R286, R289). -/
inductive Fault where
  /-- An address or a range outside the configured memory bounds. Raised by a step (fetch, load, store, next-PC check: R281),
  where it is fault entry, and by the host's READn and WRITEn, where nothing changes. Safe: it is the spec's. -/
  | memoryFault
  /-- The instruction word decodes to no operation. Raised by a step at decode (R282). Safe: it is the spec's. -/
  | illegalInstruction
  /-- START or STEP in a tag it does not accept (R283); nothing changes. Safe: it is the spec's. -/
  | invalidState
  /-- SAVE_STATE with too small a buffer, RESTORE_STATE of an invalid or mis-sized snapshot (R284); nothing changes. Safe: it is
  the spec's. -/
  | snapshotMismatch
  deriving DecidableEq, Repr

/-- Why the model gives no outcome. Every constructor is safe: nothing is claimed of a run that ends so. -/
inductive Refusal where
  /-- An instruction without a meaning; no arm of `exec` answers it in this model. Safe. -/
  | notModelled (mnemonic : String)
  /-- INIT with arguments that break its contract (46_host_commands.md R230, 93_implementation_defined.md U3). Raised by the
  host command INIT only. Safe: the spec gives such a call no meaning (00_scope.md R11). -/
  | initContract
  /-- SET_PC with a value outside the region (46_host_commands.md R236, 93_implementation_defined.md U2). Raised by the host
  command SET_PC only. Safe: the spec gives such a call no meaning (00_scope.md R11). -/
  | setPcContract
  deriving DecidableEq, Repr

/-- What a retiring STEP reports (40_step_engine.md R110, 00_scope.md R12). -/
inductive Event where
  | retired
  | envCall
  | breakpoint
  deriving DecidableEq, Repr

/-- The result of a STEP (40_step_engine.md R110): `Ok(event)` or `Err(kind)`. -/
inductive StepResult where
  | ok (event : Event)
  | err (kind : Fault)
  deriving DecidableEq, Repr

/-- The bytes of the region as cells (address, byte), in one canonical form: addresses strictly rising, no cell equal to what an
unlisted address reads as (`Memory.wf` in Machine/Ops.lean). -/
abbrev Memory := List Host.Cell

/-- The state of the core (10_state.md R41) and its configuration (R35). -/
structure State where
  /-- `x[1]` to `x[31]`, slot `i - 1` for `x[i]`; `x[0]` has no storage (R20 to R23). -/
  x : Vector Word 31
  /-- The program counter (R25). -/
  pc : Word
  /-- The bytes of the memory region (R38). -/
  mem : Memory
  /-- The state tag (R30). -/
  tag : Tag
  /-- "instructions executed" (R31). -/
  instret : Word
  /-- "fault count" (R32). -/
  faultCount : Word
  /-- `LOAD_ADDR`, the base of the region (R35). -/
  loadAddr : Word
  /-- `MEM_SIZE`, the number of bytes of the region (R35). -/
  memSize : Nat
  /-- The MODEL's own field, no state of the spec's core: the result the last STEP since INIT returned to the host
  (40_step_engine.md R110), which `Host.Outcome` has no other place for. Nothing reads it (45_system_fence.md R224).
  DESIGN CHOICE (log 6), safe. -/
  lastStep : Option StepResult
  deriving DecidableEq, Repr

/-- A snapshot (47_snapshot.md R260): a value the caller owns, no part of the core's state (R261). -/
structure Snapshot where
  /-- True in every snapshot SAVE_STATE returns. -/
  valid : Bool
  /-- `x[0..31]` at capture; `x[0]` is saved as 0 and ignored on restore (R266). -/
  x : Vector Word 32
  /-- The PC at capture. -/
  pc : Word
  /-- The state tag at capture. -/
  tag : Tag
  /-- `mem[i] = Mem[LOAD_ADDR + i]` at capture, held in the caller's buffer. -/
  mem : List Byte
  deriving DecidableEq, Repr

/-- The field `mem_size` of a snapshot: "the number of bytes in `mem`" (47_snapshot.md R260; log 10). -/
def Snapshot.memSize (S : Snapshot) : Nat := S.mem.length

/-- The machine right after reset, which is INIT (10_state.md R43) with an empty image and the configuration of Config.lean
(log 1): halted at LOAD_ADDR, registers, memory and counters zero. -/
def State.reset : State where
  x := Vector.replicate 31 0
  pc := Config.resetLoadAddr
  mem := []
  tag := .halted
  instret := 0
  faultCount := 0
  loadAddr := Config.resetLoadAddr
  memSize := Config.resetMemSize
  lastStep := none

end Sys2Proof.Machine
end

