-- ==== Sys2Proof/Machine/Flags.lean ====
section
/-! DEFINITION. The core has no status flags and no condition codes (10_state.md R29): a comparison writes 0 or 1 to a general
register or decides a branch. These are the conditions (41_integer_computational.md R130, 43_control_transfer.md R184 to R189). -/

namespace Sys2Proof.Machine

/-- `s(a) < s(b)`. -/
def ltSigned (a b : Word) : Bool := decide (a.toInt < b.toInt)

/-- `u(a) < u(b)`. -/
def ltUnsigned (a b : Word) : Bool := decide (a.toNat < b.toNat)

/-- All 64 bits equal. -/
def eqWord (a b : Word) : Bool := decide (a = b)

/-- The 64-bit value 1 or 0 a comparison writes. -/
def boolWord (c : Bool) : Word := if c = true then 1 else 0

end Sys2Proof.Machine
end

