-- ==== Sys2Proof/WellFormed.lean ====
section
/-! DEFINITION. Which instructions have an encoding: the ranges that 30_encoding.md R88 to R92 give the assembled
immediates. Register fields (R81) and shift amounts (R93) are exact by their types. -/

namespace Sys2Proof

/-- The values `immI` takes (R88). -/
def fitsI (imm : Word) : Bool := decide (-2048 ≤ imm.toInt ∧ imm.toInt ≤ 2047)

/-- The values `immS` takes (R89). -/
def fitsS (imm : Word) : Bool := decide (-2048 ≤ imm.toInt ∧ imm.toInt ≤ 2047)

/-- The values `immB` takes: always even (R90). -/
def fitsB (imm : Word) : Bool := decide (-4096 ≤ imm.toInt ∧ imm.toInt ≤ 4094 ∧ imm.toInt % 2 = 0)

/-- The values `immU` takes: always a multiple of 4096 (R91). -/
def fitsU (imm : Word) : Bool :=
  decide (-(2 ^ 31) ≤ imm.toInt ∧ imm.toInt ≤ 2 ^ 31 - 4096 ∧ imm.toInt % 4096 = 0)

/-- The values `immJ` takes: always even (R92). -/
def fitsJ (imm : Word) : Bool := decide (-1048576 ≤ imm.toInt ∧ imm.toInt ≤ 1048574 ∧ imm.toInt % 2 = 0)

/-- The instruction is one that a word of its format can hold (R82 to R93). -/
def Instr.wellFormed : Instr → Bool
  | .lui _ imm | .auipc _ imm => fitsU imm
  | .jal _ imm => fitsJ imm
  | .jalr _ _ imm => fitsI imm
  | .beq _ _ imm | .bne _ _ imm | .blt _ _ imm | .bge _ _ imm | .bltu _ _ imm | .bgeu _ _ imm => fitsB imm
  | .lb _ _ imm | .lh _ _ imm | .lw _ _ imm | .ld _ _ imm | .lbu _ _ imm | .lhu _ _ imm | .lwu _ _ imm => fitsI imm
  | .sb _ _ imm | .sh _ _ imm | .sw _ _ imm | .sd _ _ imm => fitsS imm
  | .addi _ _ imm | .slti _ _ imm | .sltiu _ _ imm | .xori _ _ imm | .ori _ _ imm | .andi _ _ imm => fitsI imm
  | .slli _ _ _ | .srli _ _ _ | .srai _ _ _ => true
  | .add _ _ _ | .sub _ _ _ | .sll _ _ _ | .slt _ _ _ | .sltu _ _ _ | .xor _ _ _ | .srl _ _ _ | .sra _ _ _ => true
  | .or _ _ _ | .and _ _ _ => true
  | .addiw _ _ imm => fitsI imm
  | .slliw _ _ _ | .srliw _ _ _ | .sraiw _ _ _ => true
  | .addw _ _ _ | .subw _ _ _ | .sllw _ _ _ | .srlw _ _ _ | .sraw _ _ _ => true
  | .fence _ _ _ | .ecall | .ebreak => true

end Sys2Proof
end

