-- ==== Sys2Proof/Decode.lean ====
section
/-! DEFINITION. Decoding (30_encoding.md): the fields and immediates of a word, the opcode table R94 as a list of rows, the
total function from words and bytes to instructions, and after it the encoder, written from the format tables R82 to R87.
The encodings are those of RV64I: 92_eei_decisions.md D3, which the spec marks as its own decision (log 13). -/

namespace Sys2Proof

/-- The value of bytes that stand lowest address first: little-endian (20_memory.md R53, R54). -/
def leValue : List Byte → Nat
  | [] => 0
  | b :: bs => b.toNat + 256 * leValue bs

/-- The `n` low bytes of `v`, lowest address first: bits above `8n-1` are dropped (20_memory.md R55). -/
def leBytes : Nat → Nat → List Byte
  | 0, _ => []
  | n + 1, v => BitVec.ofNat 8 v :: leBytes n (v / 256)

/-! ## Fields (R81, R93) and immediates (R88 to R92) -/

def rdOf (w : InstrWord) : RegIdx := w.extractLsb' 7 5
def rs1Of (w : InstrWord) : RegIdx := w.extractLsb' 15 5
def rs2Of (w : InstrWord) : RegIdx := w.extractLsb' 20 5
def shamt6Of (w : InstrWord) : BitVec 6 := w.extractLsb' 20 6
def shamt5Of (w : InstrWord) : BitVec 5 := w.extractLsb' 20 5

/-- R88: `sext_64(w[31:20])`. -/
def immI (w : InstrWord) : Word := (w.extractLsb' 20 12).signExtend 64

/-- R89: `sext_64(w[31:25] ++ w[11:7])`. -/
def immS (w : InstrWord) : Word := (w.extractLsb' 25 7 ++ w.extractLsb' 7 5).signExtend 64

/-- R90: `sext_64(w[31] ++ w[7] ++ w[30:25] ++ w[11:8] ++ 0)`. -/
def immB (w : InstrWord) : Word :=
  (w.extractLsb' 31 1 ++ w.extractLsb' 7 1 ++ w.extractLsb' 25 6 ++ w.extractLsb' 8 4 ++ 0#1).signExtend 64

/-- R91: `sext_64(w[31:12] ++ 0^12)`. -/
def immU (w : InstrWord) : Word := (w.extractLsb' 12 20 ++ 0#12).signExtend 64

/-- R92: `sext_64(w[31] ++ w[19:12] ++ w[20] ++ w[30:21] ++ 0)`. -/
def immJ (w : InstrWord) : Word :=
  (w.extractLsb' 31 1 ++ w.extractLsb' 12 8 ++ w.extractLsb' 20 1 ++ w.extractLsb' 21 10 ++ 0#1).signExtend 64

/-! ## The opcode table (R94) -/

/-- One row of the opcode table: a word belongs to it when `w & mask = pat` (the table's column "match"), and `build` reads
the operands of the row's format. -/
structure Row where
  mnemonic : String
  mask : InstrWord
  pat : InstrWord
  build : InstrWord → Instr

/-- The row's condition, `w & mask == match` (R94). -/
def Row.accepts (r : Row) (w : InstrWord) : Bool := w &&& r.mask == r.pat

/-- Upper-immediate rows 1 and 2 of 30_encoding.md R94. -/
def upperRows : List Row := [
  ⟨"LUI", 0x0000007f, 0x00000037, fun w => .lui (rdOf w) (immU w)⟩,
  ⟨"AUIPC", 0x0000007f, 0x00000017, fun w => .auipc (rdOf w) (immU w)⟩ ]

/-- Control-transfer rows 3 to 10 of 30_encoding.md R94. -/
def controlRows : List Row := [
  ⟨"JAL", 0x0000007f, 0x0000006f, fun w => .jal (rdOf w) (immJ w)⟩,
  ⟨"JALR", 0x0000707f, 0x00000067, fun w => .jalr (rdOf w) (rs1Of w) (immI w)⟩,
  ⟨"BEQ", 0x0000707f, 0x00000063, fun w => .beq (rs1Of w) (rs2Of w) (immB w)⟩,
  ⟨"BNE", 0x0000707f, 0x00001063, fun w => .bne (rs1Of w) (rs2Of w) (immB w)⟩,
  ⟨"BLT", 0x0000707f, 0x00004063, fun w => .blt (rs1Of w) (rs2Of w) (immB w)⟩,
  ⟨"BGE", 0x0000707f, 0x00005063, fun w => .bge (rs1Of w) (rs2Of w) (immB w)⟩,
  ⟨"BLTU", 0x0000707f, 0x00006063, fun w => .bltu (rs1Of w) (rs2Of w) (immB w)⟩,
  ⟨"BGEU", 0x0000707f, 0x00007063, fun w => .bgeu (rs1Of w) (rs2Of w) (immB w)⟩ ]

/-- Load and store rows 11 to 21 of 30_encoding.md R94. -/
def memoryRows : List Row := [
  ⟨"LB", 0x0000707f, 0x00000003, fun w => .lb (rdOf w) (rs1Of w) (immI w)⟩,
  ⟨"LH", 0x0000707f, 0x00001003, fun w => .lh (rdOf w) (rs1Of w) (immI w)⟩,
  ⟨"LW", 0x0000707f, 0x00002003, fun w => .lw (rdOf w) (rs1Of w) (immI w)⟩,
  ⟨"LD", 0x0000707f, 0x00003003, fun w => .ld (rdOf w) (rs1Of w) (immI w)⟩,
  ⟨"LBU", 0x0000707f, 0x00004003, fun w => .lbu (rdOf w) (rs1Of w) (immI w)⟩,
  ⟨"LHU", 0x0000707f, 0x00005003, fun w => .lhu (rdOf w) (rs1Of w) (immI w)⟩,
  ⟨"LWU", 0x0000707f, 0x00006003, fun w => .lwu (rdOf w) (rs1Of w) (immI w)⟩,
  ⟨"SB", 0x0000707f, 0x00000023, fun w => .sb (rs2Of w) (rs1Of w) (immS w)⟩,
  ⟨"SH", 0x0000707f, 0x00001023, fun w => .sh (rs2Of w) (rs1Of w) (immS w)⟩,
  ⟨"SW", 0x0000707f, 0x00002023, fun w => .sw (rs2Of w) (rs1Of w) (immS w)⟩,
  ⟨"SD", 0x0000707f, 0x00003023, fun w => .sd (rs2Of w) (rs1Of w) (immS w)⟩ ]

/-- Register-immediate rows 22 to 30 of 30_encoding.md R94. -/
def immediateRows : List Row := [
  ⟨"ADDI", 0x0000707f, 0x00000013, fun w => .addi (rdOf w) (rs1Of w) (immI w)⟩,
  ⟨"SLTI", 0x0000707f, 0x00002013, fun w => .slti (rdOf w) (rs1Of w) (immI w)⟩,
  ⟨"SLTIU", 0x0000707f, 0x00003013, fun w => .sltiu (rdOf w) (rs1Of w) (immI w)⟩,
  ⟨"XORI", 0x0000707f, 0x00004013, fun w => .xori (rdOf w) (rs1Of w) (immI w)⟩,
  ⟨"ORI", 0x0000707f, 0x00006013, fun w => .ori (rdOf w) (rs1Of w) (immI w)⟩,
  ⟨"ANDI", 0x0000707f, 0x00007013, fun w => .andi (rdOf w) (rs1Of w) (immI w)⟩,
  ⟨"SLLI", 0xfc00707f, 0x00001013, fun w => .slli (rdOf w) (rs1Of w) (shamt6Of w)⟩,
  ⟨"SRLI", 0xfc00707f, 0x00005013, fun w => .srli (rdOf w) (rs1Of w) (shamt6Of w)⟩,
  ⟨"SRAI", 0xfc00707f, 0x40005013, fun w => .srai (rdOf w) (rs1Of w) (shamt6Of w)⟩ ]

/-- Register-register rows 31 to 40 of 30_encoding.md R94. -/
def registerRows : List Row := [
  ⟨"ADD", 0xfe00707f, 0x00000033, fun w => .add (rdOf w) (rs1Of w) (rs2Of w)⟩,
  ⟨"SUB", 0xfe00707f, 0x40000033, fun w => .sub (rdOf w) (rs1Of w) (rs2Of w)⟩,
  ⟨"SLL", 0xfe00707f, 0x00001033, fun w => .sll (rdOf w) (rs1Of w) (rs2Of w)⟩,
  ⟨"SLT", 0xfe00707f, 0x00002033, fun w => .slt (rdOf w) (rs1Of w) (rs2Of w)⟩,
  ⟨"SLTU", 0xfe00707f, 0x00003033, fun w => .sltu (rdOf w) (rs1Of w) (rs2Of w)⟩,
  ⟨"XOR", 0xfe00707f, 0x00004033, fun w => .xor (rdOf w) (rs1Of w) (rs2Of w)⟩,
  ⟨"SRL", 0xfe00707f, 0x00005033, fun w => .srl (rdOf w) (rs1Of w) (rs2Of w)⟩,
  ⟨"SRA", 0xfe00707f, 0x40005033, fun w => .sra (rdOf w) (rs1Of w) (rs2Of w)⟩,
  ⟨"OR", 0xfe00707f, 0x00006033, fun w => .or (rdOf w) (rs1Of w) (rs2Of w)⟩,
  ⟨"AND", 0xfe00707f, 0x00007033, fun w => .and (rdOf w) (rs1Of w) (rs2Of w)⟩ ]

/-- Word rows 41 to 49 of 30_encoding.md R94. -/
def wordRows : List Row := [
  ⟨"ADDIW", 0x0000707f, 0x0000001b, fun w => .addiw (rdOf w) (rs1Of w) (immI w)⟩,
  ⟨"SLLIW", 0xfe00707f, 0x0000101b, fun w => .slliw (rdOf w) (rs1Of w) (shamt5Of w)⟩,
  ⟨"SRLIW", 0xfe00707f, 0x0000501b, fun w => .srliw (rdOf w) (rs1Of w) (shamt5Of w)⟩,
  ⟨"SRAIW", 0xfe00707f, 0x4000501b, fun w => .sraiw (rdOf w) (rs1Of w) (shamt5Of w)⟩,
  ⟨"ADDW", 0xfe00707f, 0x0000003b, fun w => .addw (rdOf w) (rs1Of w) (rs2Of w)⟩,
  ⟨"SUBW", 0xfe00707f, 0x4000003b, fun w => .subw (rdOf w) (rs1Of w) (rs2Of w)⟩,
  ⟨"SLLW", 0xfe00707f, 0x0000103b, fun w => .sllw (rdOf w) (rs1Of w) (rs2Of w)⟩,
  ⟨"SRLW", 0xfe00707f, 0x0000503b, fun w => .srlw (rdOf w) (rs1Of w) (rs2Of w)⟩,
  ⟨"SRAW", 0xfe00707f, 0x4000503b, fun w => .sraw (rdOf w) (rs1Of w) (rs2Of w)⟩ ]

/-- System rows 50 to 52 of 30_encoding.md R94. -/
def systemRows : List Row := [
  ⟨"FENCE", 0x0000707f, 0x0000000f, fun w => .fence (w.extractLsb' 20 12) (rs1Of w) (rdOf w)⟩,
  ⟨"ECALL", 0xffffffff, 0x00000073, fun _ => .ecall⟩,
  ⟨"EBREAK", 0xffffffff, 0x00100073, fun _ => .ebreak⟩ ]

/-- The whole table, in the order of R94. -/
def opcodeTable : List Row :=
  upperRows ++ controlRows ++ memoryRows ++ immediateRows ++ registerRows ++ wordRows ++ systemRows

/-! ## Decode (R95, R103) -/

/-- Why the decoder gives no instruction. -/
inductive DecodeError where
  /-- The word matches no row of R94: an illegal instruction (R95). Safe: the spec says what executing it does. -/
  | illegal
  /-- Fewer than the four bytes every instruction has (R80). The fetch of `Sys2Proof.Machine.step` always gives four
  bytes, so no step meets it. Safe. -/
  | truncated
  deriving DecidableEq, Repr

/-- `Decode(w)` (R103): the instruction of the first row that accepts the word, or illegal by the default arm (R95). -/
def decodeWord (w : InstrWord) : Except DecodeError Instr :=
  match opcodeTable.find? (fun r => r.accepts w) with
  | some r => .ok (r.build w)
  | none => .error .illegal

/-- The word whose bytes stand at `pc .. pc+3` (R80). -/
def wordOfBytes (b0 b1 b2 b3 : Byte) : InstrWord := BitVec.ofNat 32 (leValue [b0, b1, b2, b3])

/-- Decoding from bytes, lowest address first: the instruction and the bytes after it. -/
def decode : List Byte → Except DecodeError (Instr × List Byte)
  | b0 :: b1 :: b2 :: b3 :: rest =>
    match decodeWord (wordOfBytes b0 b1 b2 b3) with
    | .ok i => .ok (i, rest)
    | .error e => .error e
  | _ => .error .truncated

/-- The decoder asked about an instruction whose bits are `w`: its four bytes as the hardware stores them, the bits at and
above `nbits` zero. -/
def decodeTableWord (nbits w : Nat) : Option Instr :=
  match decode (leBytes 4 (w % 2 ^ nbits)) with
  | .ok (i, _) => some i
  | .error _ => none

/-! ## Encode: the layouts R82 to R87 -/

/-- Format R (R82). -/
def encR (funct7 : BitVec 7) (rs2 rs1 : RegIdx) (funct3 : BitVec 3) (rd : RegIdx) (opcode : BitVec 7) : InstrWord :=
  funct7 ++ rs2 ++ rs1 ++ funct3 ++ rd ++ opcode

/-- Format I (R83), the 12 bits of its immediate field given. -/
def encFields (imm12 : BitVec 12) (rs1 : RegIdx) (funct3 : BitVec 3) (rd : RegIdx) (opcode : BitVec 7) : InstrWord :=
  imm12 ++ rs1 ++ funct3 ++ rd ++ opcode

/-- Format I (R83) of an assembled `immI`. -/
def encI (imm : Word) (rs1 : RegIdx) (funct3 : BitVec 3) (rd : RegIdx) (opcode : BitVec 7) : InstrWord :=
  encFields (imm.extractLsb' 0 12) rs1 funct3 rd opcode

/-- Format S (R84). -/
def encS (imm : Word) (rs2 rs1 : RegIdx) (funct3 : BitVec 3) (opcode : BitVec 7) : InstrWord :=
  imm.extractLsb' 5 7 ++ rs2 ++ rs1 ++ funct3 ++ imm.extractLsb' 0 5 ++ opcode

/-- Format B (R85). -/
def encB (imm : Word) (rs2 rs1 : RegIdx) (funct3 : BitVec 3) (opcode : BitVec 7) : InstrWord :=
  imm.extractLsb' 12 1 ++ imm.extractLsb' 5 6 ++ rs2 ++ rs1 ++ funct3 ++ imm.extractLsb' 1 4 ++ imm.extractLsb' 11 1 ++ opcode

/-- Format U (R86). -/
def encU (imm : Word) (rd : RegIdx) (opcode : BitVec 7) : InstrWord := imm.extractLsb' 12 20 ++ rd ++ opcode

/-- Format J (R87). -/
def encJ (imm : Word) (rd : RegIdx) (opcode : BitVec 7) : InstrWord :=
  imm.extractLsb' 20 1 ++ imm.extractLsb' 1 10 ++ imm.extractLsb' 11 1 ++ imm.extractLsb' 12 8 ++ rd ++ opcode

/-- The word of a well-formed instruction, from the columns opcode, funct3 and "other fixed bits" of R94. -/
def encode : Instr → InstrWord
  | .lui rd imm => encU imm rd 0b0110111
  | .auipc rd imm => encU imm rd 0b0010111
  | .jal rd imm => encJ imm rd 0b1101111
  | .jalr rd rs1 imm => encI imm rs1 0b000 rd 0b1100111
  | .beq rs1 rs2 imm => encB imm rs2 rs1 0b000 0b1100011
  | .bne rs1 rs2 imm => encB imm rs2 rs1 0b001 0b1100011
  | .blt rs1 rs2 imm => encB imm rs2 rs1 0b100 0b1100011
  | .bge rs1 rs2 imm => encB imm rs2 rs1 0b101 0b1100011
  | .bltu rs1 rs2 imm => encB imm rs2 rs1 0b110 0b1100011
  | .bgeu rs1 rs2 imm => encB imm rs2 rs1 0b111 0b1100011
  | .lb rd rs1 imm => encI imm rs1 0b000 rd 0b0000011
  | .lh rd rs1 imm => encI imm rs1 0b001 rd 0b0000011
  | .lw rd rs1 imm => encI imm rs1 0b010 rd 0b0000011
  | .ld rd rs1 imm => encI imm rs1 0b011 rd 0b0000011
  | .lbu rd rs1 imm => encI imm rs1 0b100 rd 0b0000011
  | .lhu rd rs1 imm => encI imm rs1 0b101 rd 0b0000011
  | .lwu rd rs1 imm => encI imm rs1 0b110 rd 0b0000011
  | .sb rs2 rs1 imm => encS imm rs2 rs1 0b000 0b0100011
  | .sh rs2 rs1 imm => encS imm rs2 rs1 0b001 0b0100011
  | .sw rs2 rs1 imm => encS imm rs2 rs1 0b010 0b0100011
  | .sd rs2 rs1 imm => encS imm rs2 rs1 0b011 0b0100011
  | .addi rd rs1 imm => encI imm rs1 0b000 rd 0b0010011
  | .slti rd rs1 imm => encI imm rs1 0b010 rd 0b0010011
  | .sltiu rd rs1 imm => encI imm rs1 0b011 rd 0b0010011
  | .xori rd rs1 imm => encI imm rs1 0b100 rd 0b0010011
  | .ori rd rs1 imm => encI imm rs1 0b110 rd 0b0010011
  | .andi rd rs1 imm => encI imm rs1 0b111 rd 0b0010011
  | .slli rd rs1 shamt => encFields (0b000000#6 ++ shamt) rs1 0b001 rd 0b0010011
  | .srli rd rs1 shamt => encFields (0b000000#6 ++ shamt) rs1 0b101 rd 0b0010011
  | .srai rd rs1 shamt => encFields (0b010000#6 ++ shamt) rs1 0b101 rd 0b0010011
  | .add rd rs1 rs2 => encR 0b0000000 rs2 rs1 0b000 rd 0b0110011
  | .sub rd rs1 rs2 => encR 0b0100000 rs2 rs1 0b000 rd 0b0110011
  | .sll rd rs1 rs2 => encR 0b0000000 rs2 rs1 0b001 rd 0b0110011
  | .slt rd rs1 rs2 => encR 0b0000000 rs2 rs1 0b010 rd 0b0110011
  | .sltu rd rs1 rs2 => encR 0b0000000 rs2 rs1 0b011 rd 0b0110011
  | .xor rd rs1 rs2 => encR 0b0000000 rs2 rs1 0b100 rd 0b0110011
  | .srl rd rs1 rs2 => encR 0b0000000 rs2 rs1 0b101 rd 0b0110011
  | .sra rd rs1 rs2 => encR 0b0100000 rs2 rs1 0b101 rd 0b0110011
  | .or rd rs1 rs2 => encR 0b0000000 rs2 rs1 0b110 rd 0b0110011
  | .and rd rs1 rs2 => encR 0b0000000 rs2 rs1 0b111 rd 0b0110011
  | .addiw rd rs1 imm => encI imm rs1 0b000 rd 0b0011011
  | .slliw rd rs1 shamt => encR 0b0000000 shamt rs1 0b001 rd 0b0011011
  | .srliw rd rs1 shamt => encR 0b0000000 shamt rs1 0b101 rd 0b0011011
  | .sraiw rd rs1 shamt => encR 0b0100000 shamt rs1 0b101 rd 0b0011011
  | .addw rd rs1 rs2 => encR 0b0000000 rs2 rs1 0b000 rd 0b0111011
  | .subw rd rs1 rs2 => encR 0b0100000 rs2 rs1 0b000 rd 0b0111011
  | .sllw rd rs1 rs2 => encR 0b0000000 rs2 rs1 0b001 rd 0b0111011
  | .srlw rd rs1 rs2 => encR 0b0000000 rs2 rs1 0b101 rd 0b0111011
  | .sraw rd rs1 rs2 => encR 0b0100000 rs2 rs1 0b101 rd 0b0111011
  | .fence ignored rs1 rd => encFields ignored rs1 0b000 rd 0b0001111
  | .ecall => encFields 0 0 0b000 0 0b1110011
  | .ebreak => encFields 0b000000000001 0 0b000 0 0b1110011

end Sys2Proof
end

