-- ==== Sys2Proof/Machine/Ops.lean ====
section
/-! DEFINITION. The named operations every meaning and every host command is built from: registers (10_state.md R20 to R23),
memory (20_memory.md), counters (10_state.md R33), fault entry (60_exceptions.md R286), the recovery from it (R292), and the
proposal, the next-PC check and the commit of a step (40_step_engine.md R115 to R118). -/

namespace Sys2Proof.Machine

/-! ## Registers -/

/-- The storage slot of `x[r]`, for `r` other than 0. -/
def slot (r : RegIdx) : Fin 31 := ⟨r.toNat - 1, by have := r.isLt; omega⟩

/-- `x[r]`: register 0 always reads as zero (10_state.md R22, 00_scope.md R8). -/
def State.getReg (s : State) (r : RegIdx) : Word := if r = 0 then 0 else s.x[slot r]

/-- `x[r] <- v`: a write to register 0 is accepted and discarded (10_state.md R22, 00_scope.md R8). -/
def State.setReg (s : State) (r : RegIdx) (v : Word) : State :=
  if r = 0 then s else { s with x := s.x.set (slot r) v }

/-! ## Memory -/

/-- What an address of the region that no cell lists reads as: the zero fill of INIT (10_state.md R43; log 3). -/
def unlistedByte : Byte := 0

/-- The byte at an address of the region (20_memory.md R50). -/
def Memory.get : Memory → Nat → Byte
  | [], _ => unlistedByte
  | (k, b) :: m, a => if a = k then b else Memory.get m a

/-- `Mem[a] <- v` for one byte, keeping the canonical form: a byte equal to the unlisted one is not listed. -/
def Memory.set : Memory → Nat → Byte → Memory
  | [], a, v => if v = unlistedByte then [] else [(a, v)]
  | (k, b) :: m, a, v =>
    if a < k then (if v = unlistedByte then (k, b) :: m else (a, v) :: (k, b) :: m)
    else if a = k then (if v = unlistedByte then m else (a, v) :: m)
    else (k, b) :: Memory.set m a v

/-- The canonical form: addresses strictly rising, no listed byte equal to the unlisted one. -/
abbrev Memory.wf (m : Memory) : Prop :=
  m.Pairwise (fun c d => c.1 < d.1) ∧ ∀ c ∈ m, c.2 ≠ unlistedByte

/-- The `n` bytes from address `a` up, lowest first. -/
def Memory.getBytes (m : Memory) (a : Nat) : Nat → List Byte
  | 0 => []
  | n + 1 => m.get a :: Memory.getBytes m (a + 1) n

/-- The bytes `bs` stored from address `a` up, lowest first. -/
def Memory.setBytes (m : Memory) (a : Nat) : List Byte → Memory
  | [] => m
  | b :: bs => Memory.setBytes (m.set a b) (a + 1) bs

/-- `InBounds(a, n)` over the unbounded integers (20_memory.md R52). -/
abbrev State.InBounds (s : State) (a : Int) (n : Nat) : Prop :=
  (s.loadAddr.toNat : Int) ≤ a ∧ a + n ≤ s.loadAddr.toNat + s.memSize

/-- The integer is an address of the memory region `[LOAD_ADDR, LOAD_ADDR + MEM_SIZE)` (20_memory.md R50). -/
abbrev State.InRegion (s : State) (a : Int) : Prop :=
  (s.loadAddr.toNat : Int) ≤ a ∧ a < s.loadAddr.toNat + s.memSize

/-- The value an access of width `w` reads at an address in bounds: little-endian (20_memory.md R53). -/
def State.loadValue (s : State) (a : Int) (w : Width) : BitVec w.bits :=
  BitVec.ofNat w.bits (leValue (s.mem.getBytes a.toNat w.bytes))

/-- The state after an access of width `w` writes the low bits of `v` at an address in bounds (20_memory.md R55). -/
def State.storeValue (s : State) (a : Int) (w : Width) (v : Word) : State :=
  { s with mem := s.mem.setBytes a.toNat (leBytes w.bytes v.toNat) }

/-- `MemRead(a, n)` (20_memory.md R53). -/
def State.memRead (s : State) (a : Int) (w : Width) : Except Fault (BitVec w.bits) :=
  if s.InBounds a w.bytes then .ok (s.loadValue a w) else .error .memoryFault

/-- `MemWrite(a, n, v)` (20_memory.md R55). -/
def State.memWrite (s : State) (a : Int) (w : Width) (v : Word) : Except Fault State :=
  if s.InBounds a w.bytes then .ok (s.storeValue a w v) else .error .memoryFault

/-- The fetch, `MemRead(u(pc), 4)`, at any byte address (20_memory.md R57, 40_step_engine.md R113). -/
def State.fetch (s : State) : Except Fault InstrWord := s.memRead s.pc.toNat .word

/-! ## Counters -/

/-- A counter one up, staying at its greatest value (10_state.md R33). -/
def bump (c : Word) : Word := if c = counterMax then c else c + 1

/-! ## Taking a fault, and the recovery from it -/

/-- Fault entry (60_exceptions.md R286, 40_step_engine.md R116): the tag becomes `faulted`, the fault count goes one up, the
kind is returned to the host, and nothing else changes. There is no handler: the pc stays at the faulting instruction. -/
def State.takeFault (s : State) (f : Fault) : State :=
  { s with tag := .faulted, faultCount := bump s.faultCount, lastStep := some (.err f) }

/-- `S.x[1]` to `S.x[31]`: what RESTORE_STATE writes to the registers (47_snapshot.md R264, R266). -/
def Snapshot.restoredRegs (S : Snapshot) : Vector Word 31 := ⟨⟨S.x.toList.tail⟩, by simp⟩

/-- The effect of RESTORE_STATE once its checks have passed (47_snapshot.md R264), the only way out of `faulted` but INIT
(60_exceptions.md R292): registers, pc, all memory and the tag come from the snapshot, `S.x[0]` is ignored (R266), the counters
are kept (R268). -/
def State.restore (s : State) (S : Snapshot) : State :=
  { s with
    x := S.restoredRegs
    pc := S.pc
    mem := Memory.setBytes [] s.loadAddr.toNat S.mem
    tag := S.tag }

/-- `S.x[0]` to `S.x[31]` at capture, `S.x[0]` saved as 0 (47_snapshot.md R262, R266). -/
def State.savedRegs (s : State) : Vector Word 32 := ⟨⟨0 :: s.x.toList⟩, by simp⟩

/-- The snapshot of the state (47_snapshot.md R262): valid, every register, the pc, the tag, every byte of the region. -/
def State.capture (s : State) : Snapshot where
  valid := true
  x := s.savedRegs
  pc := s.pc
  tag := s.tag
  mem := s.mem.getBytes s.loadAddr.toNat s.memSize

/-! ## The step engine -/

/-- A memory write an instruction proposes; its bounds are checked when it is proposed (40_step_engine.md R112, check 4). -/
structure MemWrite where
  addr : Int
  width : Width
  value : Word
  deriving DecidableEq, Repr

/-- What the execute stage proposes (40_step_engine.md R115): at most one register write, at most one memory write, the integer
`npc`, an event. -/
structure Proposal where
  regWrite : Option (RegIdx × Word)
  memWrite : Option MemWrite
  npc : Int
  event : Event
  deriving DecidableEq, Repr

/-- The integer address of the instruction after this one, `u(pc) + 4` (10_state.md R26). -/
abbrev State.seqPc (s : State) : Int := s.pc.toNat + 4

/-- The proposal that writes nothing and goes on with the next instruction. -/
def State.proposeNone (s : State) (e : Event) : Proposal := ⟨none, none, s.seqPc, e⟩

/-- The proposal of a computational instruction: `x[rd] <- v`, then the next instruction. -/
def State.proposeReg (s : State) (rd : RegIdx) (v : Word) : Proposal := ⟨some (rd, v), none, s.seqPc, .retired⟩

/-- The tag a retiring step leaves (40_step_engine.md R118 (e)): `completed` when the event is `EnvCall` and `ENV_TERMINATES`
holds of the state before the step; otherwise it stays. -/
def State.tagAfter (s : State) (e : Event) : Tag :=
  match e with
  | .envCall => if Config.envTerminates s.x s.pc s.loadAddr s.memSize s.mem = true then .completed else s.tag
  | _ => s.tag

/-- The memory write of a proposal, if any. -/
def State.applyMem (s : State) : Option MemWrite → State
  | none => s
  | some m => s.storeValue m.addr m.width m.value

/-- The register write of a proposal, if any. -/
def State.applyReg (s : State) : Option (RegIdx × Word) → State
  | none => s
  | some (rd, v) => s.setReg rd v

/-- Commit (40_step_engine.md R118), one atomic change of state. -/
def State.commit (s : State) (p : Proposal) : State :=
  { (s.applyMem p.memWrite).applyReg p.regWrite with
    pc := BitVec.ofInt 64 p.npc
    instret := bump s.instret
    tag := s.tagAfter p.event
    lastStep := some (.ok p.event) }

/-- The end of a step: a raised fault is fault entry (R116); a proposal is committed if its `npc` lies in the region (R117), and
is a `MemoryFault` if not. -/
def State.resolve (s : State) : Except Fault Proposal → State
  | .error f => s.takeFault f
  | .ok p => if s.InRegion p.npc then s.commit p else s.takeFault .memoryFault

/-- The outcome of an instruction whose execute stage gives `r`: always a next state. -/
def State.finish (s : State) (r : Except Fault Proposal) : Host.Outcome State Fault Refusal := .next (s.resolve r)

end Sys2Proof.Machine
end

