-- ==== Sys2Proof/Machine/Operands.lean ====
section
/-! DEFINITION. The operand forms: effective addresses and targets in address arithmetic over the integers (00_scope.md R7),
shift amounts (30_encoding.md R93), and the common part of loads, stores and branches. -/

namespace Sys2Proof.Machine

/-- The effective address `u(x[rs1]) + s(imm)`, not reduced modulo `2^64` (44_load_store.md R200). -/
def State.effAddr (s : State) (rs1 : RegIdx) (imm : Word) : Int := (s.getReg rs1).toNat + imm.toInt

/-- The target `u(pc) + s(offset)` of a JAL or a taken branch (43_control_transfer.md R180). -/
def State.pcTarget (s : State) (imm : Word) : Int := s.pc.toNat + imm.toInt

/-- The target of a JALR: `t - (t mod 2)` for `t = u(x[rs1]) + s(immI)` (43_control_transfer.md R182). -/
def State.regTarget (s : State) (rs1 : RegIdx) (imm : Word) : Int :=
  s.effAddr rs1 imm - s.effAddr rs1 imm % 2

/-- The link value `trunc_64(u(pc) + 4)` (43_control_transfer.md R190). -/
def State.link (s : State) : Word := s.pc + 4

/-- The 6-bit shift amount of a register operand, its bits 5 to 0 (41_integer_computational.md R130). -/
def shift6 (v : Word) : Nat := (v.extractLsb' 0 6).toNat

/-- The 5-bit shift amount of a register operand, its bits 4 to 0 (42_integer_word.md R160). -/
def shift5 (v : Word) : Nat := (v.extractLsb' 0 5).toNat

/-- The low 32 bits of a value (42_integer_word.md R160). -/
def low32 (v : Word) : BitVec 32 := v.setWidth 32

/-- A 32-bit result as it is written, `sext_64(r)` (42_integer_word.md R160). -/
def sext32 (r : BitVec 32) : Word := r.signExtend 64

/-- How a load extends what it reads (44_load_store.md R208). -/
inductive Extension where
  | signed
  | unsigned
  deriving DecidableEq, Repr

/-- The 64-bit value of the `8n` bits a load reads (44_load_store.md R208). -/
def extend (e : Extension) {n : Nat} (v : BitVec n) : Word :=
  match e with
  | .signed => v.signExtend 64
  | .unsigned => v.setWidth 64

/-- The execute stage of a load (44_load_store.md R208): a bounds check on the whole access, also for `rd = x0`. -/
def State.proposeLoad (s : State) (w : Width) (e : Extension) (rd rs1 : RegIdx) (imm : Word) : Except Fault Proposal :=
  match s.memRead (s.effAddr rs1 imm) w with
  | .ok v => .ok (s.proposeReg rd (extend e v))
  | .error f => .error f

/-- The execute stage of a store (44_load_store.md R213): a bounds check on the whole access, then the proposed write. -/
def State.proposeStore (s : State) (w : Width) (rs2 rs1 : RegIdx) (imm : Word) : Except Fault Proposal :=
  if s.InBounds (s.effAddr rs1 imm) w.bytes then
    .ok ⟨none, some ⟨s.effAddr rs1 imm, w, s.getReg rs2⟩, s.seqPc, .retired⟩
  else .error .memoryFault

/-- The execute stage of a jump: the link register and the target (43_control_transfer.md R180, R190). -/
def State.proposeJump (s : State) (rd : RegIdx) (target : Int) : Proposal :=
  ⟨some (rd, s.link), none, target, .retired⟩

/-- The execute stage of a conditional branch: the target of a branch not taken is not computed (43_control_transfer.md,
section 3). -/
def State.proposeBranch (s : State) (taken : Bool) (imm : Word) : Proposal :=
  ⟨none, none, if taken = true then s.pcTarget imm else s.seqPc, .retired⟩

end Sys2Proof.Machine
end

