-- ==== Sys2Proof/Machine/Control.lean ====
section
/-! DEFINITION. The control-transfer instructions (43_control_transfer.md): the target is an integer, checked against the region by
the engine (R180); a `MemoryFault` there writes no link register. -/

namespace Sys2Proof.Machine

/-- `JAL` (R181): link, then `npc = u(pc) + s(immJ)`. -/
def execJal (rd : RegIdx) (imm : Word) (s : State) : Host.Outcome State Fault Refusal :=
  s.finish (.ok (s.proposeJump rd (s.pcTarget imm)))

/-- `JALR` (R182): link, then `npc = u(x[rs1]) + s(immI)` with bit 0 cleared; the old `x[rs1]` is used. -/
def execJalr (rd rs1 : RegIdx) (imm : Word) (s : State) : Host.Outcome State Fault Refusal :=
  s.finish (.ok (s.proposeJump rd (s.regTarget rs1 imm)))

/-- `BEQ` (R184): taken if `a = b`. -/
def execBeq (rs1 rs2 : RegIdx) (imm : Word) (s : State) : Host.Outcome State Fault Refusal :=
  s.finish (.ok (s.proposeBranch (eqWord (s.getReg rs1) (s.getReg rs2)) imm))

/-- `BNE` (R185): taken if `a != b`. -/
def execBne (rs1 rs2 : RegIdx) (imm : Word) (s : State) : Host.Outcome State Fault Refusal :=
  s.finish (.ok (s.proposeBranch (!eqWord (s.getReg rs1) (s.getReg rs2)) imm))

/-- `BLT` (R186): taken if `s(a) < s(b)`. -/
def execBlt (rs1 rs2 : RegIdx) (imm : Word) (s : State) : Host.Outcome State Fault Refusal :=
  s.finish (.ok (s.proposeBranch (ltSigned (s.getReg rs1) (s.getReg rs2)) imm))

/-- `BGE` (R187): taken if `s(a) >= s(b)`. -/
def execBge (rs1 rs2 : RegIdx) (imm : Word) (s : State) : Host.Outcome State Fault Refusal :=
  s.finish (.ok (s.proposeBranch (!ltSigned (s.getReg rs1) (s.getReg rs2)) imm))

/-- `BLTU` (R188): taken if `u(a) < u(b)`. -/
def execBltu (rs1 rs2 : RegIdx) (imm : Word) (s : State) : Host.Outcome State Fault Refusal :=
  s.finish (.ok (s.proposeBranch (ltUnsigned (s.getReg rs1) (s.getReg rs2)) imm))

/-- `BGEU` (R189): taken if `u(a) >= u(b)`. -/
def execBgeu (rs1 rs2 : RegIdx) (imm : Word) (s : State) : Host.Outcome State Fault Refusal :=
  s.finish (.ok (s.proposeBranch (!ltUnsigned (s.getReg rs1) (s.getReg rs2)) imm))

end Sys2Proof.Machine
end

