-- ==== Sys2Proof/Machine/Integer.lean ====
section
/-! DEFINITION. The 21 integer computational instructions (41_integer_computational.md): wrapping 64-bit arithmetic (R130), no
fault but fetch and next-PC (R154), the next instruction after. -/

namespace Sys2Proof.Machine

/-- `LUI` (R133): `x[rd] <- immU`. -/
def execLui (rd : RegIdx) (imm : Word) (s : State) : Host.Outcome State Fault Refusal :=
  s.finish (.ok (s.proposeReg rd (imm)))

/-- `AUIPC` (R134): `x[rd] <- pc +64 immU`. -/
def execAuipc (rd : RegIdx) (imm : Word) (s : State) : Host.Outcome State Fault Refusal :=
  s.finish (.ok (s.proposeReg rd (s.pc + imm)))

/-- `ADDI` (R135): `x[rd] <- x[rs1] +64 immI`. -/
def execAddi (rd rs1 : RegIdx) (imm : Word) (s : State) : Host.Outcome State Fault Refusal :=
  s.finish (.ok (s.proposeReg rd (s.getReg rs1 + imm)))

/-- `SLTI` (R136): 1 if `s(x[rs1]) < s(immI)`, else 0. -/
def execSlti (rd rs1 : RegIdx) (imm : Word) (s : State) : Host.Outcome State Fault Refusal :=
  s.finish (.ok (s.proposeReg rd (boolWord (ltSigned (s.getReg rs1) imm))))

/-- `SLTIU` (R137): 1 if `u(x[rs1]) < u(immI)`, else 0; the immediate is already sign-extended. -/
def execSltiu (rd rs1 : RegIdx) (imm : Word) (s : State) : Host.Outcome State Fault Refusal :=
  s.finish (.ok (s.proposeReg rd (boolWord (ltUnsigned (s.getReg rs1) imm))))

/-- `XORI` (R138): `x[rd] <- x[rs1] xor immI`. -/
def execXori (rd rs1 : RegIdx) (imm : Word) (s : State) : Host.Outcome State Fault Refusal :=
  s.finish (.ok (s.proposeReg rd (s.getReg rs1 ^^^ imm)))

/-- `ORI` (R139): `x[rd] <- x[rs1] or immI`. -/
def execOri (rd rs1 : RegIdx) (imm : Word) (s : State) : Host.Outcome State Fault Refusal :=
  s.finish (.ok (s.proposeReg rd (s.getReg rs1 ||| imm)))

/-- `ANDI` (R140): `x[rd] <- x[rs1] and immI`. -/
def execAndi (rd rs1 : RegIdx) (imm : Word) (s : State) : Host.Outcome State Fault Refusal :=
  s.finish (.ok (s.proposeReg rd (s.getReg rs1 &&& imm)))

/-- `SLLI` (R141): shift left by `shamt6`, zeros in. -/
def execSlli (rd rs1 : RegIdx) (shamt : BitVec 6) (s : State) : Host.Outcome State Fault Refusal :=
  s.finish (.ok (s.proposeReg rd (s.getReg rs1 <<< shamt.toNat)))

/-- `SRLI` (R142): shift right by `shamt6`, zeros in. -/
def execSrli (rd rs1 : RegIdx) (shamt : BitVec 6) (s : State) : Host.Outcome State Fault Refusal :=
  s.finish (.ok (s.proposeReg rd (s.getReg rs1 >>> shamt.toNat)))

/-- `SRAI` (R143): shift right by `shamt6`, copies of bit 63 in. -/
def execSrai (rd rs1 : RegIdx) (shamt : BitVec 6) (s : State) : Host.Outcome State Fault Refusal :=
  s.finish (.ok (s.proposeReg rd ((s.getReg rs1).sshiftRight shamt.toNat)))

/-- `ADD` (R144): `x[rd] <- a +64 b`. -/
def execAdd (rd rs1 rs2 : RegIdx) (s : State) : Host.Outcome State Fault Refusal :=
  s.finish (.ok (s.proposeReg rd (s.getReg rs1 + s.getReg rs2)))

/-- `SUB` (R145): `x[rd] <- a -64 b`. -/
def execSub (rd rs1 rs2 : RegIdx) (s : State) : Host.Outcome State Fault Refusal :=
  s.finish (.ok (s.proposeReg rd (s.getReg rs1 - s.getReg rs2)))

/-- `SLL` (R146): shift left by `b[5:0]`. -/
def execSll (rd rs1 rs2 : RegIdx) (s : State) : Host.Outcome State Fault Refusal :=
  s.finish (.ok (s.proposeReg rd (s.getReg rs1 <<< shift6 (s.getReg rs2))))

/-- `SLT` (R147): 1 if `s(a) < s(b)`, else 0. -/
def execSlt (rd rs1 rs2 : RegIdx) (s : State) : Host.Outcome State Fault Refusal :=
  s.finish (.ok (s.proposeReg rd (boolWord (ltSigned (s.getReg rs1) (s.getReg rs2)))))

/-- `SLTU` (R148): 1 if `u(a) < u(b)`, else 0. -/
def execSltu (rd rs1 rs2 : RegIdx) (s : State) : Host.Outcome State Fault Refusal :=
  s.finish (.ok (s.proposeReg rd (boolWord (ltUnsigned (s.getReg rs1) (s.getReg rs2)))))

/-- `XOR` (R149): `x[rd] <- a xor b`. -/
def execXor (rd rs1 rs2 : RegIdx) (s : State) : Host.Outcome State Fault Refusal :=
  s.finish (.ok (s.proposeReg rd (s.getReg rs1 ^^^ s.getReg rs2)))

/-- `SRL` (R150): logical shift right by `b[5:0]`. -/
def execSrl (rd rs1 rs2 : RegIdx) (s : State) : Host.Outcome State Fault Refusal :=
  s.finish (.ok (s.proposeReg rd (s.getReg rs1 >>> shift6 (s.getReg rs2))))

/-- `SRA` (R151): arithmetic shift right by `b[5:0]`. -/
def execSra (rd rs1 rs2 : RegIdx) (s : State) : Host.Outcome State Fault Refusal :=
  s.finish (.ok (s.proposeReg rd ((s.getReg rs1).sshiftRight (shift6 (s.getReg rs2)))))

/-- `OR` (R152): `x[rd] <- a or b`. -/
def execOr (rd rs1 rs2 : RegIdx) (s : State) : Host.Outcome State Fault Refusal :=
  s.finish (.ok (s.proposeReg rd (s.getReg rs1 ||| s.getReg rs2)))

/-- `AND` (R153): `x[rd] <- a and b`. -/
def execAnd (rd rs1 rs2 : RegIdx) (s : State) : Host.Outcome State Fault Refusal :=
  s.finish (.ok (s.proposeReg rd (s.getReg rs1 &&& s.getReg rs2)))

end Sys2Proof.Machine
end

