-- ==== Sys2Proof/Machine/IntegerWord.lean ====
section
/-! DEFINITION. The nine instructions on 32-bit words (42_integer_word.md): they compute on the low 32 bits of their sources and
write the 32-bit result sign-extended (R160). -/

namespace Sys2Proof.Machine

/-- `ADDIW` (R161): `x[rd] <- sext_64((x[rs1] +64 immI)[31:0])`. -/
def execAddiw (rd rs1 : RegIdx) (imm : Word) (s : State) : Host.Outcome State Fault Refusal :=
  s.finish (.ok (s.proposeReg rd (sext32 (low32 (s.getReg rs1 + imm)))))

/-- `SLLIW` (R162): shift the low word left by `shamt5`. -/
def execSlliw (rd rs1 : RegIdx) (shamt : BitVec 5) (s : State) : Host.Outcome State Fault Refusal :=
  s.finish (.ok (s.proposeReg rd (sext32 (low32 (s.getReg rs1) <<< shamt.toNat))))

/-- `SRLIW` (R163): shift the low word right by `shamt5`, zeros in. -/
def execSrliw (rd rs1 : RegIdx) (shamt : BitVec 5) (s : State) : Host.Outcome State Fault Refusal :=
  s.finish (.ok (s.proposeReg rd (sext32 (low32 (s.getReg rs1) >>> shamt.toNat))))

/-- `SRAIW` (R164): shift the low word right by `shamt5`, copies of bit 31 in. -/
def execSraiw (rd rs1 : RegIdx) (shamt : BitVec 5) (s : State) : Host.Outcome State Fault Refusal :=
  s.finish (.ok (s.proposeReg rd (sext32 ((low32 (s.getReg rs1)).sshiftRight shamt.toNat))))

/-- `ADDW` (R165): `x[rd] <- sext_64((x[rs1] +64 x[rs2])[31:0])`. -/
def execAddw (rd rs1 rs2 : RegIdx) (s : State) : Host.Outcome State Fault Refusal :=
  s.finish (.ok (s.proposeReg rd (sext32 (low32 (s.getReg rs1 + s.getReg rs2)))))

/-- `SUBW` (R166): `x[rd] <- sext_64((x[rs1] -64 x[rs2])[31:0])`. -/
def execSubw (rd rs1 rs2 : RegIdx) (s : State) : Host.Outcome State Fault Refusal :=
  s.finish (.ok (s.proposeReg rd (sext32 (low32 (s.getReg rs1 - s.getReg rs2)))))

/-- `SLLW` (R167): shift the low word left by `x[rs2][4:0]`. -/
def execSllw (rd rs1 rs2 : RegIdx) (s : State) : Host.Outcome State Fault Refusal :=
  s.finish (.ok (s.proposeReg rd (sext32 (low32 (s.getReg rs1) <<< shift5 (s.getReg rs2)))))

/-- `SRLW` (R168): logical shift of the low word right by `x[rs2][4:0]`. -/
def execSrlw (rd rs1 rs2 : RegIdx) (s : State) : Host.Outcome State Fault Refusal :=
  s.finish (.ok (s.proposeReg rd (sext32 (low32 (s.getReg rs1) >>> shift5 (s.getReg rs2)))))

/-- `SRAW` (R169): arithmetic shift of the low word right by `x[rs2][4:0]`. -/
def execSraw (rd rs1 rs2 : RegIdx) (s : State) : Host.Outcome State Fault Refusal :=
  s.finish (.ok (s.proposeReg rd (sext32 ((low32 (s.getReg rs1)).sshiftRight (shift5 (s.getReg rs2))))))

end Sys2Proof.Machine
end

