-- ==== Sys2Proof/Machine/LoadStore.lean ====
section
/-! DEFINITION. The loads and stores (44_load_store.md): one addressing mode (R200), any alignment, the whole access checked before
any byte moves (R208, R213, R214). -/

namespace Sys2Proof.Machine

/-- `LB` (R201): `x[rd] <- sext_64(MemRead(ea, 1))`. -/
def execLb (rd rs1 : RegIdx) (imm : Word) (s : State) : Host.Outcome State Fault Refusal :=
  s.finish (s.proposeLoad .byte .signed rd rs1 imm)

/-- `LH` (R202): `x[rd] <- sext_64(MemRead(ea, 2))`. -/
def execLh (rd rs1 : RegIdx) (imm : Word) (s : State) : Host.Outcome State Fault Refusal :=
  s.finish (s.proposeLoad .half .signed rd rs1 imm)

/-- `LW` (R203): `x[rd] <- sext_64(MemRead(ea, 4))`. -/
def execLw (rd rs1 : RegIdx) (imm : Word) (s : State) : Host.Outcome State Fault Refusal :=
  s.finish (s.proposeLoad .word .signed rd rs1 imm)

/-- `LD` (R204): `x[rd] <- MemRead(ea, 8)`; all 64 bits are read, so no extension is needed. -/
def execLd (rd rs1 : RegIdx) (imm : Word) (s : State) : Host.Outcome State Fault Refusal :=
  s.finish (s.proposeLoad .dword .unsigned rd rs1 imm)

/-- `LBU` (R205): `x[rd] <- zext_64(MemRead(ea, 1))`. -/
def execLbu (rd rs1 : RegIdx) (imm : Word) (s : State) : Host.Outcome State Fault Refusal :=
  s.finish (s.proposeLoad .byte .unsigned rd rs1 imm)

/-- `LHU` (R206): `x[rd] <- zext_64(MemRead(ea, 2))`. -/
def execLhu (rd rs1 : RegIdx) (imm : Word) (s : State) : Host.Outcome State Fault Refusal :=
  s.finish (s.proposeLoad .half .unsigned rd rs1 imm)

/-- `LWU` (R207): `x[rd] <- zext_64(MemRead(ea, 4))`. -/
def execLwu (rd rs1 : RegIdx) (imm : Word) (s : State) : Host.Outcome State Fault Refusal :=
  s.finish (s.proposeLoad .word .unsigned rd rs1 imm)

/-- `SB` (R209): `MemWrite(ea, 1, x[rs2])`. -/
def execSb (rs2 rs1 : RegIdx) (imm : Word) (s : State) : Host.Outcome State Fault Refusal :=
  s.finish (s.proposeStore .byte rs2 rs1 imm)

/-- `SH` (R210): `MemWrite(ea, 2, x[rs2])`. -/
def execSh (rs2 rs1 : RegIdx) (imm : Word) (s : State) : Host.Outcome State Fault Refusal :=
  s.finish (s.proposeStore .half rs2 rs1 imm)

/-- `SW` (R211): `MemWrite(ea, 4, x[rs2])`. -/
def execSw (rs2 rs1 : RegIdx) (imm : Word) (s : State) : Host.Outcome State Fault Refusal :=
  s.finish (s.proposeStore .word rs2 rs1 imm)

/-- `SD` (R212): `MemWrite(ea, 8, x[rs2])`. -/
def execSd (rs2 rs1 : RegIdx) (imm : Word) (s : State) : Host.Outcome State Fault Refusal :=
  s.finish (s.proposeStore .dword rs2 rs1 imm)

end Sys2Proof.Machine
end

