-- ==== Sys2Proof/Machine/System.lean ====
section
/-! DEFINITION. The fence, the environment call and the breakpoint (45_system_fence.md). All three retire and go on with the next
instruction; ECALL and EBREAK report their event to the host, which is all the spec has them do. -/

namespace Sys2Proof.Machine

/-- `FENCE` (R220, 30_encoding.md R98): orders nothing further, its fields are ignored; the step retires. -/
def execFence (_ignored : BitVec 12) (_rs1 _rd : RegIdx) (s : State) : Host.Outcome State Fault Refusal :=
  s.finish (.ok (s.proposeNone .retired))

/-- `ECALL` (R221): reports `EnvCall`; the tag becomes `completed` at commit if `ENV_TERMINATES` holds of the state before the
step (`State.tagAfter`). -/
def execEcall (s : State) : Host.Outcome State Fault Refusal := s.finish (.ok (s.proposeNone .envCall))

/-- `EBREAK` (R222): reports `Breakpoint`; it never terminates. -/
def execEbreak (s : State) : Host.Outcome State Fault Refusal := s.finish (.ok (s.proposeNone .breakpoint))

end Sys2Proof.Machine
end

