-- ==== Sys2Proof/Machine/Step.lean ====
section
/-! DEFINITION. The STEP command (40_step_engine.md), and how a test places the instruction the next step runs. -/

namespace Sys2Proof.Machine

/-- `STEP` (40_step_engine.md R110, order of checks R112): the state guard (R111), the fetch (R113), decode (R114), then the
instruction, whose meaning ends with the data check, the next-PC check and the commit (R115 to R118). Every outcome is a next
state: an `Err` result is reported in `lastStep`. -/
def step (s : State) : Host.Outcome State Fault Refusal :=
  if s.tag = .running then
    match s.fetch with
    | .error f => .next (s.takeFault f)
    | .ok w =>
      match decodeWord w with
      | .error _ => .next (s.takeFault .illegalInstruction)
      | .ok i => exec i s
  else .next { s with lastStep := some (.err .invalidState) }

/-- `s` with the instruction whose bits are `w` (those at and above `nbits` zero) stored at the program counter, where the next
step fetches, and with the tag `running`: it stands for the host's WRITE32 there and its START (log 4). It needs four bytes of
the region at the pc (log 4). -/
def State.withFetchWord (s : State) (nbits w : Nat) : State :=
  { s with
    mem := s.mem.setBytes s.pc.toNat (leBytes 4 (w % 2 ^ nbits))
    tag := .running }

end Sys2Proof.Machine
end

