-- ==== Sys2Proof/Machine/Commands.lean ====
section
/-! DEFINITION. The host's commands (46_host_commands.md, 47_snapshot.md): each one atomic with a typed result (R242, R244). `STEP`
is `step`; `issue` is the step relation indexed by the command (00_scope.md R13; log 5). -/

namespace Sys2Proof.Machine

/-- The diagnostics report (46_host_commands.md R241): an immutable pair, its rendering left to a sink outside the core. -/
structure Diagnostics where
  instructionsExecuted : Word
  faultCount : Word
  deriving DecidableEq, Repr

/-- A command with its arguments (00_scope.md R12). Register indices are 5-bit values, addresses 64-bit values, a written value
has its accessor's width: 93_implementation_defined.md U1 and U5 cannot be formed. -/
inductive Command where
  | init (image : List Byte) (loadAddr : Word) (memSize : Nat)
  | start
  | step
  | get (r : RegIdx)
  | set (r : RegIdx) (v : Word)
  | getPc
  | setPc (v : Word)
  /-- READ8, READ16, READ32, READ64 by the width. -/
  | read (w : Width) (a : Word)
  /-- WRITE8, WRITE16, WRITE32, WRITE64 by the width. -/
  | write (w : Width) (a : Word) (v : BitVec w.bits)
  | getDiagnostics
  /-- SAVE_STATE with a caller's buffer of `cap` bytes (47_snapshot.md R262). -/
  | saveState (cap : Nat)
  | restoreState (S : Snapshot)
  deriving DecidableEq, Repr

/-- What a command returns (46_host_commands.md R244): `Ok` with its value, or one of the four kinds. -/
inductive Reply where
  | ok
  | event (e : Event)
  | value (v : Word)
  | data (w : Width) (v : BitVec w.bits)
  | report (d : Diagnostics)
  | snapshot (S : Snapshot)
  | err (f : Fault)
  deriving DecidableEq, Repr

/-- What a command gives: the state after it and its result, or a refusal for a contract violation (00_scope.md R11). -/
abbrev Issued := Host.Outcome (State × Reply) Fault Refusal

/-- The contract of INIT's arguments (46_host_commands.md R230). -/
abbrev InitContract (image : List Byte) (loadAddr : Word) (memSize : Nat) : Prop :=
  1 ≤ memSize ∧ loadAddr.toNat + memSize ≤ 2 ^ 64 ∧ image.length ≤ memSize

/-- The state after INIT, the reset values of 10_state.md R43. -/
def initState (image : List Byte) (loadAddr : Word) (memSize : Nat) : State where
  x := Vector.replicate 31 0
  pc := loadAddr
  mem := Memory.setBytes [] loadAddr.toNat image
  tag := .halted
  instret := 0
  faultCount := 0
  loadAddr := loadAddr
  memSize := memSize
  lastStep := none

/-- `INIT` (46_host_commands.md R230): needs no earlier state; a broken contract is refused (93_implementation_defined.md U3). -/
def cmdInit (image : List Byte) (loadAddr : Word) (memSize : Nat) : Issued :=
  if InitContract image loadAddr memSize then .next (initState image loadAddr memSize, .ok) else .refused .initContract

/-- `START` (46_host_commands.md R231, R232). -/
def cmdStart (s : State) : Issued :=
  if s.tag = .halted then .next ({ s with tag := .running }, .ok) else .next (s, .err .invalidState)

/-- The reply that a STEP's result is to the host. -/
def replyOfStep : Option StepResult → Reply
  | some (.ok e) => .event e
  | some (.err f) => .err f
  | none => .ok

/-- `STEP` (40_step_engine.md R110): `step`, whose result the host reads. -/
def cmdStep (s : State) : Issued :=
  match step s with
  | .next t => .next (t, replyOfStep t.lastStep)
  | .fault f => .fault f
  | .refused r => .refused r

/-- `GET(i)` (46_host_commands.md R233). -/
def cmdGet (r : RegIdx) (s : State) : Issued := .next (s, .value (s.getReg r))

/-- `SET(i, v)` (46_host_commands.md R234). -/
def cmdSet (r : RegIdx) (v : Word) (s : State) : Issued := .next (s.setReg r v, .ok)

/-- `GET_PC` (46_host_commands.md R235). -/
def cmdGetPc (s : State) : Issued := .next (s, .value s.pc)

/-- `SET_PC(v)` (46_host_commands.md R236): a value outside the region is refused (93_implementation_defined.md U2). -/
def cmdSetPc (v : Word) (s : State) : Issued :=
  if s.InRegion v.toNat then .next ({ s with pc := v }, .ok) else .refused .setPcContract

/-- `READn(a)` (46_host_commands.md R237); a failing one changes nothing (R239). -/
def cmdRead (w : Width) (a : Word) (s : State) : Issued :=
  match s.memRead a.toNat w with
  | .ok v => .next (s, .data w v)
  | .error f => .next (s, .err f)

/-- `WRITEn(a, v)` (46_host_commands.md R238); a failing one changes nothing (R239). -/
def cmdWrite (w : Width) (a : Word) (v : BitVec w.bits) (s : State) : Issued :=
  match s.memWrite a.toNat w (v.setWidth 64) with
  | .ok t => .next (t, .ok)
  | .error f => .next (s, .err f)

/-- `GET_DIAGNOSTICS` (46_host_commands.md R241). -/
def cmdGetDiagnostics (s : State) : Issued := .next (s, .report ⟨s.instret, s.faultCount⟩)

/-- `SAVE_STATE(buffer)` with a buffer of `cap` bytes (47_snapshot.md R262, R263). -/
def cmdSaveState (cap : Nat) (s : State) : Issued :=
  if s.memSize ≤ cap then .next (s, .snapshot s.capture) else .next (s, .err .snapshotMismatch)

/-- `RESTORE_STATE(S)` (47_snapshot.md R264, R265): two checks and no other (R267), in every tag (R269). -/
def cmdRestoreState (S : Snapshot) (s : State) : Issued :=
  if S.valid = true ∧ S.memSize = s.memSize then .next (s.restore S, .ok) else .next (s, .err .snapshotMismatch)

/-- One command (46_host_commands.md R245). -/
def issue (c : Command) (s : State) : Issued :=
  match c with
  | .init image loadAddr memSize => cmdInit image loadAddr memSize
  | .start => cmdStart s
  | .step => cmdStep s
  | .get r => cmdGet r s
  | .set r v => cmdSet r v s
  | .getPc => cmdGetPc s
  | .setPc v => cmdSetPc v s
  | .read w a => cmdRead w a s
  | .write w a v => cmdWrite w a v s
  | .getDiagnostics => cmdGetDiagnostics s
  | .saveState cap => cmdSaveState cap s
  | .restoreState S => cmdRestoreState S s

/-- A sequence of commands, each issued after the one before it has returned (00_scope.md R13): the last state and every result
in order. A refused command ends it. -/
def issueAll : List Command → State → Host.Outcome (State × List Reply) Fault Refusal
  | [], s => .next (s, [])
  | c :: cs, s =>
    match issue c s with
    | .next (t, r) =>
      match issueAll cs t with
      | .next (t', rs) => .next (t', r :: rs)
      | .fault f => .fault f
      | .refused e => .refused e
    | .fault f => .fault f
    | .refused e => .refused e

end Sys2Proof.Machine
end

