-- ==== Sys2Proof/Safety.lean ====
section
/-! DEFINITION. What the spec promises of every state and of a run: the invariants of 10_state.md R45, and the end of a run
(40_step_engine.md R123). -/

namespace Sys2Proof.Machine

/-- The configuration keeps INIT's contract: the region is not empty and does not wrap (20_memory.md R50). -/
abbrev State.ConfigOk (s : State) : Prop := 1 ≤ s.memSize ∧ s.loadAddr.toNat + s.memSize ≤ 2 ^ 64

/-- Memory is in canonical form and holds no byte outside the region (10_state.md R38, R39). -/
abbrev State.MemOk (s : State) : Prop :=
  s.mem.wf ∧ ∀ c ∈ s.mem, s.loadAddr.toNat ≤ c.1 ∧ c.1 < s.loadAddr.toNat + s.memSize

/-- The PC lies in the region while the tag is neither `faulted` nor `completed` (10_state.md R27). -/
abbrev State.PcOk (s : State) : Prop := s.tag = .halted ∨ s.tag = .running → s.InRegion s.pc.toNat

/-- The invariant of every state the core reaches (10_state.md R45, its clauses about one state). -/
abbrev State.Inv (s : State) : Prop := s.ConfigOk ∧ s.MemOk ∧ s.PcOk

/-- The run is over: the tag is `faulted` or `completed` (40_step_engine.md R123). -/
abbrev State.Ended (s : State) : Prop := s.tag = .faulted ∨ s.tag = .completed

/-- The tags a STEP may move between (60_exceptions.md R293, the three STEP rows). -/
def Tag.stepsTo : Tag → Tag → Bool
  | .running, .running => true
  | .running, .faulted => true
  | .running, .completed => true
  | .halted, .halted => true
  | .faulted, .faulted => true
  | .completed, .completed => true
  | _, _ => false

/-- The registers an instruction names in its `rd`, `rs1` or `rs2` field (10_state.md R23). -/
def namedRegs : Instr → List RegIdx
  | .lui rd _ | .auipc rd _ | .jal rd _ => [rd]
  | .jalr rd rs1 _ => [rd, rs1]
  | .beq rs1 rs2 _ | .bne rs1 rs2 _ | .blt rs1 rs2 _ | .bge rs1 rs2 _ | .bltu rs1 rs2 _ | .bgeu rs1 rs2 _ => [rs1, rs2]
  | .lb rd rs1 _ | .lh rd rs1 _ | .lw rd rs1 _ | .ld rd rs1 _ | .lbu rd rs1 _ | .lhu rd rs1 _ | .lwu rd rs1 _ => [rd, rs1]
  | .sb rs2 rs1 _ | .sh rs2 rs1 _ | .sw rs2 rs1 _ | .sd rs2 rs1 _ => [rs2, rs1]
  | .addi rd rs1 _ | .slti rd rs1 _ | .sltiu rd rs1 _ | .xori rd rs1 _ | .ori rd rs1 _ | .andi rd rs1 _ => [rd, rs1]
  | .slli rd rs1 _ | .srli rd rs1 _ | .srai rd rs1 _ => [rd, rs1]
  | .add rd rs1 rs2 | .sub rd rs1 rs2 | .sll rd rs1 rs2 | .slt rd rs1 rs2 | .sltu rd rs1 rs2 => [rd, rs1, rs2]
  | .xor rd rs1 rs2 | .srl rd rs1 rs2 | .sra rd rs1 rs2 | .or rd rs1 rs2 | .and rd rs1 rs2 => [rd, rs1, rs2]
  | .addiw rd rs1 _ | .slliw rd rs1 _ | .srliw rd rs1 _ | .sraiw rd rs1 _ => [rd, rs1]
  | .addw rd rs1 rs2 | .subw rd rs1 rs2 | .sllw rd rs1 rs2 | .srlw rd rs1 rs2 | .sraw rd rs1 rs2 => [rd, rs1, rs2]
  | .fence _ rs1 rd => [rs1, rd]
  | .ecall | .ebreak => []

end Sys2Proof.Machine
end

