-- ==== Sys2Proof/Certificates/Slice0/Obligations.lean ====
section
/-! DEFINITION. The statements for the provers. The helper predicates come first: what a retiring instruction leaves, what fault
entry leaves, and how a row of the opcode table reads a word. They are written from the rules, with the integer formulas of
00_scope.md R6 and R7 where the spec gives one. -/

namespace Sys2Proof.Machine

/-! ## Helper predicates -/

/-- A counter one up, saturating at `2^64 - 1` (10_state.md R33). -/
def OneUp (before after : Word) : Prop := after.toNat = min (before.toNat + 1) (2 ^ 64 - 1)

/-- Every register reads as before. -/
def SameRegs (s t : State) : Prop := ∀ r, t.getReg r = s.getReg r

/-- Every byte of memory reads as before. -/
def SameBytes (s t : State) : Prop := ∀ a, t.mem.get a = s.mem.get a

/-- The configuration is as before (10_state.md R35). -/
def SameConfig (s t : State) : Prop := t.loadAddr = s.loadAddr ∧ t.memSize = s.memSize

/-- Register `rd` reads `v`, or zero if it is register 0 (10_state.md R22); every other register reads as before. -/
def WritesReg (s t : State) (rd : RegIdx) (v : Word) : Prop :=
  t.getReg rd = (if rd = 0 then 0 else v) ∧ ∀ r, r ≠ rd → t.getReg r = s.getReg r

/-- What every commit does (40_step_engine.md R118 (c), (d), (f)): `pc <- trunc_64(npc)`, `instret` one up, the event reported; the
fault count and the configuration as before. (The event is read in the model's own field `lastStep`, log 6.) -/
def Retires (s t : State) (e : Event) (npc : Int) : Prop :=
  t.pc = BitVec.ofInt 64 npc ∧ OneUp s.instret t.instret ∧ t.faultCount = s.faultCount ∧ SameConfig s t ∧
    t.lastStep = some (.ok e)

/-- Fault entry (60_exceptions.md R286): the tag, the fault count and the reported kind; nothing else changes. -/
def FaultsWith (s t : State) (f : Fault) : Prop :=
  t.tag = .faulted ∧ OneUp s.faultCount t.faultCount ∧ t.lastStep = some (.err f) ∧
    SameRegs s t ∧ t.pc = s.pc ∧ SameBytes s t ∧ t.instret = s.instret ∧ SameConfig s t

/-- The next sequential address as an integer, `u(pc) + 4` (10_state.md R26). -/
abbrev nextPc (s : State) : Int := (s.pc.toNat : Int) + 4

/-- A computational instruction: it writes `v` to `rd`, no other register and no byte, and goes on at `u(pc) + 4` if that lies in
the region; if not it takes a MemoryFault and `rd` is not written (41_integer_computational.md R154). As in every predicate below
the core is running, the precondition of STEP (40_step_engine.md R110). -/
def Computes (i : Instr) (rd : RegIdx) (v : State → Word) : Prop :=
  ∀ s : State, s.tag = .running →
    (s.InRegion (nextPc s) → ∃ t, exec i s = .next t ∧ Retires s t .retired (nextPc s) ∧ t.tag = s.tag ∧
      WritesReg s t rd (v s) ∧ SameBytes s t) ∧
    (¬ s.InRegion (nextPc s) → ∃ t, exec i s = .next t ∧ FaultsWith s t .memoryFault)

/-- An instruction that jumps to `target`, an unbounded integer, and links: in the region it goes there and `rd` takes
`trunc_64(u(pc) + 4)`; outside it takes a MemoryFault and `rd` is not written (43_control_transfer.md R180, R190). -/
def JumpsTo (i : Instr) (rd : RegIdx) (target : State → Int) : Prop :=
  ∀ s : State, s.tag = .running →
    (s.InRegion (target s) → ∃ t, exec i s = .next t ∧ Retires s t .retired (target s) ∧ t.tag = s.tag ∧
      WritesReg s t rd (BitVec.ofInt 64 (nextPc s)) ∧ SameBytes s t) ∧
    (¬ s.InRegion (target s) → ∃ t, exec i s = .next t ∧ FaultsWith s t .memoryFault)

/-- A conditional branch: its next address is `u(pc) + s(imm)` if the condition holds and `u(pc) + 4` if not; the one it takes is
checked, the other is not computed; nothing else is written (43_control_transfer.md, section 3). -/
def BranchesIf (i : Instr) (imm : Word) (cond : State → Prop) : Prop :=
  ∀ s : State, s.tag = .running → ∀ npc : Int,
    ((cond s → npc = s.pc.toNat + imm.toInt) ∧ (¬ cond s → npc = nextPc s)) →
    (s.InRegion npc → ∃ t, exec i s = .next t ∧ Retires s t .retired npc ∧ t.tag = s.tag ∧ SameRegs s t ∧ SameBytes s t) ∧
    (¬ s.InRegion npc → ∃ t, exec i s = .next t ∧ FaultsWith s t .memoryFault)

/-- The effective address `u(x[rs1]) + s(imm)` over the integers (44_load_store.md R200). -/
abbrev ea (s : State) (rs1 : RegIdx) (imm : Word) : Int := ((s.getReg rs1).toNat : Int) + imm.toInt

/-- Byte `k` from the effective address up. -/
abbrev byteAt (s : State) (rs1 : RegIdx) (imm : Word) (k : Nat) : Byte := s.mem.get ((ea s rs1 imm).toNat + k)

/-- A load of `n` bytes: if the whole access is in bounds (and the next address lies in the region) it writes `v` to `rd`, no other
register and no byte; if not, it takes a MemoryFault (44_load_store.md R208, R214). -/
def Loads (i : Instr) (rd rs1 : RegIdx) (imm : Word) (n : Nat) (v : State → Word) : Prop :=
  ∀ s : State, s.tag = .running →
    (s.InBounds (ea s rs1 imm) n → s.InRegion (nextPc s) → ∃ t, exec i s = .next t ∧ Retires s t .retired (nextPc s) ∧
      t.tag = s.tag ∧ WritesReg s t rd (v s) ∧ SameBytes s t) ∧
    (¬ (s.InBounds (ea s rs1 imm) n ∧ s.InRegion (nextPc s)) → ∃ t, exec i s = .next t ∧ FaultsWith s t .memoryFault)

/-- A store of `n` bytes, over a memory in canonical form: if the whole access is in bounds (and the next address lies in the
region) byte `k` from the effective address up becomes bits `8k+7` to `8k` of `x[rs2]`, every other byte and every register is as
before; if not, it takes a MemoryFault and no byte changes (20_memory.md R55, 44_load_store.md R213). -/
def Stores (i : Instr) (rs2 rs1 : RegIdx) (imm : Word) (n : Nat) : Prop :=
  ∀ s : State, s.tag = .running → s.mem.wf →
    (s.InBounds (ea s rs1 imm) n → s.InRegion (nextPc s) → ∃ t, exec i s = .next t ∧ Retires s t .retired (nextPc s) ∧
      t.tag = s.tag ∧ SameRegs s t ∧
      (∀ k, k < n → t.mem.get ((ea s rs1 imm).toNat + k) = (s.getReg rs2).extractLsb' (8 * k) 8) ∧
      (∀ a : Nat, (a : Int) < ea s rs1 imm ∨ ea s rs1 imm + n ≤ a → t.mem.get a = s.mem.get a)) ∧
    (¬ (s.InBounds (ea s rs1 imm) n ∧ s.InRegion (nextPc s)) → ∃ t, exec i s = .next t ∧ FaultsWith s t .memoryFault)

/-- Every word of a row of the opcode table (mask and match of 30_encoding.md R94) decodes to the instruction `build` reads from it. -/
def RowDecodes (mask pat : InstrWord) (build : InstrWord → Instr) : Prop :=
  ∀ w : InstrWord, w &&& mask = pat → decodeWord w = .ok (build w)

/-- `immI` (30_encoding.md R88). -/
abbrev fieldI (w : InstrWord) : Word := (w.extractLsb' 20 12).signExtend 64

/-- `immS` (30_encoding.md R89). -/
abbrev fieldS (w : InstrWord) : Word := (w.extractLsb' 25 7 ++ w.extractLsb' 7 5).signExtend 64

/-- `immB` (30_encoding.md R90). -/
abbrev fieldB (w : InstrWord) : Word :=
  (w.extractLsb' 31 1 ++ w.extractLsb' 7 1 ++ w.extractLsb' 25 6 ++ w.extractLsb' 8 4 ++ 0#1).signExtend 64

/-- `immU` (30_encoding.md R91). -/
abbrev fieldU (w : InstrWord) : Word := (w.extractLsb' 12 20 ++ 0#12).signExtend 64

/-- `immJ` (30_encoding.md R92). -/
abbrev fieldJ (w : InstrWord) : Word :=
  (w.extractLsb' 31 1 ++ w.extractLsb' 12 8 ++ w.extractLsb' 20 1 ++ w.extractLsb' 21 10 ++ 0#1).signExtend 64

/-- The fields `rd`, `rs1`, `rs2` (30_encoding.md R81). -/
abbrev fieldRd (w : InstrWord) : RegIdx := w.extractLsb' 7 5
abbrev fieldRs1 (w : InstrWord) : RegIdx := w.extractLsb' 15 5
abbrev fieldRs2 (w : InstrWord) : RegIdx := w.extractLsb' 20 5

/-- The low 32 bits of a register, and a 32-bit value sign-extended (42_integer_word.md R160). -/
abbrev lowWord (s : State) (r : RegIdx) : BitVec 32 := (s.getReg r).extractLsb' 0 32
abbrev sextWord (v : BitVec 32) : Word := v.signExtend 64

/-- The state of the core without its counters and without what was last reported to the host. -/
def SameMachine (s t : State) : Prop :=
  t.x = s.x ∧ t.pc = s.pc ∧ t.mem = s.mem ∧ t.tag = s.tag ∧ SameConfig s t

/-- The command is INIT. -/
def isInit : Command → Bool
  | .init _ _ _ => true
  | _ => false

/-- The command is RESTORE_STATE. -/
def isRestore : Command → Bool
  | .restoreState _ => true
  | _ => false

/-- How many of the commands issued were a STEP that did not return InvalidState. -/
def stepsTaken (cs : List Command) (rs : List Reply) : Nat :=
  ((cs.zip rs).filter fun p => decide (p.1 = .step) && decide (p.2 ≠ .err .invalidState)).length

/-- How many of the commands issued were a successful RESTORE_STATE. -/
def restoresDone (cs : List Command) (rs : List Reply) : Nat :=
  ((cs.zip rs).filter fun p => isRestore p.1 && decide (p.2 = .ok)).length

end Sys2Proof.Machine

open Sys2Proof Sys2Proof.Machine

/-- LUI writes immU and AUIPC writes pc +64 immU. (R133, R134; the spec's own decision D3) -/
def Obligations.UpperImmediatesWriteConstantAndPcSum : Prop :=
  RowDecodes 0x0000007f 0x00000037 (fun w => .lui (fieldRd w) (fieldU w)) ∧
  RowDecodes 0x0000007f 0x00000017 (fun w => .auipc (fieldRd w) (fieldU w)) ∧
  (∀ rd imm, Computes (.lui rd imm) rd fun _ => imm) ∧
  (∀ rd imm, Computes (.auipc rd imm) rd fun s => BitVec.ofNat 64 (s.pc.toNat + imm.toNat))

/-- ADDI, XORI, ORI and ANDI write their wrapped or bitwise result. (R135, R138, R139, R140; the spec's own decisions D3, D8)
-/
def Obligations.ImmediateArithmeticAndLogic : Prop :=
  RowDecodes 0x0000707f 0x00000013 (fun w => .addi (fieldRd w) (fieldRs1 w) (fieldI w)) ∧
  RowDecodes 0x0000707f 0x00004013 (fun w => .xori (fieldRd w) (fieldRs1 w) (fieldI w)) ∧
  RowDecodes 0x0000707f 0x00006013 (fun w => .ori (fieldRd w) (fieldRs1 w) (fieldI w)) ∧
  RowDecodes 0x0000707f 0x00007013 (fun w => .andi (fieldRd w) (fieldRs1 w) (fieldI w)) ∧
  (∀ rd rs1 imm, Computes (.addi rd rs1 imm) rd fun s => BitVec.ofInt 64 ((s.getReg rs1).toNat + imm.toInt)) ∧
  (∀ rd rs1 imm, Computes (.xori rd rs1 imm) rd fun s => s.getReg rs1 ^^^ imm) ∧
  (∀ rd rs1 imm, Computes (.ori rd rs1 imm) rd fun s => s.getReg rs1 ||| imm) ∧
  (∀ rd rs1 imm, Computes (.andi rd rs1 imm) rd fun s => s.getReg rs1 &&& imm)

/-- SLTI compares signed and SLTIU compares unsigned, writing 1 or 0. (R136, R137; the spec's own decision D3) -/
def Obligations.ImmediateComparisons : Prop :=
  RowDecodes 0x0000707f 0x00002013 (fun w => .slti (fieldRd w) (fieldRs1 w) (fieldI w)) ∧
  RowDecodes 0x0000707f 0x00003013 (fun w => .sltiu (fieldRd w) (fieldRs1 w) (fieldI w)) ∧
  (∀ rd rs1 imm, Computes (.slti rd rs1 imm) rd fun s => if (s.getReg rs1).toInt < imm.toInt then 1 else 0) ∧
  (∀ rd rs1 imm, Computes (.sltiu rd rs1 imm) rd fun s => if (s.getReg rs1).toNat < imm.toNat then 1 else 0)

/-- SLLI, SRLI and SRAI shift by the 6-bit amount; a set function bit above it is illegal. (R141, R142, R143; the spec's own
decision D3) -/
def Obligations.ImmediateShifts : Prop :=
  RowDecodes 0xfc00707f 0x00001013 (fun w => .slli (fieldRd w) (fieldRs1 w) (w.extractLsb' 20 6)) ∧
  RowDecodes 0xfc00707f 0x00005013 (fun w => .srli (fieldRd w) (fieldRs1 w) (w.extractLsb' 20 6)) ∧
  RowDecodes 0xfc00707f 0x40005013 (fun w => .srai (fieldRd w) (fieldRs1 w) (w.extractLsb' 20 6)) ∧
  (∀ w : InstrWord, w &&& 0x0000707f = 0x00001013 → w.extractLsb' 26 6 ≠ 0 → decodeWord w = .error .illegal) ∧
  (∀ w : InstrWord, w &&& 0x0000707f = 0x00005013 → w.extractLsb' 26 6 ≠ 0 → w.extractLsb' 26 6 ≠ 0b010000 →
    decodeWord w = .error .illegal) ∧
  (∀ rd rs1 shamt, Computes (.slli rd rs1 shamt) rd fun s => BitVec.ofNat 64 ((s.getReg rs1).toNat * 2 ^ shamt.toNat)) ∧
  (∀ rd rs1 shamt, Computes (.srli rd rs1 shamt) rd fun s => BitVec.ofNat 64 ((s.getReg rs1).toNat / 2 ^ shamt.toNat)) ∧
  (∀ rd rs1 shamt, Computes (.srai rd rs1 shamt) rd fun s => BitVec.ofInt 64 ((s.getReg rs1).toInt / 2 ^ shamt.toNat))

/-- ADD, SUB, XOR, OR and AND write their wrapped or bitwise result. (R144, R145, R149, R152, R153; the spec's own decision
D3) -/
def Obligations.RegisterArithmeticAndLogic : Prop :=
  RowDecodes 0xfe00707f 0x00000033 (fun w => .add (fieldRd w) (fieldRs1 w) (fieldRs2 w)) ∧
  RowDecodes 0xfe00707f 0x40000033 (fun w => .sub (fieldRd w) (fieldRs1 w) (fieldRs2 w)) ∧
  RowDecodes 0xfe00707f 0x00004033 (fun w => .xor (fieldRd w) (fieldRs1 w) (fieldRs2 w)) ∧
  RowDecodes 0xfe00707f 0x00006033 (fun w => .or (fieldRd w) (fieldRs1 w) (fieldRs2 w)) ∧
  RowDecodes 0xfe00707f 0x00007033 (fun w => .and (fieldRd w) (fieldRs1 w) (fieldRs2 w)) ∧
  (∀ rd rs1 rs2, Computes (.add rd rs1 rs2) rd fun s => BitVec.ofNat 64 ((s.getReg rs1).toNat + (s.getReg rs2).toNat)) ∧
  (∀ rd rs1 rs2, Computes (.sub rd rs1 rs2) rd fun s => BitVec.ofInt 64 ((s.getReg rs1).toNat - (s.getReg rs2).toNat)) ∧
  (∀ rd rs1 rs2, Computes (.xor rd rs1 rs2) rd fun s => s.getReg rs1 ^^^ s.getReg rs2) ∧
  (∀ rd rs1 rs2, Computes (.or rd rs1 rs2) rd fun s => s.getReg rs1 ||| s.getReg rs2) ∧
  (∀ rd rs1 rs2, Computes (.and rd rs1 rs2) rd fun s => s.getReg rs1 &&& s.getReg rs2)

/-- SLT compares signed and SLTU compares unsigned, writing 1 or 0. (R147, R148; the spec's own decision D3) -/
def Obligations.RegisterComparisons : Prop :=
  RowDecodes 0xfe00707f 0x00002033 (fun w => .slt (fieldRd w) (fieldRs1 w) (fieldRs2 w)) ∧
  RowDecodes 0xfe00707f 0x00003033 (fun w => .sltu (fieldRd w) (fieldRs1 w) (fieldRs2 w)) ∧
  (∀ rd rs1 rs2, Computes (.slt rd rs1 rs2) rd fun s => if (s.getReg rs1).toInt < (s.getReg rs2).toInt then 1 else 0) ∧
  (∀ rd rs1 rs2, Computes (.sltu rd rs1 rs2) rd fun s => if (s.getReg rs1).toNat < (s.getReg rs2).toNat then 1 else 0)

/-- SLL, SRL and SRA shift by the low six bits of x[rs2]. (R146, R150, R151; the spec's own decision D3) -/
def Obligations.RegisterShiftsUseSixBits : Prop :=
  RowDecodes 0xfe00707f 0x00001033 (fun w => .sll (fieldRd w) (fieldRs1 w) (fieldRs2 w)) ∧
  RowDecodes 0xfe00707f 0x00005033 (fun w => .srl (fieldRd w) (fieldRs1 w) (fieldRs2 w)) ∧
  RowDecodes 0xfe00707f 0x40005033 (fun w => .sra (fieldRd w) (fieldRs1 w) (fieldRs2 w)) ∧
  (∀ rd rs1 rs2, Computes (.sll rd rs1 rs2) rd fun s => BitVec.ofNat 64 ((s.getReg rs1).toNat * 2 ^ ((s.getReg rs2).toNat % 64))) ∧
  (∀ rd rs1 rs2, Computes (.srl rd rs1 rs2) rd fun s => BitVec.ofNat 64 ((s.getReg rs1).toNat / 2 ^ ((s.getReg rs2).toNat % 64))) ∧
  (∀ rd rs1 rs2, Computes (.sra rd rs1 rs2) rd fun s => BitVec.ofInt 64 ((s.getReg rs1).toInt / 2 ^ ((s.getReg rs2).toNat % 64)))

/-- ADDIW, SLLIW, SRLIW and SRAIW compute on the low word and sign-extend. (R161, R162, R163, R164; the spec's own decision
D3) -/
def Obligations.WordImmediates : Prop :=
  RowDecodes 0x0000707f 0x0000001b (fun w => .addiw (fieldRd w) (fieldRs1 w) (fieldI w)) ∧
  RowDecodes 0xfe00707f 0x0000101b (fun w => .slliw (fieldRd w) (fieldRs1 w) (w.extractLsb' 20 5)) ∧
  RowDecodes 0xfe00707f 0x0000501b (fun w => .srliw (fieldRd w) (fieldRs1 w) (w.extractLsb' 20 5)) ∧
  RowDecodes 0xfe00707f 0x4000501b (fun w => .sraiw (fieldRd w) (fieldRs1 w) (w.extractLsb' 20 5)) ∧
  (∀ w : InstrWord, w &&& 0x0000707f = 0x0000101b → w.extractLsb' 25 7 ≠ 0 → decodeWord w = .error .illegal) ∧
  (∀ w : InstrWord, w &&& 0x0000707f = 0x0000501b → w.extractLsb' 25 7 ≠ 0 → w.extractLsb' 25 7 ≠ 0b0100000 →
    decodeWord w = .error .illegal) ∧
  (∀ rd rs1 imm, Computes (.addiw rd rs1 imm) rd fun s => sextWord (BitVec.ofInt 32 ((s.getReg rs1).toNat + imm.toInt))) ∧
  (∀ rd rs1 shamt, Computes (.slliw rd rs1 shamt) rd fun s => sextWord (BitVec.ofNat 32 ((lowWord s rs1).toNat * 2 ^ shamt.toNat))) ∧
  (∀ rd rs1 shamt, Computes (.srliw rd rs1 shamt) rd fun s => sextWord (BitVec.ofNat 32 ((lowWord s rs1).toNat / 2 ^ shamt.toNat))) ∧
  (∀ rd rs1 shamt, Computes (.sraiw rd rs1 shamt) rd fun s => sextWord (BitVec.ofInt 32 ((lowWord s rs1).toInt / 2 ^ shamt.toNat)))

/-- ADDW, SUBW, SLLW, SRLW and SRAW compute on the low words and sign-extend. (R165, R166, R167, R168, R169; the spec's own
decision D3) -/
def Obligations.WordRegisters : Prop :=
  RowDecodes 0xfe00707f 0x0000003b (fun w => .addw (fieldRd w) (fieldRs1 w) (fieldRs2 w)) ∧
  RowDecodes 0xfe00707f 0x4000003b (fun w => .subw (fieldRd w) (fieldRs1 w) (fieldRs2 w)) ∧
  RowDecodes 0xfe00707f 0x0000103b (fun w => .sllw (fieldRd w) (fieldRs1 w) (fieldRs2 w)) ∧
  RowDecodes 0xfe00707f 0x0000503b (fun w => .srlw (fieldRd w) (fieldRs1 w) (fieldRs2 w)) ∧
  RowDecodes 0xfe00707f 0x4000503b (fun w => .sraw (fieldRd w) (fieldRs1 w) (fieldRs2 w)) ∧
  (∀ rd rs1 rs2, Computes (.addw rd rs1 rs2) rd fun s => sextWord (BitVec.ofNat 32 ((s.getReg rs1).toNat + (s.getReg rs2).toNat))) ∧
  (∀ rd rs1 rs2, Computes (.subw rd rs1 rs2) rd fun s => sextWord (BitVec.ofInt 32 ((s.getReg rs1).toNat - (s.getReg rs2).toNat))) ∧
  (∀ rd rs1 rs2, Computes (.sllw rd rs1 rs2) rd fun s => sextWord (BitVec.ofNat 32 ((lowWord s rs1).toNat * 2 ^ ((s.getReg rs2).toNat % 32)))) ∧
  (∀ rd rs1 rs2, Computes (.srlw rd rs1 rs2) rd fun s => sextWord (BitVec.ofNat 32 ((lowWord s rs1).toNat / 2 ^ ((s.getReg rs2).toNat % 32)))) ∧
  (∀ rd rs1 rs2, Computes (.sraw rd rs1 rs2) rd fun s => sextWord (BitVec.ofInt 32 ((lowWord s rs1).toInt / 2 ^ ((s.getReg rs2).toNat % 32))))

/-- JAL and JALR link pc + 4 and go to their integer target, or fault without linking. (R181, R182; the spec's own decision
D3) -/
def Obligations.JumpsLinkAndCheckTheirTarget : Prop :=
  RowDecodes 0x0000007f 0x0000006f (fun w => .jal (fieldRd w) (fieldJ w)) ∧
  RowDecodes 0x0000707f 0x00000067 (fun w => .jalr (fieldRd w) (fieldRs1 w) (fieldI w)) ∧
  (∀ rd imm, JumpsTo (.jal rd imm) rd fun s => s.pc.toNat + imm.toInt) ∧
  (∀ rd rs1 imm, JumpsTo (.jalr rd rs1 imm) rd fun s => ea s rs1 imm - ea s rs1 imm % 2)

/-- The six branches go to pc + immB exactly when their condition holds. (R184, R185, R186, R187, R188, R189; the spec's own
decision D3) -/
def Obligations.BranchesFollowTheirCondition : Prop :=
  RowDecodes 0x0000707f 0x00000063 (fun w => .beq (fieldRs1 w) (fieldRs2 w) (fieldB w)) ∧
  RowDecodes 0x0000707f 0x00001063 (fun w => .bne (fieldRs1 w) (fieldRs2 w) (fieldB w)) ∧
  RowDecodes 0x0000707f 0x00004063 (fun w => .blt (fieldRs1 w) (fieldRs2 w) (fieldB w)) ∧
  RowDecodes 0x0000707f 0x00005063 (fun w => .bge (fieldRs1 w) (fieldRs2 w) (fieldB w)) ∧
  RowDecodes 0x0000707f 0x00006063 (fun w => .bltu (fieldRs1 w) (fieldRs2 w) (fieldB w)) ∧
  RowDecodes 0x0000707f 0x00007063 (fun w => .bgeu (fieldRs1 w) (fieldRs2 w) (fieldB w)) ∧
  (∀ rs1 rs2 imm, BranchesIf (.beq rs1 rs2 imm) imm fun s => s.getReg rs1 = s.getReg rs2) ∧
  (∀ rs1 rs2 imm, BranchesIf (.bne rs1 rs2 imm) imm fun s => s.getReg rs1 ≠ s.getReg rs2) ∧
  (∀ rs1 rs2 imm, BranchesIf (.blt rs1 rs2 imm) imm fun s => (s.getReg rs1).toInt < (s.getReg rs2).toInt) ∧
  (∀ rs1 rs2 imm, BranchesIf (.bge rs1 rs2 imm) imm fun s => (s.getReg rs1).toInt ≥ (s.getReg rs2).toInt) ∧
  (∀ rs1 rs2 imm, BranchesIf (.bltu rs1 rs2 imm) imm fun s => (s.getReg rs1).toNat < (s.getReg rs2).toNat) ∧
  (∀ rs1 rs2 imm, BranchesIf (.bgeu rs1 rs2 imm) imm fun s => (s.getReg rs1).toNat ≥ (s.getReg rs2).toNat)

/-- The seven loads read their bytes little-endian and extend them. (R201, R202, R203, R204, R205, R206, R207; the spec's own
decision D3) -/
def Obligations.LoadsReadLittleEndianAndExtend : Prop :=
  RowDecodes 0x0000707f 0x00000003 (fun w => .lb (fieldRd w) (fieldRs1 w) (fieldI w)) ∧
  RowDecodes 0x0000707f 0x00001003 (fun w => .lh (fieldRd w) (fieldRs1 w) (fieldI w)) ∧
  RowDecodes 0x0000707f 0x00002003 (fun w => .lw (fieldRd w) (fieldRs1 w) (fieldI w)) ∧
  RowDecodes 0x0000707f 0x00003003 (fun w => .ld (fieldRd w) (fieldRs1 w) (fieldI w)) ∧
  RowDecodes 0x0000707f 0x00004003 (fun w => .lbu (fieldRd w) (fieldRs1 w) (fieldI w)) ∧
  RowDecodes 0x0000707f 0x00005003 (fun w => .lhu (fieldRd w) (fieldRs1 w) (fieldI w)) ∧
  RowDecodes 0x0000707f 0x00006003 (fun w => .lwu (fieldRd w) (fieldRs1 w) (fieldI w)) ∧
  (∀ rd rs1 imm, Loads (.lb rd rs1 imm) rd rs1 imm 1 fun s =>
    (byteAt s rs1 imm 0).signExtend 64) ∧
  (∀ rd rs1 imm, Loads (.lh rd rs1 imm) rd rs1 imm 2 fun s =>
    ((byteAt s rs1 imm 1 ++ byteAt s rs1 imm 0)).signExtend 64) ∧
  (∀ rd rs1 imm, Loads (.lw rd rs1 imm) rd rs1 imm 4 fun s =>
    ((byteAt s rs1 imm 3 ++ byteAt s rs1 imm 2 ++ byteAt s rs1 imm 1 ++ byteAt s rs1 imm 0)).signExtend 64) ∧
  (∀ rd rs1 imm, Loads (.ld rd rs1 imm) rd rs1 imm 8 fun s =>
    (byteAt s rs1 imm 7 ++ byteAt s rs1 imm 6 ++ byteAt s rs1 imm 5 ++ byteAt s rs1 imm 4 ++ byteAt s rs1 imm 3 ++ byteAt s rs1 imm 2 ++ byteAt s rs1 imm 1 ++ byteAt s rs1 imm 0)) ∧
  (∀ rd rs1 imm, Loads (.lbu rd rs1 imm) rd rs1 imm 1 fun s =>
    (byteAt s rs1 imm 0).setWidth 64) ∧
  (∀ rd rs1 imm, Loads (.lhu rd rs1 imm) rd rs1 imm 2 fun s =>
    ((byteAt s rs1 imm 1 ++ byteAt s rs1 imm 0)).setWidth 64) ∧
  (∀ rd rs1 imm, Loads (.lwu rd rs1 imm) rd rs1 imm 4 fun s =>
    ((byteAt s rs1 imm 3 ++ byteAt s rs1 imm 2 ++ byteAt s rs1 imm 1 ++ byteAt s rs1 imm 0)).setWidth 64)

/-- The four stores write the low bytes of x[rs2] at ea and nothing else. (R209, R210, R211, R212; the spec's own decision D3)
-/
def Obligations.StoresWriteTheirBytesOnly : Prop :=
  RowDecodes 0x0000707f 0x00000023 (fun w => .sb (fieldRs2 w) (fieldRs1 w) (fieldS w)) ∧
  RowDecodes 0x0000707f 0x00001023 (fun w => .sh (fieldRs2 w) (fieldRs1 w) (fieldS w)) ∧
  RowDecodes 0x0000707f 0x00002023 (fun w => .sw (fieldRs2 w) (fieldRs1 w) (fieldS w)) ∧
  RowDecodes 0x0000707f 0x00003023 (fun w => .sd (fieldRs2 w) (fieldRs1 w) (fieldS w)) ∧
  (∀ rs2 rs1 imm, Stores (.sb rs2 rs1 imm) rs2 rs1 imm 1) ∧
  (∀ rs2 rs1 imm, Stores (.sh rs2 rs1 imm) rs2 rs1 imm 2) ∧
  (∀ rs2 rs1 imm, Stores (.sw rs2 rs1 imm) rs2 rs1 imm 4) ∧
  (∀ rs2 rs1 imm, Stores (.sd rs2 rs1 imm) rs2 rs1 imm 8)

/-- FENCE retires with no effect but the pc and the instruction count, whatever its fields. (R98, R220; the spec's own
decision D13) FENCE carries the fields it ignores (log 8). -/
def Obligations.FenceChangesNothingButPc : Prop :=
  RowDecodes 0x0000707f 0x0000000f (fun w => .fence (w.extractLsb' 20 12) (fieldRs1 w) (fieldRd w)) ∧
  (∀ w : InstrWord, w.extractLsb' 0 7 = 0b0001111#7 → w.extractLsb' 12 3 ≠ 0b000#3 → decodeWord w = .error .illegal) ∧
  ∀ f rs1 rd, ∀ s : State, s.tag = .running →
    (s.InRegion (nextPc s) → ∃ t, exec (.fence f rs1 rd) s = .next t ∧ Retires s t .retired (nextPc s) ∧ t.tag = s.tag ∧
      SameRegs s t ∧ SameBytes s t) ∧
    (¬ s.InRegion (nextPc s) → ∃ t, exec (.fence f rs1 rd) s = .next t ∧ FaultsWith s t .memoryFault)

/-- ECALL reports EnvCall and completes the run exactly when ENV_TERMINATES says so. (R221; the spec's own decision D11) The
verdict is an open function of the configuration (log 7). -/
def Obligations.EcallReportsAndMayComplete : Prop :=
  (∀ w : InstrWord, decodeWord w = .ok .ecall ↔ w = 0x00000073) ∧
  ∀ s : State, s.tag = .running →
    (s.InRegion (nextPc s) → ∃ t, exec .ecall s = .next t ∧ Retires s t .envCall (nextPc s) ∧
      t.tag = (if Config.envTerminates s.x s.pc s.loadAddr s.memSize s.mem = true then .completed else s.tag) ∧
      SameRegs s t ∧ SameBytes s t) ∧
    (¬ s.InRegion (nextPc s) → ∃ t, exec .ecall s = .next t ∧ FaultsWith s t .memoryFault)

/-- EBREAK reports Breakpoint, goes on, and never terminates. (R222; the spec's own decision D12) -/
def Obligations.EbreakReportsAndGoesOn : Prop :=
  (∀ w : InstrWord, decodeWord w = .ok .ebreak ↔ w = 0x00100073) ∧
  ∀ s : State, s.tag = .running →
    (s.InRegion (nextPc s) → ∃ t, exec .ebreak s = .next t ∧ Retires s t .breakpoint (nextPc s) ∧ t.tag = s.tag ∧
      SameRegs s t ∧ SameBytes s t) ∧
    (¬ s.InRegion (nextPc s) → ∃ t, exec .ebreak s = .next t ∧ FaultsWith s t .memoryFault)

/-- A step runs the instruction its pc holds. (R112, R113, R114, R115; the spec's own decision D20; in part or whole an
inference the spec marks as its own: R113) -/
def Obligations.StepRunsTheDecodedInstruction : Prop :=
  ∀ (s : State) (i : Instr), s.tag = .running → s.InBounds s.pc.toNat 4 →
    decodeWord (s.mem.get (s.pc.toNat + 3) ++ s.mem.get (s.pc.toNat + 2) ++ s.mem.get (s.pc.toNat + 1) ++
      s.mem.get s.pc.toNat) = .ok i →
    step s = exec i s

/-- STEP outside running returns InvalidState and changes nothing. (R111) -/
def Obligations.StepGuardHasNoSideEffects : Prop :=
  ∀ s : State, s.tag ≠ .running → ∃ t, step s = .next t ∧ t.lastStep = some (.err .invalidState) ∧
    t.x = s.x ∧ t.pc = s.pc ∧ t.mem = s.mem ∧ t.tag = s.tag ∧ t.instret = s.instret ∧ t.faultCount = s.faultCount ∧
    SameConfig s t

/-- A fetch that does not lie whole in the region takes a MemoryFault. (R113; in part or whole an inference the spec marks as
its own: R113) -/
def Obligations.FetchOutOfBoundsIsMemoryFault : Prop :=
  ∀ s : State, s.tag = .running →
    (¬ s.InBounds s.pc.toNat 4 → ∃ t, step s = .next t ∧ FaultsWith s t .memoryFault) ∧
    (s.InRegion s.pc.toNat → (¬ s.InBounds s.pc.toNat 4 ↔ s.pc.toNat + 4 > s.loadAddr.toNat + s.memSize)) ∧
    (s.InBounds s.pc.toNat 4 → ∃ w, s.fetch = .ok w ∧ w = s.mem.get (s.pc.toNat + 3) ++ s.mem.get (s.pc.toNat + 2) ++
      s.mem.get (s.pc.toNat + 1) ++ s.mem.get s.pc.toNat)

/-- STEP takes IllegalInstruction exactly when the fetched word matches no row. (R95, R114, R282) -/
def Obligations.IllegalWordFaults : Prop :=
  ∀ s : State, s.tag = .running → ∃ t, step s = .next t ∧
    (t.lastStep = some (.err .illegalInstruction) ↔ s.InBounds s.pc.toNat 4 ∧
      ∀ r ∈ opcodeTable, (s.mem.get (s.pc.toNat + 3) ++ s.mem.get (s.pc.toNat + 2) ++ s.mem.get (s.pc.toNat + 1) ++
        s.mem.get s.pc.toNat) &&& r.mask ≠ r.pat) ∧
    (t.lastStep = some (.err .illegalInstruction) → FaultsWith s t .illegalInstruction)

/-- STEP returns from every state, and the command STEP returns the state and the result of step.
(93_implementation_defined.md Part 1, R110, R111) -/
def Obligations.StepAlwaysReturns : Prop :=
  ∀ s : State, ∃ t r, step s = .next t ∧ t.lastStep = some r ∧ (r = .err .invalidState ↔ s.tag ≠ .running) ∧
    ∃ q, issue .step s = .next (t, q) ∧ (∀ e, r = .ok e → q = .event e) ∧ (∀ f, r = .err f → q = .err f)

/-- A faulting STEP leaves the state before it but for the tag and the fault count. (R116, R119; in part or whole an inference
the spec marks as its own: R119) -/
def Obligations.FaultsArePrecise : Prop :=
  ∀ s t : State, s.tag = .running → step s = .next t →
    (∀ f, t.lastStep = some (.err f) → (f = .memoryFault ∨ f = .illegalInstruction) ∧ FaultsWith s t f) ∧
    (∀ e, t.lastStep = some (.ok e) → t.faultCount = s.faultCount)

/-- Whatever retires leaves the pc in the region. (R117, R27; the spec's own decision D7) -/
def Obligations.RetiredPcLiesInRegion : Prop :=
  ∀ (s t : State) (e : Event), s.ConfigOk → step s = .next t → t.lastStep = some (.ok e) → s.InRegion t.pc.toNat

/-- Each STEP from running counts one instruction or one fault, never both. (R298; the spec's own decision D14) -/
def Obligations.StepCountsOncePerInstruction : Prop :=
  ∀ s : State, ∃ t, step s = .next t ∧
    (s.tag = .running →
      ((∃ e, t.lastStep = some (.ok e)) ∧ OneUp s.instret t.instret ∧ t.faultCount = s.faultCount) ∨
      ((t.lastStep = some (.err .memoryFault) ∨ t.lastStep = some (.err .illegalInstruction)) ∧ t.tag = .faulted ∧
        OneUp s.faultCount t.faultCount ∧ t.instret = s.instret)) ∧
    (s.tag ≠ .running → t.lastStep = some (.err .invalidState) ∧ t.instret = s.instret ∧ t.faultCount = s.faultCount)

/-- STEP keeps the configuration and moves the tag only as the state machine allows. (R122, R293; the spec's own decision D18)
-/
def Obligations.StepNeverHaltsAndKeepsConfiguration : Prop :=
  ∀ s t : State, step s = .next t → SameConfig s t ∧ Tag.stepsTo s.tag t.tag = true

/-- A STEP completes the run exactly at an ECALL that retires and whose verdict is to terminate. (R117, R118, R221, R293; the
spec's own decisions D7, D11, D18) -/
def Obligations.OnlyATerminatingEcallCompletes : Prop :=
  ∀ s : State, s.tag = .running → ∃ t, step s = .next t ∧
    (t.tag = .completed ↔ s.fetch = .ok 0x00000073 ∧ s.InRegion (nextPc s) ∧
      Config.envTerminates s.x s.pc s.loadAddr s.memSize s.mem = true) ∧
    (t.tag = .completed → t.lastStep = some (.ok .envCall))

/-- No instruction but ECALL reads or writes a register it does not name. (R23) -/
def Obligations.UnnamedRegistersPlayNoPart : Prop :=
  ∀ (i : Instr) (s : State) (q : RegIdx) (v : Word), i ≠ .ecall → q ∉ namedRegs i →
    ∃ t, exec i s = .next t ∧ exec i (s.setReg q v) = .next (t.setReg q v)

/-- Every STEP keeps the invariant of the core, from every state that has it. (R45, R27, R39, R117; the spec's own decision
D7; in part or whole an inference the spec marks as its own: R45) -/
def Obligations.StepKeepsTheInvariant : Prop :=
  ∀ s t : State, s.Inv → step s = .next t → t.Inv

/-- Every host command keeps the invariant, a restore of an in-range snapshot included. (R45, R267, R236, R230; the spec's own
decisions D10, D16, D17; in part or whole an inference the spec marks as its own: R45, R267, R230) -/
def Obligations.CommandsKeepTheInvariant : Prop :=
  (∀ (c : Command) (s t : State) (r : Reply), s.Inv →
    (∀ S, c = .restoreState S → S.tag = .halted ∨ S.tag = .running → s.InRegion S.pc.toNat) →
    issue c s = .next (t, r) → t.Inv) ∧
  ∀ (s t : State) (cap : Nat) (S : Snapshot), s.Inv → issue (.saveState cap) s = .next (t, .snapshot S) →
    S.tag = .halted ∨ S.tag = .running → s.InRegion S.pc.toNat

/-- State.reset has the invariant, and is what INIT gives for its configuration. The configuration is the model's choice (log
1). (R43, R45, notes/assumptions/1.md; the spec's own decisions D9, D14; in part or whole an inference the spec marks as its
own: R45) -/
def Obligations.ResetHasTheInvariant : Prop :=
  State.reset.Inv ∧ cmdInit [] 0x80000000 0x1000 = .next (State.reset, .ok)

/-- GET reads a register and SET writes one; register 0 reads zero and a write to it is discarded. (R233, R234; in part or
whole an inference the spec marks as its own: R234) -/
def Obligations.RegisterZeroReadsZero : Prop :=
  (∀ (s : State) (r : RegIdx), issue (.get r) s = .next (s, .value (s.getReg r))) ∧
  (∀ s : State, issue (.get 0) s = .next (s, .value 0)) ∧
  (∀ (s : State) (v : Word), issue (.set 0 v) s = .next (s, .ok)) ∧
  ∀ (s : State) (r : RegIdx) (v : Word), ∃ t, issue (.set r v) s = .next (t, .ok) ∧ WritesReg s t r v ∧
    t.pc = s.pc ∧ t.mem = s.mem ∧ t.tag = s.tag ∧ t.instret = s.instret ∧ t.faultCount = s.faultCount ∧ SameConfig s t ∧
    issue (.get r) t = .next (t, .value (if r = 0 then 0 else v))

/-- Decoding the encoding of a well-formed instruction gives it back. (R82, R83, R84, R85, R86, R87, R94, R103; the spec's own
decision D3; in part or whole an inference the spec marks as its own: R94, R103) -/
def Obligations.DecodeInvertsEncode : Prop :=
  ∀ i : Instr, i.wellFormed = true → decodeWord (encode i) = .ok i

/-- A word that decodes is the encoding of a well-formed instruction, and of that one alone. (R82, R83, R84, R85, R86, R87,
R88, R89, R90, R91, R92, R103; the spec's own decision D3; in part or whole an inference the spec marks as its own: R103) -/
def Obligations.EncodeInvertsDecode : Prop :=
  ∀ (w : InstrWord) (i : Instr), decodeWord w = .ok i →
    i.wellFormed = true ∧ encode i = w ∧ ∀ j : Instr, j.wellFormed = true → encode j = w → j = i

/-- A word decodes by the first and only row that matches it, and is illegal without one. (R94; the spec's own decision D3; in
part or whole an inference the spec marks as its own: R94) -/
def Obligations.DecodeFollowsTheOnlyMatchingRow : Prop :=
  (∀ (w : InstrWord) (i : Instr), decodeWord w = .ok i ↔ ∃ r ∈ opcodeTable, w &&& r.mask = r.pat ∧ r.build w = i) ∧
  (∀ (w : InstrWord) (j k : Nat) (hj : j < opcodeTable.length) (hk : k < opcodeTable.length),
    w &&& opcodeTable[j].mask = opcodeTable[j].pat → w &&& opcodeTable[k].mask = opcodeTable[k].pat → j = k) ∧
  (∀ w : InstrWord, (∀ r ∈ opcodeTable, w &&& r.mask ≠ r.pat) → decodeWord w = .error .illegal)

/-- The words a reader might expect to be legal are illegal. (R96; in part or whole an inference the spec marks as its own:
R96) -/
def Obligations.ListedWordsAreIllegal : Prop :=
  ∀ (w : InstrWord) (op : BitVec 7) (f3 : BitVec 3) (f7 : BitVec 7),
    op = w.extractLsb' 0 7 → f3 = w.extractLsb' 12 3 → f7 = w.extractLsb' 25 7 →
    (w = 0x00000000 ∨ w = 0xffffffff ∨
     w.extractLsb' 0 2 ≠ 0b11#2 ∨
     op ∈ [0b0101111#7, 0b0000111, 0b0100111, 0b1000011, 0b1000111, 0b1001011, 0b1001111, 0b1010011, 0b0001011, 0b0101011,
       0b1011011, 0b1111011, 0b1010111, 0b1110111, 0b1101011, 0b0011111, 0b0111111, 0b1011111, 0b1111111] ∨
     ((op = 0b0110011 ∨ op = 0b0111011) ∧ f7 ≠ 0 ∧ (f7 ≠ 0b0100000 ∨ (f3 ≠ 0b000 ∧ f3 ≠ 0b101))) ∨
     ((op = 0b0111011 ∨ op = 0b0011011) ∧ f3 ∈ [0b010#3, 0b011, 0b100, 0b110, 0b111]) ∨
     (op = 0b0010011 ∧ f3 = 0b001 ∧ w.extractLsb' 26 6 ≠ 0) ∨
     (op = 0b0010011 ∧ f3 = 0b101 ∧ w.extractLsb' 26 6 ≠ 0 ∧ w.extractLsb' 26 6 ≠ 0b010000) ∨
     (op = 0b0011011 ∧ f3 = 0b001 ∧ f7 ≠ 0) ∨
     (op = 0b0011011 ∧ f3 = 0b101 ∧ f7 ≠ 0 ∧ f7 ≠ 0b0100000) ∨
     (op = 0b0000011 ∧ f3 = 0b111) ∨
     (op = 0b0100011 ∧ f3 ∈ [0b100#3, 0b101, 0b110, 0b111]) ∨
     (op = 0b1100011 ∧ f3 ∈ [0b010#3, 0b011]) ∨
     (op = 0b1100111 ∧ f3 ≠ 0b000) ∨
     (op = 0b0001111 ∧ f3 ≠ 0b000) ∨
     (op = 0b1110011 ∧ w ≠ 0x00000073 ∧ w ≠ 0x00100073)) →
    decodeWord w = .error .illegal

/-- One word of each family, written out from the spec, decodes to its instruction. (R81, R88, R89, R90, R91, R92, R93, R94,
R98, R220, R221, R222; the spec's own decisions D3, D11, D12, D13, D28; in part or whole an inference the spec marks as its
own: R94) -/
def Obligations.SampleWordsDecode : Prop :=
  decodeWord 0x02a00093 = .ok (.addi 1 0 42) ∧ decodeWord 0x800002b7 = .ok (.lui 5 0xffffffff80000000) ∧
  decodeWord 0xff1ff0ef = .ok (.jal 1 (-16)) ∧ decodeWord 0xffc08067 = .ok (.jalr 0 1 (-4)) ∧
  decodeWord 0xfe0000e3 = .ok (.beq 0 0 (-32)) ∧ decodeWord 0xff813283 = .ok (.ld 5 2 (-8)) ∧
  decodeWord 0xfe313c23 = .ok (.sd 3 2 (-8)) ∧ decodeWord 0x43f15093 = .ok (.srai 1 2 63) ∧
  decodeWord 0x402081b3 = .ok (.sub 3 1 2) ∧ decodeWord 0x4041509b = .ok (.sraiw 1 2 4) ∧
  decodeWord 0x4020d1bb = .ok (.sraw 3 1 2) ∧ decodeWord 0x8330000f = .ok (.fence 0x833 0 0) ∧
  decodeWord 0x00000073 = .ok .ecall ∧ decodeWord 0x00100073 = .ok .ebreak

/-- MemRead gives the bytes of an access in bounds, little-endian, and MemoryFault otherwise. (R52, R53; the spec's own
decision D2) -/
def Obligations.MemReadIsLittleEndianOrFaults : Prop :=
  ∀ (s : State) (a : Int) (w : Width),
    (s.InBounds a w.bytes ↔ (s.loadAddr.toNat : Int) ≤ a ∧ a + w.bytes ≤ s.loadAddr.toNat + s.memSize) ∧
    (s.InBounds a w.bytes → ∃ v, s.memRead a w = .ok v ∧
      ∀ i, i < w.bytes → v.extractLsb' (8 * i) 8 = s.mem.get (a.toNat + i)) ∧
    (¬ s.InBounds a w.bytes → s.memRead a w = .error .memoryFault) ∧
    (¬ s.InBounds a w.bytes → ∀ v, s.memWrite a w v = .error .memoryFault)

/-- A write changes its bytes only and reads back as its low bits. (R55; the spec's own decision D2; in part or whole an
inference the spec marks as its own: R55) -/
def Obligations.MemWriteRoundTripsAndTouchesNothingElse : Prop :=
  ∀ (s : State) (a : Int) (w : Width) (v : Word), s.mem.wf →
    (s.InBounds a w.bytes → ∃ t, s.memWrite a w v = .ok t ∧ t = { s with mem := t.mem } ∧ t.mem.wf ∧
      (∀ i, i < w.bytes → t.mem.get (a.toNat + i) = v.extractLsb' (8 * i) 8) ∧
      (∀ q : Nat, (q : Int) < a ∨ a + w.bytes ≤ q → t.mem.get q = s.mem.get q) ∧
      t.memRead a w = .ok (v.extractLsb' 0 w.bits)) ∧
    (¬ s.InBounds a w.bytes → s.memWrite a w v = .error .memoryFault)

/-- After an 8-byte write, narrower reads see its bytes little-endian. (R54; the spec's own decision D2) -/
def Obligations.NarrowReadsSeeALittleEndianDoubleword : Prop :=
  ∀ (s : State) (a : Int) (v : Word), s.mem.wf → s.InBounds a 8 → ∃ t, s.memWrite a .dword v = .ok t ∧
    (∀ i : Nat, i < 8 → t.memRead (a + i) .byte = .ok (v.extractLsb' (8 * i) 8)) ∧
    t.memRead a .word = .ok (v.extractLsb' 0 32) ∧ t.memRead (a + 4) .word = .ok (v.extractLsb' 32 32) ∧
    t.memRead a .dword = .ok v ∧
    ∀ p : Word, (p.toNat : Int) = a → State.fetch { t with pc := p } = .ok (v.extractLsb' 0 32)

/-- A fetch of the bytes a SW wrote sees the stored word at once. (R68, R331; in part or whole an inference the spec marks as
its own: R68, R331) -/
def Obligations.AStoreIsSeenByTheNextFetch : Prop :=
  ∀ (rs2 rs1 : RegIdx) (imm : Word) (s : State), s.mem.wf → s.ConfigOk → s.InBounds (ea s rs1 imm) 4 →
    s.InRegion (nextPc s) → ∃ t, exec (.sw rs2 rs1 imm) s = .next t ∧
      State.fetch { t with pc := BitVec.ofInt 64 (ea s rs1 imm) } = .ok (lowWord s rs2)

/-- INIT gives every piece of state its reset value. (R43; the spec's own decisions D9, D14) -/
def Obligations.InitGivesTheResetValues : Prop :=
  ∀ (image : List Byte) (base : Word) (size : Nat) (s₀ : State),
    InitContract image base size → ∃ s, issue (.init image base size) s₀ = .next (s, .ok) ∧
      (∀ r, s.getReg r = 0) ∧ s.pc = base ∧
      (∀ i, (h : i < image.length) → s.mem.get (base.toNat + i) = image[i]) ∧
      (∀ i, image.length ≤ i → i < size → s.mem.get (base.toNat + i) = 0x00) ∧
      s.tag = .halted ∧ s.instret = 0 ∧ s.faultCount = 0 ∧ s.loadAddr = base ∧ s.memSize = size

/-- START moves halted to running, and is InvalidState without effect elsewhere. (R231, R232; the spec's own decision D27) -/
def Obligations.StartRunsAHaltedCore : Prop :=
  ∀ s : State, (s.tag = .halted → issue .start s = .next ({ s with tag := .running }, .ok)) ∧
    (s.tag ≠ .halted → issue .start s = .next (s, .err .invalidState))

/-- READn and WRITEn read and write the region, and a failing one changes nothing. (R237, R238, R239; the spec's own decision
D15) -/
def Obligations.HostAccessesShareTheBoundsCheck : Prop :=
  ∀ (s : State) (w : Width) (a : Word) (v : BitVec w.bits), s.mem.wf →
    (s.InBounds a.toNat w.bytes →
      (∃ d, issue (.read w a) s = .next (s, .data w d) ∧
        ∀ i, i < w.bytes → d.extractLsb' (8 * i) 8 = s.mem.get (a.toNat + i)) ∧
      ∃ t, issue (.write w a v) s = .next (t, .ok) ∧ t = { s with mem := t.mem } ∧
        (∀ q : Nat, q < a.toNat ∨ a.toNat + w.bytes ≤ q → t.mem.get q = s.mem.get q) ∧
        issue (.read w a) t = .next (t, .data w v)) ∧
    (¬ s.InBounds a.toNat w.bytes →
      issue (.read w a) s = .next (s, .err .memoryFault) ∧ issue (.write w a v) s = .next (s, .err .memoryFault))

/-- GET_PC, SET_PC and GET_DIAGNOSTICS. (R235, R236, R241; the spec's own decision D16) -/
def Obligations.PcAndDiagnosticsCommands : Prop :=
  ∀ (s : State) (v : Word), issue .getPc s = .next (s, .value s.pc) ∧
    (s.InRegion v.toNat → issue (.setPc v) s = .next ({ s with pc := v }, .ok)) ∧
    issue .getDiagnostics s = .next (s, .report ⟨s.instret, s.faultCount⟩)

/-- Every command returns a result, and an error other than a faulting STEP changes nothing. (R244) -/
def Obligations.EveryCommandReturns : Prop :=
  ∀ (c : Command) (s : State),
    (∀ image base size, c = .init image base size → InitContract image base size) →
    (∀ v, c = .setPc v → s.InRegion v.toNat) →
    ∃ t r, issue c s = .next (t, r) ∧ ∀ f, r = .err f → ¬ (c = .step ∧ s.tag = .running) →
      SameMachine s t ∧ t.instret = s.instret ∧ t.faultCount = s.faultCount

/-- The tag moves exactly as the table of the state machine says, with the result it says. (R293; the spec's own decision D18)
-/
def Obligations.TagTransitionTable : Prop :=
  ∀ (c : Command) (s t : State) (r : Reply), issue c s = .next (t, r) →
    match c with
    | .init _ _ _ => t.tag = .halted ∧ r = .ok
    | .start => (s.tag = .halted ∧ t.tag = .running ∧ r = .ok) ∨ (s.tag ≠ .halted ∧ t.tag = s.tag ∧ r = .err .invalidState)
    | .step =>
      (s.tag = .running ∧ r = .event .envCall ∧ Config.envTerminates s.x s.pc s.loadAddr s.memSize s.mem = true ∧
        t.tag = .completed) ∨
      (s.tag = .running ∧ (∃ e, r = .event e ∧
        (e = .envCall → Config.envTerminates s.x s.pc s.loadAddr s.memSize s.mem = false)) ∧ t.tag = .running) ∨
      (s.tag = .running ∧ (r = .err .memoryFault ∨ r = .err .illegalInstruction) ∧ t.tag = .faulted) ∨
      (s.tag ≠ .running ∧ r = .err .invalidState ∧ t.tag = s.tag)
    | .restoreState S => (r = .ok ∧ t.tag = S.tag) ∨ (r = .err .snapshotMismatch ∧ t.tag = s.tag)
    | _ => t.tag = s.tag

/-- SAVE_STATE captures registers, pc, tag and every byte, or fails for a small buffer. (R262; the spec's own decision D17)
The field mem_size is the number of bytes held (log 10). -/
def Obligations.SaveStateCapturesEverything : Prop :=
  ∀ (s : State) (cap : Nat),
    (s.memSize ≤ cap → ∃ S, issue (.saveState cap) s = .next (s, .snapshot S) ∧ S.valid = true ∧
      (∀ r : RegIdx, S.x[r.toFin] = s.getReg r) ∧ S.pc = s.pc ∧ S.tag = s.tag ∧ S.memSize = s.memSize ∧
      ∀ i, i < s.memSize → S.mem[i]? = some (s.mem.get (s.loadAddr.toNat + i))) ∧
    (cap < s.memSize → issue (.saveState cap) s = .next (s, .err .snapshotMismatch))

/-- RESTORE_STATE overwrites registers, pc, memory and tag, or leaves the core untouched. (R264, R265, R266; the spec's own
decision D17) -/
def Obligations.RestoreStateOverwritesTheCore : Prop :=
  ∀ (s : State) (S : Snapshot),
    (S.valid = true ∧ S.memSize = s.memSize → ∃ t, issue (.restoreState S) s = .next (t, .ok) ∧
      (∀ r : RegIdx, t.getReg r = if r = 0 then 0 else S.x[r.toFin]) ∧ t.pc = S.pc ∧ t.tag = S.tag ∧ t.mem.wf ∧
      (∀ i, i < s.memSize → S.mem[i]? = some (t.mem.get (s.loadAddr.toNat + i))) ∧
      t.instret = s.instret ∧ t.faultCount = s.faultCount ∧ SameConfig s t) ∧
    (¬ (S.valid = true ∧ S.memSize = s.memSize) → issue (.restoreState S) s = .next (s, .err .snapshotMismatch))

/-- A snapshot restores the state it was taken in, after any commands but INIT. (R271; in part or whole an inference the spec
marks as its own: R271) -/
def Obligations.SnapshotRoundTripAfterAnyCommands : Prop :=
  ∀ (s t : State) (cap : Nat) (S : Snapshot) (cs : List Command) (rs : List Reply), s.Inv →
    issue (.saveState cap) s = .next (s, .snapshot S) → (∀ c ∈ cs, isInit c = false) → issueAll cs s = .next (t, rs) →
    ∃ u, issue (.restoreState S) t = .next (u, .ok) ∧ SameMachine s u ∧ u.instret = t.instret ∧ u.faultCount = t.faultCount

/-- Any number of STEPs gives the same machine and results whatever the counters were. (R14, R120, R272; in part or whole an
inference the spec marks as its own: R272) -/
def Obligations.RunsDoNotDependOnTheCounters : Prop :=
  ∀ (n : Nat) (s s' : State), SameMachine s s' → ∃ t t', Sys2Proof.core.run n s = .next t ∧ Sys2Proof.core.run n s' = .next t' ∧
    SameMachine t t' ∧ (0 < n → t.lastStep = t'.lastStep)

/-- Since INIT the counters add up to the STEPs taken, and faults are at most restores plus one. (R301; in part or whole an
inference the spec marks as its own: R301) -/
def Obligations.CounterIdentities : Prop :=
  ∀ (image : List Byte) (base : Word) (size : Nat) (s₀ s t : State) (cs : List Command) (rs : List Reply),
    issue (.init image base size) s₀ = .next (s, .ok) → (∀ c ∈ cs, isInit c = false) → cs.length < 2 ^ 64 - 1 →
    issueAll cs s = .next (t, rs) →
    t.instret.toNat + t.faultCount.toNat = stepsTaken cs rs ∧ t.faultCount.toNat ≤ restoresDone cs rs + 1

/-- Nothing but RESTORE_STATE and INIT leaves faulted or completed. (R292, R294, R293; the spec's own decision D18; in part or
whole an inference the spec marks as its own: R294) -/
def Obligations.OnlyRestoreOrInitLeavesAFinishedRun : Prop :=
  ∀ (s t : State) (cs : List Command) (rs : List Reply), s.Ended →
    (∀ c ∈ cs, isInit c = false ∧ isRestore c = false) → issueAll cs s = .next (t, rs) →
    t.tag = s.tag ∧ t.instret = s.instret ∧ t.faultCount = s.faultCount

/-- INIT and SET_PC refuse arguments that break their contract. (R11, R230, R236; the spec's own decisions D10, D16, D22; in
part or whole an inference the spec marks as its own: R230) That such a call is refused, and the refusals' names, are the
model's choice (log 11). -/
def Obligations.ContractViolationsAreRefused : Prop :=
  ∀ (c : Command) (s : State) (e : Refusal), issue c s = .refused e ↔
    (e = .initContract ∧ ∃ image base size, c = .init image base size ∧
      (size = 0 ∨ 2 ^ 64 < base.toNat + size ∨ size < image.length)) ∨
    (e = .setPcContract ∧ ∃ v, c = .setPc v ∧
      (v.toNat < s.loadAddr.toNat ∨ s.loadAddr.toNat + s.memSize ≤ v.toNat))
end

