-- ==== Sys2Proof/Laws/State.lean ====
section
/-! SUPPORT. One lemma per field and update of the state, so that no later proof unfolds a record update. -/

namespace Sys2Proof.Machine

section
variable (s : State) (f : Fault) (r : RegIdx) (v : Word) (a : Int) (w : Width) (p : Proposal) (S : Snapshot)

@[simp] theorem takeFault_x : (s.takeFault f).x = s.x := rfl
@[simp] theorem takeFault_pc : (s.takeFault f).pc = s.pc := rfl
@[simp] theorem takeFault_mem : (s.takeFault f).mem = s.mem := rfl
@[simp] theorem takeFault_tag : (s.takeFault f).tag = .faulted := rfl
@[simp] theorem takeFault_instret : (s.takeFault f).instret = s.instret := rfl
@[simp] theorem takeFault_faultCount : (s.takeFault f).faultCount = bump s.faultCount := rfl
@[simp] theorem takeFault_loadAddr : (s.takeFault f).loadAddr = s.loadAddr := rfl
@[simp] theorem takeFault_memSize : (s.takeFault f).memSize = s.memSize := rfl
@[simp] theorem takeFault_lastStep : (s.takeFault f).lastStep = some (.err f) := rfl
@[simp] theorem takeFault_getReg : (s.takeFault f).getReg r = s.getReg r := rfl

@[simp] theorem storeValue_x : (s.storeValue a w v).x = s.x := rfl
@[simp] theorem storeValue_pc : (s.storeValue a w v).pc = s.pc := rfl
@[simp] theorem storeValue_mem : (s.storeValue a w v).mem = s.mem.setBytes a.toNat (leBytes w.bytes v.toNat) := rfl
@[simp] theorem storeValue_tag : (s.storeValue a w v).tag = s.tag := rfl
@[simp] theorem storeValue_instret : (s.storeValue a w v).instret = s.instret := rfl
@[simp] theorem storeValue_faultCount : (s.storeValue a w v).faultCount = s.faultCount := rfl
@[simp] theorem storeValue_loadAddr : (s.storeValue a w v).loadAddr = s.loadAddr := rfl
@[simp] theorem storeValue_memSize : (s.storeValue a w v).memSize = s.memSize := rfl
@[simp] theorem storeValue_lastStep : (s.storeValue a w v).lastStep = s.lastStep := rfl
@[simp] theorem storeValue_getReg : (s.storeValue a w v).getReg r = s.getReg r := rfl

@[simp] theorem setReg_pc : (s.setReg r v).pc = s.pc := by unfold State.setReg; split <;> rfl
@[simp] theorem setReg_mem : (s.setReg r v).mem = s.mem := by unfold State.setReg; split <;> rfl
@[simp] theorem setReg_tag : (s.setReg r v).tag = s.tag := by unfold State.setReg; split <;> rfl
@[simp] theorem setReg_instret : (s.setReg r v).instret = s.instret := by unfold State.setReg; split <;> rfl
@[simp] theorem setReg_faultCount : (s.setReg r v).faultCount = s.faultCount := by unfold State.setReg; split <;> rfl
@[simp] theorem setReg_loadAddr : (s.setReg r v).loadAddr = s.loadAddr := by unfold State.setReg; split <;> rfl
@[simp] theorem setReg_memSize : (s.setReg r v).memSize = s.memSize := by unfold State.setReg; split <;> rfl
@[simp] theorem setReg_lastStep : (s.setReg r v).lastStep = s.lastStep := by unfold State.setReg; split <;> rfl

@[simp] theorem commit_pc : (s.commit p).pc = BitVec.ofInt 64 p.npc := rfl
@[simp] theorem commit_tag : (s.commit p).tag = s.tagAfter p.event := rfl
@[simp] theorem commit_instret : (s.commit p).instret = bump s.instret := rfl
@[simp] theorem commit_lastStep : (s.commit p).lastStep = some (.ok p.event) := rfl
@[simp] theorem commit_x : (s.commit p).x = ((s.applyMem p.memWrite).applyReg p.regWrite).x := rfl

@[simp] theorem applyMem_getReg (m : Option MemWrite) : (s.applyMem m).getReg r = s.getReg r := by cases m <;> rfl
@[simp] theorem applyMem_faultCount (m : Option MemWrite) : (s.applyMem m).faultCount = s.faultCount := by cases m <;> rfl
@[simp] theorem applyMem_loadAddr (m : Option MemWrite) : (s.applyMem m).loadAddr = s.loadAddr := by cases m <;> rfl
@[simp] theorem applyMem_memSize (m : Option MemWrite) : (s.applyMem m).memSize = s.memSize := by cases m <;> rfl
@[simp] theorem applyReg_mem (q : Option (RegIdx × Word)) : (s.applyReg q).mem = s.mem := by
  cases q <;> simp [State.applyReg]
@[simp] theorem applyReg_faultCount (q : Option (RegIdx × Word)) : (s.applyReg q).faultCount = s.faultCount := by
  cases q <;> simp [State.applyReg]
@[simp] theorem applyReg_loadAddr (q : Option (RegIdx × Word)) : (s.applyReg q).loadAddr = s.loadAddr := by
  cases q <;> simp [State.applyReg]
@[simp] theorem applyReg_memSize (q : Option (RegIdx × Word)) : (s.applyReg q).memSize = s.memSize := by
  cases q <;> simp [State.applyReg]

@[simp] theorem commit_mem : (s.commit p).mem = (s.applyMem p.memWrite).mem := by simp [State.commit]
@[simp] theorem commit_faultCount : (s.commit p).faultCount = s.faultCount := by simp [State.commit]
@[simp] theorem commit_loadAddr : (s.commit p).loadAddr = s.loadAddr := by simp [State.commit]
@[simp] theorem commit_memSize : (s.commit p).memSize = s.memSize := by simp [State.commit]

@[simp] theorem restore_pc : (s.restore S).pc = S.pc := rfl
@[simp] theorem restore_tag : (s.restore S).tag = S.tag := rfl
@[simp] theorem restore_mem : (s.restore S).mem = Memory.setBytes [] s.loadAddr.toNat S.mem := rfl
@[simp] theorem restore_instret : (s.restore S).instret = s.instret := rfl
@[simp] theorem restore_faultCount : (s.restore S).faultCount = s.faultCount := rfl
@[simp] theorem restore_loadAddr : (s.restore S).loadAddr = s.loadAddr := rfl
@[simp] theorem restore_memSize : (s.restore S).memSize = s.memSize := rfl
@[simp] theorem restore_lastStep : (s.restore S).lastStep = s.lastStep := rfl

@[simp] theorem capture_valid : s.capture.valid = true := rfl
@[simp] theorem capture_pc : s.capture.pc = s.pc := rfl
@[simp] theorem capture_tag : s.capture.tag = s.tag := rfl
@[simp] theorem capture_mem : s.capture.mem = s.mem.getBytes s.loadAddr.toNat s.memSize := rfl

end

/-! ## Registers -/

@[simp] theorem getReg_zero (s : State) : s.getReg 0#5 = 0#64 := rfl

theorem slot_injective {q r : RegIdx} (hq : q ≠ 0) (hr : r ≠ 0) (h : (slot q).val = (slot r).val) : q = r := by
  have hq' : q.toNat ≠ 0 := fun e => hq (BitVec.eq_of_toNat_eq (by simpa using e))
  have hr' : r.toNat ≠ 0 := fun e => hr (BitVec.eq_of_toNat_eq (by simpa using e))
  have h' : q.toNat - 1 = r.toNat - 1 := h
  exact BitVec.eq_of_toNat_eq (by omega)

/-- A register read after a register write: the written register reads the value unless it is register 0, every other one
reads as before (10_state.md R22, R23). -/
theorem getReg_setReg (s : State) (r q : RegIdx) (v : Word) :
    (s.setReg r v).getReg q = if q = r ∧ r ≠ 0 then v else s.getReg q := by
  unfold State.setReg State.getReg
  by_cases hr : r = 0
  · rw [if_pos hr, if_neg (c := q = r ∧ r ≠ 0) fun h => h.2 hr]
  rw [if_neg hr]
  by_cases hq : q = 0
  · rw [if_pos hq, if_pos hq, if_neg (c := q = r ∧ r ≠ 0) fun h => hr (h.1 ▸ hq)]
  rw [if_neg hq, if_neg hq]
  by_cases hqr : q = r
  · rw [if_pos ⟨hqr, hr⟩, hqr]
    exact Vector.getElem_set_self (slot r).isLt
  · rw [if_neg (c := q = r ∧ r ≠ 0) fun h => hqr h.1]
    exact Vector.getElem_set_ne (slot r).isLt (slot q).isLt fun e => hqr (slot_injective hr hq e).symm

@[simp] theorem getReg_setReg_zero (s : State) (q : RegIdx) (v : Word) : (s.setReg 0#5 v).getReg q = s.getReg q := by
  simp [getReg_setReg]

theorem getElem_restoredRegs (S : Snapshot) (i : Nat) (h : i < 31) : S.restoredRegs[i] = S.x[i + 1] := by
  simp [Snapshot.restoredRegs]

theorem getElem_savedRegs (s : State) (i : Nat) (h : i < 31) : s.savedRegs[i + 1] = s.x[i] := by
  simp [State.savedRegs]

theorem slot_succ {r : RegIdx} (h : r ≠ 0) : (slot r).val + 1 = r.toNat := by
  have h0 : r.toNat ≠ 0 := fun e => h (BitVec.eq_of_toNat_eq (by simpa using e))
  change r.toNat - 1 + 1 = r.toNat
  omega

/-- A register read after a restore (47_snapshot.md R264, R266). -/
theorem restore_getReg (s : State) (S : Snapshot) (r : RegIdx) :
    (s.restore S).getReg r = if r = 0 then 0 else S.x[r.toNat]'r.isLt := by
  unfold State.getReg
  split
  · rfl
  · rename_i h
    refine (getElem_restoredRegs S (slot r).val (slot r).isLt).trans ?_
    congr 1
    exact slot_succ h

/-- A register in a snapshot (47_snapshot.md R262, R266). -/
theorem capture_getElem (s : State) (r : RegIdx) : s.capture.x[r.toNat]'r.isLt = s.getReg r := by
  unfold State.getReg
  split
  · subst_vars; rfl
  · rename_i h
    refine Eq.trans ?_ (getElem_savedRegs s (slot r).val (slot r).isLt)
    congr 1
    exact (slot_succ h).symm

theorem commit_getReg (s : State) (p : Proposal) (r : RegIdx) :
    (s.commit p).getReg r = ((s.applyMem p.memWrite).applyReg p.regWrite).getReg r := rfl

end Sys2Proof.Machine
end

