-- ==== Sys2Proof/Laws/Memory.lean ====
section
/-! SUPPORT. The laws of memory: a read after a write, the canonical form and that every operation keeps it, and that two
canonical memories that read alike are equal. -/

namespace Sys2Proof.Machine

@[simp] theorem Memory.get_nil (a : Nat) : Memory.get [] a = unlistedByte := rfl

theorem Memory.wf_cons {k : Nat} {b : Byte} {m : Memory} :
    Memory.wf ((k, b) :: m) ↔ (∀ c ∈ m, k < c.1) ∧ b ≠ unlistedByte ∧ Memory.wf m := by
  simp only [Memory.wf, List.pairwise_cons, List.forall_mem_cons]
  tauto

/-- An address below every listed one is unlisted. -/
theorem Memory.get_below {m : Memory} {a : Nat} (h : ∀ c ∈ m, a < c.1) : m.get a = unlistedByte := by
  induction m with
  | nil => rfl
  | cons c m ih =>
    obtain ⟨k, b⟩ := c
    have hk : a < k := h (k, b) (by simp)
    simp only [Memory.get, if_neg (Nat.ne_of_lt hk)]
    exact ih fun d hd => h d (by simp [hd])

/-- Every cell after a write is an old cell or the written one. -/
theorem Memory.mem_set {m : Memory} {a : Nat} {v : Byte} {c : Host.Cell} (h : c ∈ m.set a v) : c ∈ m ∨ c = (a, v) := by
  induction m with
  | nil =>
    unfold Memory.set at h
    split at h <;> simp_all
  | cons d m ih =>
    obtain ⟨k, b⟩ := d
    unfold Memory.set at h
    split at h
    · split at h <;> simp_all <;> tauto
    · split at h
      · split at h <;> simp_all <;> tauto
      · rcases List.mem_cons.mp h with rfl | h'
        · simp
        · rcases ih h' with h'' | h'' <;> simp [h'']

theorem Memory.wf_set {m : Memory} (hm : m.wf) (a : Nat) (v : Byte) : (m.set a v).wf := by
  induction m with
  | nil =>
    unfold Memory.set
    split <;> simp_all [Memory.wf]
  | cons d m ih =>
    obtain ⟨k, b⟩ := d
    obtain ⟨hlt, hb, hm'⟩ := Memory.wf_cons.mp hm
    unfold Memory.set
    split
    · split
      · exact hm
      · refine Memory.wf_cons.mpr ⟨?_, ‹_›, hm⟩
        intro c hc
        rcases List.mem_cons.mp hc with rfl | hc
        · assumption
        · have := hlt c hc; omega
    · split
      · subst_vars
        split
        · exact hm'
        · exact Memory.wf_cons.mpr ⟨hlt, ‹_›, hm'⟩
      · refine Memory.wf_cons.mpr ⟨?_, hb, ih hm'⟩
        intro c hc
        rcases Memory.mem_set hc with hc | rfl
        · exact hlt c hc
        · simp only; omega

/-- A byte read after a byte write (20_memory.md R53, R55). -/
theorem Memory.get_set {m : Memory} (hm : m.wf) (a : Nat) (v : Byte) (q : Nat) :
    (m.set a v).get q = if q = a then v else m.get q := by
  induction m with
  | nil =>
    unfold Memory.set
    split <;> simp_all [Memory.get]
  | cons d m ih =>
    obtain ⟨k, b⟩ := d
    obtain ⟨hlt, hb, hm'⟩ := Memory.wf_cons.mp hm
    unfold Memory.set
    split
    · rename_i hak
      split
      · rename_i hv
        by_cases hq : q = a
        · subst hq
          rw [if_pos rfl, hv, Memory.get_below]
          intro c hc
          rcases List.mem_cons.mp hc with rfl | hc
          · exact hak
          · exact Nat.lt_trans hak (hlt c hc)
        · rw [if_neg hq]
      · by_cases hq : q = a <;> simp [Memory.get, hq]
    · split
      · rename_i hak; subst hak
        split
        · rename_i hv
          by_cases hq : q = a
          · subst hq; rw [if_pos rfl, hv, Memory.get_below hlt]
          · simp [Memory.get, hq]
        · by_cases hq : q = a <;> simp [Memory.get, hq]
      · rename_i hak
        simp only [Memory.get, ih hm']
        by_cases hqk : q = k
        · subst hqk; simp [Ne.symm hak]
        · simp [hqk]

/-- Two canonical memories that read alike everywhere are equal. -/
theorem Memory.eq_of_get {m m' : Memory} (hm : m.wf) (hm' : m'.wf) (h : ∀ a, m.get a = m'.get a) : m = m' := by
  induction m generalizing m' with
  | nil =>
    cases m' with
    | nil => rfl
    | cons d m' =>
      obtain ⟨k, b⟩ := d
      have hk := h k
      simp only [Memory.get, if_true] at hk
      exact absurd hk.symm (Memory.wf_cons.mp hm').2.1
  | cons c m ih =>
    obtain ⟨j, a⟩ := c
    obtain ⟨hlt, ha, hwf⟩ := Memory.wf_cons.mp hm
    cases m' with
    | nil =>
      have hj := h j
      simp only [Memory.get, if_true] at hj
      exact absurd hj ha
    | cons d m' =>
      obtain ⟨k, b⟩ := d
      obtain ⟨hlt', hb, hwf'⟩ := Memory.wf_cons.mp hm'
      have hjk : j = k := by
        rcases Nat.lt_trichotomy j k with hjk | hjk | hjk
        · have hj := h j
          rw [Memory.get, if_pos rfl, Memory.get, if_neg (Nat.ne_of_lt hjk),
            Memory.get_below fun c hc => Nat.lt_trans hjk (hlt' c hc)] at hj
          exact absurd hj ha
        · exact hjk
        · have hk := h k
          rw [Memory.get, if_neg (Nat.ne_of_lt hjk), Memory.get, if_pos rfl,
            Memory.get_below fun c hc => Nat.lt_trans hjk (hlt c hc)] at hk
          exact absurd hk.symm hb
      subst hjk
      have hab : a = b := by simpa [Memory.get] using h j
      subst hab
      congr 1
      refine ih hwf hwf' fun q => ?_
      by_cases hq : q = j
      · subst hq; rw [Memory.get_below hlt, Memory.get_below hlt']
      · simpa [Memory.get, hq] using h q

/-! ## Ranges of bytes -/

theorem Memory.wf_setBytes {m : Memory} (hm : m.wf) (a : Nat) (bs : List Byte) : (m.setBytes a bs).wf := by
  induction bs generalizing m a with
  | nil => exact hm
  | cons b bs ih => exact ih (Memory.wf_set hm a b) (a + 1)

/-- Every cell after a range write is an old cell or lies in the range. -/
theorem Memory.mem_setBytes {m : Memory} {a : Nat} {bs : List Byte} {c : Host.Cell} (h : c ∈ m.setBytes a bs) :
    c ∈ m ∨ (a ≤ c.1 ∧ c.1 < a + bs.length) := by
  induction bs generalizing m a with
  | nil => exact .inl h
  | cons b bs ih =>
    rcases ih h with h' | ⟨h1, h2⟩
    · rcases Memory.mem_set h' with h'' | rfl
      · exact .inl h''
      · right; simp
    · right
      simp only [List.length_cons]
      omega

/-- A byte read after a range write. -/
theorem Memory.get_setBytes {m : Memory} (hm : m.wf) (a : Nat) (bs : List Byte) (q : Nat) :
    (m.setBytes a bs).get q = if h : a ≤ q ∧ q < a + bs.length then bs[q - a]'(by omega) else m.get q := by
  induction bs generalizing m a with
  | nil =>
    have h : ¬ (a ≤ q ∧ q < a + ([] : List Byte).length) := by simp
    rw [dif_neg h]; rfl
  | cons b bs ih =>
    rw [Memory.setBytes, ih (Memory.wf_set hm a b) (a + 1), Memory.get_set hm]
    simp only [List.length_cons]
    by_cases hq : q = a
    · subst hq
      rw [dif_neg (by omega), if_pos rfl, dif_pos (by omega)]
      simp
    · by_cases hr : a + 1 ≤ q ∧ q < a + 1 + bs.length
      · rw [dif_pos hr, dif_pos (by omega)]
        have : q - a = (q - (a + 1)) + 1 := by omega
        simp [this]
      · rw [dif_neg hr, if_neg hq, dif_neg (by omega)]

@[simp] theorem Memory.length_getBytes (m : Memory) (a n : Nat) : (m.getBytes a n).length = n := by
  induction n generalizing a with
  | zero => rfl
  | succ n ih => simp [Memory.getBytes, ih]

@[simp] theorem Memory.getElem_getBytes (m : Memory) (a n i : Nat) (h : i < (m.getBytes a n).length) :
    (m.getBytes a n)[i] = m.get (a + i) := by
  induction n generalizing a i with
  | zero => simp [Memory.getBytes] at h
  | succ n ih =>
    cases i with
    | zero => simp [Memory.getBytes]
    | succ i =>
      simp only [Memory.getBytes, List.getElem_cons_succ]
      rw [ih]
      congr 1
      omega

/-! ## Byte order -/

@[simp] theorem length_leBytes (n v : Nat) : (leBytes n v).length = n := by
  induction n generalizing v with
  | zero => rfl
  | succ n ih => simp [leBytes, ih]

/-- Byte `i` of a stored value is its bits `8i+7` to `8i` (20_memory.md R55). -/
theorem getElem_leBytes (n v i : Nat) (h : i < (leBytes n v).length) :
    (leBytes n v)[i] = BitVec.ofNat 8 (v / 256 ^ i) := by
  induction n generalizing v i with
  | zero => simp [leBytes] at h
  | succ n ih =>
    cases i with
    | zero => simp [leBytes]
    | succ i =>
      simp only [leBytes, List.getElem_cons_succ]
      rw [ih, Nat.div_div_eq_div_mul, Nat.pow_succ, Nat.mul_comm]

/-- The little-endian value of the `n` low bytes of `v` is `v` modulo `2^(8n)` (20_memory.md R54). -/
theorem leValue_leBytes (n v : Nat) : leValue (leBytes n v) = v % 2 ^ (8 * n) := by
  induction n generalizing v with
  | zero => simp [leBytes, leValue, Nat.mod_one]
  | succ n ih =>
    have hp : 2 ^ (8 * (n + 1)) = 256 * 2 ^ (8 * n) := by rw [Nat.mul_succ, Nat.pow_add, Nat.mul_comm]
    simp only [leBytes, leValue, ih, BitVec.toNat_ofNat, hp, Nat.mod_mul]

theorem leValue_lt (bs : List Byte) : leValue bs < 2 ^ (8 * bs.length) := by
  induction bs with
  | nil => simp [leValue]
  | cons b bs ih =>
    have hb := b.isLt
    have hp : 2 ^ (8 * (bs.length + 1)) = 256 * 2 ^ (8 * bs.length) := by rw [Nat.mul_succ, Nat.pow_add, Nat.mul_comm]
    simp only [leValue, List.length_cons, hp]
    omega

/-- The bytes of a range after that same range is written. -/
theorem Memory.getBytes_setBytes {m : Memory} (hm : m.wf) (a : Nat) (bs : List Byte) :
    (m.setBytes a bs).getBytes a bs.length = bs := by
  apply List.ext_getElem (by simp)
  intro i h1 h2
  rw [Memory.getElem_getBytes, Memory.get_setBytes hm, dif_pos (by omega)]
  congr 1
  omega

end Sys2Proof.Machine
end

