-- ==== Sys2Proof/Laws/Ops.lean ====
section
/-! SUPPORT. What each shared operation of Machine/Ops.lean and Machine/Operands.lean can do, said once. -/

namespace Sys2Proof.Machine

/-! ## Counters -/

/-- A bumped counter is one up, saturating (10_state.md R33). -/
theorem toNat_bump (c : Word) : (bump c).toNat = min (c.toNat + 1) (2 ^ 64 - 1) := by
  have hc := c.isLt
  unfold bump
  split
  · rename_i h; subst h; rfl
  · rename_i h
    have hne : c.toNat ≠ 2 ^ 64 - 1 := fun e => h (BitVec.eq_of_toNat_eq (by rw [e]; rfl))
    have h1 : (1 : Word).toNat = 1 := rfl
    rw [BitVec.toNat_add, h1]
    omega

/-! ## Memory accesses -/

theorem memRead_inBounds {s : State} {a : Int} {w : Width} (h : s.InBounds a w.bytes) :
    s.memRead a w = .ok (s.loadValue a w) := if_pos h

theorem memRead_outOfBounds {s : State} {a : Int} {w : Width} (h : ¬ s.InBounds a w.bytes) :
    s.memRead a w = .error .memoryFault := if_neg h

/-- A read can only give the value of an access in bounds, or a MemoryFault (20_memory.md R53). -/
theorem memRead_cases (s : State) (a : Int) (w : Width) :
    (s.InBounds a w.bytes ∧ s.memRead a w = .ok (s.loadValue a w)) ∨
      (¬ s.InBounds a w.bytes ∧ s.memRead a w = .error .memoryFault) := by
  by_cases h : s.InBounds a w.bytes
  · exact .inl ⟨h, memRead_inBounds h⟩
  · exact .inr ⟨h, memRead_outOfBounds h⟩

theorem memWrite_inBounds {s : State} {a : Int} {w : Width} (h : s.InBounds a w.bytes) (v : Word) :
    s.memWrite a w v = .ok (s.storeValue a w v) := if_pos h

theorem memWrite_outOfBounds {s : State} {a : Int} {w : Width} (h : ¬ s.InBounds a w.bytes) (v : Word) :
    s.memWrite a w v = .error .memoryFault := if_neg h

/-- Byte `i` of a little-endian value is the byte in place `i`. -/
theorem leValue_byte (bs : List Byte) (i : Nat) (h : i < bs.length) : leValue bs / 256 ^ i % 256 = bs[i].toNat := by
  induction bs generalizing i with
  | nil => simp at h
  | cons b bs ih =>
    have hb := b.isLt
    cases i with
    | zero => simp only [leValue, List.getElem_cons_zero]; omega
    | succ i =>
      simp only [leValue, List.getElem_cons_succ]
      rw [← ih i (by simpa using h), Nat.pow_succ, Nat.mul_comm (256 ^ i), ← Nat.div_div_eq_div_mul]
      congr 2
      omega

/-- Byte `i` of the value an access reads is the byte of memory in place `i` (20_memory.md R53). -/
theorem loadValue_byte (s : State) (a : Int) (w : Width) (i : Nat) (h : i < w.bytes) :
    (s.loadValue a w).extractLsb' (8 * i) 8 = s.mem.get (a.toNat + i) := by
  apply BitVec.eq_of_toNat_eq
  have hlen : i < (s.mem.getBytes a.toNat w.bytes).length := by simpa using h
  have hlt := leValue_lt (s.mem.getBytes a.toNat w.bytes)
  rw [Memory.length_getBytes] at hlt
  have hb := leValue_byte (s.mem.getBytes a.toNat w.bytes) i hlen
  rw [Memory.getElem_getBytes] at hb
  rw [State.loadValue, BitVec.extractLsb'_toNat, BitVec.toNat_ofNat, Nat.mod_eq_of_lt hlt, Nat.shiftRight_eq_div_pow,
    Nat.pow_mul]
  exact hb

/-- A byte read after a store (20_memory.md R55). -/
theorem storeValue_get {s : State} (hm : s.mem.wf) (a : Int) (w : Width) (v : Word) (q : Nat) :
    (s.storeValue a w v).mem.get q =
      if a.toNat ≤ q ∧ q < a.toNat + w.bytes then v.extractLsb' (8 * (q - a.toNat)) 8 else s.mem.get q := by
  rw [storeValue_mem, Memory.get_setBytes hm]
  simp only [length_leBytes]
  split
  · rw [getElem_leBytes]
    apply BitVec.eq_of_toNat_eq
    rw [BitVec.extractLsb'_toNat, BitVec.toNat_ofNat, Nat.shiftRight_eq_div_pow, Nat.pow_mul]
  · rfl

theorem storeValue_wf {s : State} (hm : s.mem.wf) (a : Int) (w : Width) (v : Word) : (s.storeValue a w v).mem.wf :=
  Memory.wf_setBytes hm _ _

/-- A store in bounds keeps every byte of memory inside the region (10_state.md R39). -/
theorem storeValue_inRegion {s : State} {a : Int} {w : Width} (v : Word) (hb : s.InBounds a w.bytes)
    (h : ∀ c ∈ s.mem, s.loadAddr.toNat ≤ c.1 ∧ c.1 < s.loadAddr.toNat + s.memSize) :
    ∀ c ∈ (s.storeValue a w v).mem, s.loadAddr.toNat ≤ c.1 ∧ c.1 < s.loadAddr.toNat + s.memSize := by
  intro c hc
  rcases Memory.mem_setBytes hc with hc | hc
  · exact h c hc
  · rw [length_leBytes] at hc
    have h1 := hb.1
    have h2 := hb.2
    omega

/-- A read of the access just written gives the low bits of the value back (20_memory.md R55). -/
theorem loadValue_storeValue {s : State} (hm : s.mem.wf) (a : Int) (w : Width) (v : Word) :
    (s.storeValue a w v).loadValue a w = v.extractLsb' 0 w.bits := by
  apply BitVec.eq_of_toNat_eq
  have hg := Memory.getBytes_setBytes hm a.toNat (leBytes w.bytes v.toNat)
  rw [length_leBytes] at hg
  rw [State.loadValue, storeValue_mem, hg, leValue_leBytes, BitVec.extractLsb'_toNat, BitVec.toNat_ofNat, Nat.shiftRight_zero,
    Nat.mod_mod]

/-! ## The execute stages -/

theorem proposeLoad_inBounds {s : State} {w : Width} {rs1 : RegIdx} {imm : Word} (e : Extension) (rd : RegIdx)
    (h : s.InBounds (s.effAddr rs1 imm) w.bytes) :
    s.proposeLoad w e rd rs1 imm = .ok (s.proposeReg rd (extend e (s.loadValue (s.effAddr rs1 imm) w))) := by
  rw [State.proposeLoad, memRead_inBounds h]

theorem proposeLoad_outOfBounds {s : State} {w : Width} {rs1 : RegIdx} {imm : Word} (e : Extension) (rd : RegIdx)
    (h : ¬ s.InBounds (s.effAddr rs1 imm) w.bytes) : s.proposeLoad w e rd rs1 imm = .error .memoryFault := by
  rw [State.proposeLoad, memRead_outOfBounds h]

theorem proposeStore_inBounds {s : State} {w : Width} {rs1 : RegIdx} {imm : Word} (rs2 : RegIdx)
    (h : s.InBounds (s.effAddr rs1 imm) w.bytes) :
    s.proposeStore w rs2 rs1 imm =
      .ok ⟨none, some ⟨s.effAddr rs1 imm, w, s.getReg rs2⟩, s.seqPc, .retired⟩ := if_pos h

theorem proposeStore_outOfBounds {s : State} {w : Width} {rs1 : RegIdx} {imm : Word} (rs2 : RegIdx)
    (h : ¬ s.InBounds (s.effAddr rs1 imm) w.bytes) : s.proposeStore w rs2 rs1 imm = .error .memoryFault := if_neg h

/-! ## Resolve: commit or fault entry -/

@[simp] theorem resolve_error (s : State) (f : Fault) : s.resolve (.error f) = s.takeFault f := rfl

theorem resolve_inRegion {s : State} {p : Proposal} (h : s.InRegion p.npc) : s.resolve (.ok p) = s.commit p := if_pos h

theorem resolve_outside {s : State} {p : Proposal} (h : ¬ s.InRegion p.npc) :
    s.resolve (.ok p) = s.takeFault .memoryFault := if_neg h

/-- A step's end is the commit of a proposal whose next address lies in the region, or fault entry
(40_step_engine.md R116 to R118). -/
theorem resolve_cases (s : State) (r : Except Fault Proposal) :
    (∃ p, r = .ok p ∧ s.InRegion p.npc ∧ s.resolve r = s.commit p) ∨
      (∃ p, r = .ok p ∧ ¬ s.InRegion p.npc ∧ s.resolve r = s.takeFault .memoryFault) ∨
      ∃ f, r = .error f ∧ s.resolve r = s.takeFault f := by
  cases r with
  | error f => exact .inr (.inr ⟨f, rfl, rfl⟩)
  | ok p =>
    by_cases h : s.InRegion p.npc
    · exact .inl ⟨p, rfl, h, resolve_inRegion h⟩
    · exact .inr (.inl ⟨p, rfl, h, resolve_outside h⟩)

/-- The tag after a commit stays but for an environment call (40_step_engine.md R118 (e)). -/
@[simp] theorem tagAfter_retired (s : State) : s.tagAfter .retired = s.tag := rfl
@[simp] theorem tagAfter_breakpoint (s : State) : s.tagAfter .breakpoint = s.tag := rfl
theorem tagAfter_envCall (s : State) : s.tagAfter .envCall =
    if Config.envTerminates s.x s.pc s.loadAddr s.memSize s.mem = true then .completed else s.tag := rfl

end Sys2Proof.Machine
end

