-- ==== Sys2Proof/Laws/Step.lean ====
section
/-! SUPPORT. What one instruction and one STEP can do, said once: the inversion lemmas the invariants are derived from. -/

namespace Sys2Proof.Machine

/-- What the execute stage of instruction `i` may give at `s` (40_step_engine.md R115): its only fault is MemoryFault, a proposed
write to memory is in bounds, never together with a register write, and the event is EnvCall for ECALL alone. -/
structure Proposes (i : Instr) (s : State) (r : Except Fault Proposal) : Prop where
  fault : ∀ f, r = .error f → f = .memoryFault
  inBounds : ∀ p m, r = .ok p → p.memWrite = some m → s.InBounds m.addr m.width.bytes
  oneWrite : ∀ p, r = .ok p → p.regWrite = none ∨ p.memWrite = none
  envCall : ∀ p, r = .ok p → (p.event = .envCall ↔ i = .ecall)

theorem proposes_ok {i : Instr} {s : State} {p : Proposal} (hm : p.memWrite = none) (he : p.event = .envCall ↔ i = .ecall) :
    Proposes i s (.ok p) where
  fault := nofun
  inBounds := by rintro _ m ⟨⟩ h; rw [hm] at h; cases h
  oneWrite := by rintro _ ⟨⟩; exact .inr hm
  envCall := by rintro _ ⟨⟩; exact he

theorem proposes_load {i : Instr} (hi : i ≠ .ecall) (s : State) (w : Width) (e : Extension) (rd rs1 : RegIdx) (imm : Word) :
    Proposes i s (s.proposeLoad w e rd rs1 imm) := by
  by_cases h : s.InBounds (s.effAddr rs1 imm) w.bytes
  · rw [proposeLoad_inBounds e rd h]
    exact proposes_ok rfl ⟨nofun, fun h => absurd h hi⟩
  · rw [proposeLoad_outOfBounds e rd h]
    exact ⟨by rintro _ ⟨⟩; rfl, nofun, nofun, nofun⟩

theorem proposes_store {i : Instr} (hi : i ≠ .ecall) (s : State) (w : Width) (rs2 rs1 : RegIdx) (imm : Word) :
    Proposes i s (s.proposeStore w rs2 rs1 imm) := by
  by_cases h : s.InBounds (s.effAddr rs1 imm) w.bytes
  · rw [proposeStore_inBounds rs2 h]
    exact ⟨nofun, by rintro _ m ⟨⟩ ⟨⟩; exact h, by rintro _ ⟨⟩; exact .inl rfl,
      by rintro _ ⟨⟩; exact ⟨nofun, fun h => absurd h hi⟩⟩
  · rw [proposeStore_outOfBounds rs2 h]
    exact ⟨by rintro _ ⟨⟩; rfl, nofun, nofun, nofun⟩

/-- What an instruction can do: it resolves what its execute stage gives. -/
theorem exec_cases (i : Instr) (s : State) : ∃ r, exec i s = .next (s.resolve r) ∧ Proposes i s r := by
  cases i
  case lb | lh | lw | ld | lbu | lhu | lwu => refine ⟨_, rfl, proposes_load ?_ _ _ _ _ _ _⟩; nofun
  case sb | sh | sw | sd => refine ⟨_, rfl, proposes_store ?_ _ _ _ _ _⟩; nofun
  case ecall => exact ⟨_, rfl, proposes_ok rfl ⟨fun _ => rfl, fun _ => rfl⟩⟩
  all_goals exact ⟨_, rfl, proposes_ok rfl ⟨nofun, nofun⟩⟩

/-- What a STEP can do (40_step_engine.md R112). -/
theorem step_cases (s : State) :
    (s.tag ≠ .running ∧ step s = .next { s with lastStep := some (.err .invalidState) }) ∨
    (s.tag = .running ∧ ¬ s.InBounds s.pc.toNat 4 ∧ s.fetch = .error .memoryFault ∧
      step s = .next (s.takeFault .memoryFault)) ∨
    (∃ w, s.tag = .running ∧ s.InBounds s.pc.toNat 4 ∧ s.fetch = .ok w ∧ decodeWord w = .error .illegal ∧
      step s = .next (s.takeFault .illegalInstruction)) ∨
    (∃ w i r, s.tag = .running ∧ s.InBounds s.pc.toNat 4 ∧ s.fetch = .ok w ∧ decodeWord w = .ok i ∧ exec i s = .next (s.resolve r) ∧
      step s = exec i s ∧ Proposes i s r) := by
  by_cases ht : s.tag = .running
  · by_cases hb : s.InBounds s.pc.toNat 4
    · have hf : s.fetch = .ok (s.loadValue s.pc.toNat .word) := memRead_inBounds (w := .word) hb
      have hs : step s = match decodeWord (s.loadValue s.pc.toNat .word) with
          | .error _ => .next (s.takeFault .illegalInstruction)
          | .ok i => exec i s := by
        simp only [step, if_pos ht, hf] <;> rfl
      cases hd : decodeWord (s.loadValue s.pc.toNat .word) with
      | error e =>
        rw [hd] at hs
        have he : e = .illegal := by
          unfold decodeWord at hd
          split at hd
          · cases hd
          · cases hd; rfl
        exact .inr (.inr (.inl ⟨_, ht, hb, hf, he ▸ hd, hs⟩))
      | ok i =>
        rw [hd] at hs
        obtain ⟨r, hr, hp⟩ := exec_cases i s
        exact .inr (.inr (.inr ⟨_, i, r, ht, hb, hf, hd, hr, hs, hp⟩))
    · have hf : s.fetch = .error .memoryFault := memRead_outOfBounds (w := .word) hb
      exact .inr (.inl ⟨ht, hb, hf, by simp only [step, if_pos ht, hf]⟩)
  · exact .inl ⟨ht, by simp only [step, if_neg ht]⟩

end Sys2Proof.Machine
end

