-- ==== Sys2Proof/Laws/Commands.lean ====
section
/-! SUPPORT. What the host commands can do to the memory's canonical form and to the configuration, said once. -/

namespace Sys2Proof.Machine

/-- The memory right after reset is in canonical form. -/
theorem reset_mem_wf : State.reset.mem.wf := by decide

theorem initState_wf (image : List Byte) (loadAddr : Word) (memSize : Nat) : (initState image loadAddr memSize).mem.wf :=
  Memory.wf_setBytes (by decide) _ _

theorem restore_wf (s : State) (S : Snapshot) : (s.restore S).mem.wf := Memory.wf_setBytes (by decide) _ _

theorem withFetchWord_wf {s : State} (hm : s.mem.wf) (nbits w : Nat) : (s.withFetchWord nbits w).mem.wf :=
  Memory.wf_setBytes hm _ _

/-- The end of a step keeps the canonical form. -/
theorem resolve_wf {s : State} (hm : s.mem.wf) (r : Except Fault Proposal) : (s.resolve r).mem.wf := by
  rcases resolve_cases s r with ⟨p, -, -, h⟩ | ⟨p, -, -, h⟩ | ⟨f, -, h⟩ <;> rw [h]
  · rw [commit_mem]
    cases p.memWrite with
    | none => exact hm
    | some m => exact storeValue_wf hm m.addr m.width m.value
  · exact hm
  · exact hm

/-- A STEP always gives a next state, and the host reads its result there (40_step_engine.md R110). -/
theorem cmdStep_of_step {s t : State} (h : step s = .next t) : cmdStep s = .next (t, replyOfStep t.lastStep) := by
  rw [cmdStep, h]

end Sys2Proof.Machine
end

