-- ==== Sys2Proof/Laws/Decode.lean ====
section
/-! SUPPORT. What the decoder can answer, said once, and which fixed bits each format of the encoder writes. -/

namespace Sys2Proof

theorem Row.accepts_iff (r : Row) (w : InstrWord) : r.accepts w = true ↔ w &&& r.mask = r.pat := by
  simp [Row.accepts]

/-- What the decoder can answer (30_encoding.md R103): what a row that accepts the word reads from it, or illegal when no row
accepts it. -/
theorem decodeWord_cases (w : InstrWord) :
    (∃ r ∈ opcodeTable, w &&& r.mask = r.pat ∧ decodeWord w = .ok (r.build w)) ∨
      ((∀ r ∈ opcodeTable, w &&& r.mask ≠ r.pat) ∧ decodeWord w = .error .illegal) := by
  unfold decodeWord
  cases h : opcodeTable.find? (fun r => r.accepts w) with
  | some r => exact .inl ⟨r, List.mem_of_find?_eq_some h, (r.accepts_iff w).mp (by simpa using List.find?_some h), rfl⟩
  | none =>
    refine .inr ⟨fun r hr => ?_, rfl⟩
    have := List.find?_eq_none.mp h r hr
    rwa [Row.accepts_iff] at this

/-! ## The fixed bits of the formats (R82 to R87) -/

theorem encFields_fixed (f : BitVec 12) (rs1 : RegIdx) (f3 : BitVec 3) (rd : RegIdx) (op : BitVec 7) :
    encFields f rs1 f3 rd op &&& 0x0000707f#32 = (0#17 ++ f3 ++ 0#5 ++ op : BitVec 32) := by
  unfold encFields
  apply BitVec.eq_of_getLsbD_eq
  intro i hi
  rw [BitVec.getLsbD_and]
  repeat rw [BitVec.getLsbD_append]
  interval_cases i <;> simp

theorem encI_fixed (imm : Word) (rs1 : RegIdx) (f3 : BitVec 3) (rd : RegIdx) (op : BitVec 7) :
    encI imm rs1 f3 rd op &&& 0x0000707f#32 = (0#17 ++ f3 ++ 0#5 ++ op : BitVec 32) :=
  encFields_fixed _ rs1 f3 rd op

theorem encShift_fixed (f6 sh : BitVec 6) (rs1 : RegIdx) (f3 : BitVec 3) (rd : RegIdx) (op : BitVec 7) :
    encFields (f6 ++ sh) rs1 f3 rd op &&& 0xfc00707f#32 = (f6 ++ 0#11 ++ f3 ++ 0#5 ++ op : BitVec 32) := by
  unfold encFields
  apply BitVec.eq_of_getLsbD_eq
  intro i hi
  rw [BitVec.getLsbD_and]
  repeat rw [BitVec.getLsbD_append]
  interval_cases i <;> simp

theorem encR_fixed (f7 : BitVec 7) (rs2 rs1 : RegIdx) (f3 : BitVec 3) (rd : RegIdx) (op : BitVec 7) :
    encR f7 rs2 rs1 f3 rd op &&& 0xfe00707f#32 = (f7 ++ 0#10 ++ f3 ++ 0#5 ++ op : BitVec 32) := by
  unfold encR
  apply BitVec.eq_of_getLsbD_eq
  intro i hi
  rw [BitVec.getLsbD_and]
  repeat rw [BitVec.getLsbD_append]
  interval_cases i <;> simp

theorem encS_fixed (imm : Word) (rs2 rs1 : RegIdx) (f3 : BitVec 3) (op : BitVec 7) :
    encS imm rs2 rs1 f3 op &&& 0x0000707f#32 = (0#17 ++ f3 ++ 0#5 ++ op : BitVec 32) := by
  unfold encS
  apply BitVec.eq_of_getLsbD_eq
  intro i hi
  rw [BitVec.getLsbD_and]
  repeat rw [BitVec.getLsbD_append]
  interval_cases i <;> simp

theorem encB_fixed (imm : Word) (rs2 rs1 : RegIdx) (f3 : BitVec 3) (op : BitVec 7) :
    encB imm rs2 rs1 f3 op &&& 0x0000707f#32 = (0#17 ++ f3 ++ 0#5 ++ op : BitVec 32) := by
  unfold encB
  apply BitVec.eq_of_getLsbD_eq
  intro i hi
  rw [BitVec.getLsbD_and]
  repeat rw [BitVec.getLsbD_append]
  interval_cases i <;> simp

theorem encU_fixed (imm : Word) (rd : RegIdx) (op : BitVec 7) :
    encU imm rd op &&& 0x0000007f#32 = (0#25 ++ op : BitVec 32) := by
  unfold encU
  apply BitVec.eq_of_getLsbD_eq
  intro i hi
  rw [BitVec.getLsbD_and]
  repeat rw [BitVec.getLsbD_append]
  interval_cases i <;> simp

theorem encJ_fixed (imm : Word) (rd : RegIdx) (op : BitVec 7) :
    encJ imm rd op &&& 0x0000007f#32 = (0#25 ++ op : BitVec 32) := by
  unfold encJ
  apply BitVec.eq_of_getLsbD_eq
  intro i hi
  rw [BitVec.getLsbD_and]
  repeat rw [BitVec.getLsbD_append]
  interval_cases i <;> simp

end Sys2Proof
end

