-- ==== Sys2Proof/Laws/PerInstr.lean ====
section
/-! SUPPORT. The family EncodesToRow: every instruction, whatever its fields, encodes to a word of the opcode-table row that
carries its mnemonic. It is about the instruction as syntax; that decoding gives the instruction back is a statement for the
provers. -/

namespace Sys2Proof.Laws.EncodesToRow

/-- The mnemonic of an instruction in spec/opcode_table.json. -/
def mnemonicOf : Instr → String
  | .lui _ _ => "LUI"
  | .auipc _ _ => "AUIPC"
  | .jal _ _ => "JAL"
  | .jalr _ _ _ => "JALR"
  | .beq _ _ _ => "BEQ"
  | .bne _ _ _ => "BNE"
  | .blt _ _ _ => "BLT"
  | .bge _ _ _ => "BGE"
  | .bltu _ _ _ => "BLTU"
  | .bgeu _ _ _ => "BGEU"
  | .lb _ _ _ => "LB"
  | .lh _ _ _ => "LH"
  | .lw _ _ _ => "LW"
  | .ld _ _ _ => "LD"
  | .lbu _ _ _ => "LBU"
  | .lhu _ _ _ => "LHU"
  | .lwu _ _ _ => "LWU"
  | .sb _ _ _ => "SB"
  | .sh _ _ _ => "SH"
  | .sw _ _ _ => "SW"
  | .sd _ _ _ => "SD"
  | .addi _ _ _ => "ADDI"
  | .slti _ _ _ => "SLTI"
  | .sltiu _ _ _ => "SLTIU"
  | .xori _ _ _ => "XORI"
  | .ori _ _ _ => "ORI"
  | .andi _ _ _ => "ANDI"
  | .slli _ _ _ => "SLLI"
  | .srli _ _ _ => "SRLI"
  | .srai _ _ _ => "SRAI"
  | .add _ _ _ => "ADD"
  | .sub _ _ _ => "SUB"
  | .sll _ _ _ => "SLL"
  | .slt _ _ _ => "SLT"
  | .sltu _ _ _ => "SLTU"
  | .xor _ _ _ => "XOR"
  | .srl _ _ _ => "SRL"
  | .sra _ _ _ => "SRA"
  | .or _ _ _ => "OR"
  | .and _ _ _ => "AND"
  | .addiw _ _ _ => "ADDIW"
  | .slliw _ _ _ => "SLLIW"
  | .srliw _ _ _ => "SRLIW"
  | .sraiw _ _ _ => "SRAIW"
  | .addw _ _ _ => "ADDW"
  | .subw _ _ _ => "SUBW"
  | .sllw _ _ _ => "SLLW"
  | .srlw _ _ _ => "SRLW"
  | .sraw _ _ _ => "SRAW"
  | .fence _ _ _ => "FENCE"
  | .ecall => "ECALL"
  | .ebreak => "EBREAK"

/-- The word of the instruction has the fixed bits of its own row (30_encoding.md R94). -/
def Statement (i : Instr) : Prop :=
  ∃ r ∈ opcodeTable, r.mnemonic = mnemonicOf i ∧ encode i &&& r.mask = r.pat

/-- A word with the fixed bits of row `k` gives the statement. -/
theorem of_row {i : Instr} (k : Nat) (hk : k < opcodeTable.length) (hm : opcodeTable[k].mnemonic = mnemonicOf i)
    (he : encode i &&& opcodeTable[k].mask = opcodeTable[k].pat) : Statement i :=
  ⟨opcodeTable[k], List.getElem_mem hk, hm, he⟩

theorem lui (rd : RegIdx) (imm : Word) : Statement (.lui rd imm) :=
  of_row 0 (by decide) rfl ((encU_fixed _ _ _).trans rfl)
theorem auipc (rd : RegIdx) (imm : Word) : Statement (.auipc rd imm) :=
  of_row 1 (by decide) rfl ((encU_fixed _ _ _).trans rfl)
theorem jal (rd : RegIdx) (imm : Word) : Statement (.jal rd imm) :=
  of_row 2 (by decide) rfl ((encJ_fixed _ _ _).trans rfl)
theorem jalr (rd : RegIdx) (rs1 : RegIdx) (imm : Word) : Statement (.jalr rd rs1 imm) :=
  of_row 3 (by decide) rfl ((encI_fixed _ _ _ _ _).trans rfl)
theorem beq (rs1 : RegIdx) (rs2 : RegIdx) (imm : Word) : Statement (.beq rs1 rs2 imm) :=
  of_row 4 (by decide) rfl ((encB_fixed _ _ _ _ _).trans rfl)
theorem bne (rs1 : RegIdx) (rs2 : RegIdx) (imm : Word) : Statement (.bne rs1 rs2 imm) :=
  of_row 5 (by decide) rfl ((encB_fixed _ _ _ _ _).trans rfl)
theorem blt (rs1 : RegIdx) (rs2 : RegIdx) (imm : Word) : Statement (.blt rs1 rs2 imm) :=
  of_row 6 (by decide) rfl ((encB_fixed _ _ _ _ _).trans rfl)
theorem bge (rs1 : RegIdx) (rs2 : RegIdx) (imm : Word) : Statement (.bge rs1 rs2 imm) :=
  of_row 7 (by decide) rfl ((encB_fixed _ _ _ _ _).trans rfl)
theorem bltu (rs1 : RegIdx) (rs2 : RegIdx) (imm : Word) : Statement (.bltu rs1 rs2 imm) :=
  of_row 8 (by decide) rfl ((encB_fixed _ _ _ _ _).trans rfl)
theorem bgeu (rs1 : RegIdx) (rs2 : RegIdx) (imm : Word) : Statement (.bgeu rs1 rs2 imm) :=
  of_row 9 (by decide) rfl ((encB_fixed _ _ _ _ _).trans rfl)
theorem lb (rd : RegIdx) (rs1 : RegIdx) (imm : Word) : Statement (.lb rd rs1 imm) :=
  of_row 10 (by decide) rfl ((encI_fixed _ _ _ _ _).trans rfl)
theorem lh (rd : RegIdx) (rs1 : RegIdx) (imm : Word) : Statement (.lh rd rs1 imm) :=
  of_row 11 (by decide) rfl ((encI_fixed _ _ _ _ _).trans rfl)
theorem lw (rd : RegIdx) (rs1 : RegIdx) (imm : Word) : Statement (.lw rd rs1 imm) :=
  of_row 12 (by decide) rfl ((encI_fixed _ _ _ _ _).trans rfl)
theorem ld (rd : RegIdx) (rs1 : RegIdx) (imm : Word) : Statement (.ld rd rs1 imm) :=
  of_row 13 (by decide) rfl ((encI_fixed _ _ _ _ _).trans rfl)
theorem lbu (rd : RegIdx) (rs1 : RegIdx) (imm : Word) : Statement (.lbu rd rs1 imm) :=
  of_row 14 (by decide) rfl ((encI_fixed _ _ _ _ _).trans rfl)
theorem lhu (rd : RegIdx) (rs1 : RegIdx) (imm : Word) : Statement (.lhu rd rs1 imm) :=
  of_row 15 (by decide) rfl ((encI_fixed _ _ _ _ _).trans rfl)
theorem lwu (rd : RegIdx) (rs1 : RegIdx) (imm : Word) : Statement (.lwu rd rs1 imm) :=
  of_row 16 (by decide) rfl ((encI_fixed _ _ _ _ _).trans rfl)
theorem sb (rs2 : RegIdx) (rs1 : RegIdx) (imm : Word) : Statement (.sb rs2 rs1 imm) :=
  of_row 17 (by decide) rfl ((encS_fixed _ _ _ _ _).trans rfl)
theorem sh (rs2 : RegIdx) (rs1 : RegIdx) (imm : Word) : Statement (.sh rs2 rs1 imm) :=
  of_row 18 (by decide) rfl ((encS_fixed _ _ _ _ _).trans rfl)
theorem sw (rs2 : RegIdx) (rs1 : RegIdx) (imm : Word) : Statement (.sw rs2 rs1 imm) :=
  of_row 19 (by decide) rfl ((encS_fixed _ _ _ _ _).trans rfl)
theorem sd (rs2 : RegIdx) (rs1 : RegIdx) (imm : Word) : Statement (.sd rs2 rs1 imm) :=
  of_row 20 (by decide) rfl ((encS_fixed _ _ _ _ _).trans rfl)
theorem addi (rd : RegIdx) (rs1 : RegIdx) (imm : Word) : Statement (.addi rd rs1 imm) :=
  of_row 21 (by decide) rfl ((encI_fixed _ _ _ _ _).trans rfl)
theorem slti (rd : RegIdx) (rs1 : RegIdx) (imm : Word) : Statement (.slti rd rs1 imm) :=
  of_row 22 (by decide) rfl ((encI_fixed _ _ _ _ _).trans rfl)
theorem sltiu (rd : RegIdx) (rs1 : RegIdx) (imm : Word) : Statement (.sltiu rd rs1 imm) :=
  of_row 23 (by decide) rfl ((encI_fixed _ _ _ _ _).trans rfl)
theorem xori (rd : RegIdx) (rs1 : RegIdx) (imm : Word) : Statement (.xori rd rs1 imm) :=
  of_row 24 (by decide) rfl ((encI_fixed _ _ _ _ _).trans rfl)
theorem ori (rd : RegIdx) (rs1 : RegIdx) (imm : Word) : Statement (.ori rd rs1 imm) :=
  of_row 25 (by decide) rfl ((encI_fixed _ _ _ _ _).trans rfl)
theorem andi (rd : RegIdx) (rs1 : RegIdx) (imm : Word) : Statement (.andi rd rs1 imm) :=
  of_row 26 (by decide) rfl ((encI_fixed _ _ _ _ _).trans rfl)
theorem slli (rd : RegIdx) (rs1 : RegIdx) (shamt : BitVec 6) : Statement (.slli rd rs1 shamt) :=
  of_row 27 (by decide) rfl ((encShift_fixed _ _ _ _ _ _).trans rfl)
theorem srli (rd : RegIdx) (rs1 : RegIdx) (shamt : BitVec 6) : Statement (.srli rd rs1 shamt) :=
  of_row 28 (by decide) rfl ((encShift_fixed _ _ _ _ _ _).trans rfl)
theorem srai (rd : RegIdx) (rs1 : RegIdx) (shamt : BitVec 6) : Statement (.srai rd rs1 shamt) :=
  of_row 29 (by decide) rfl ((encShift_fixed _ _ _ _ _ _).trans rfl)
theorem add (rd : RegIdx) (rs1 : RegIdx) (rs2 : RegIdx) : Statement (.add rd rs1 rs2) :=
  of_row 30 (by decide) rfl ((encR_fixed _ _ _ _ _ _).trans rfl)
theorem sub (rd : RegIdx) (rs1 : RegIdx) (rs2 : RegIdx) : Statement (.sub rd rs1 rs2) :=
  of_row 31 (by decide) rfl ((encR_fixed _ _ _ _ _ _).trans rfl)
theorem sll (rd : RegIdx) (rs1 : RegIdx) (rs2 : RegIdx) : Statement (.sll rd rs1 rs2) :=
  of_row 32 (by decide) rfl ((encR_fixed _ _ _ _ _ _).trans rfl)
theorem slt (rd : RegIdx) (rs1 : RegIdx) (rs2 : RegIdx) : Statement (.slt rd rs1 rs2) :=
  of_row 33 (by decide) rfl ((encR_fixed _ _ _ _ _ _).trans rfl)
theorem sltu (rd : RegIdx) (rs1 : RegIdx) (rs2 : RegIdx) : Statement (.sltu rd rs1 rs2) :=
  of_row 34 (by decide) rfl ((encR_fixed _ _ _ _ _ _).trans rfl)
theorem xor (rd : RegIdx) (rs1 : RegIdx) (rs2 : RegIdx) : Statement (.xor rd rs1 rs2) :=
  of_row 35 (by decide) rfl ((encR_fixed _ _ _ _ _ _).trans rfl)
theorem srl (rd : RegIdx) (rs1 : RegIdx) (rs2 : RegIdx) : Statement (.srl rd rs1 rs2) :=
  of_row 36 (by decide) rfl ((encR_fixed _ _ _ _ _ _).trans rfl)
theorem sra (rd : RegIdx) (rs1 : RegIdx) (rs2 : RegIdx) : Statement (.sra rd rs1 rs2) :=
  of_row 37 (by decide) rfl ((encR_fixed _ _ _ _ _ _).trans rfl)
theorem or (rd : RegIdx) (rs1 : RegIdx) (rs2 : RegIdx) : Statement (.or rd rs1 rs2) :=
  of_row 38 (by decide) rfl ((encR_fixed _ _ _ _ _ _).trans rfl)
theorem and (rd : RegIdx) (rs1 : RegIdx) (rs2 : RegIdx) : Statement (.and rd rs1 rs2) :=
  of_row 39 (by decide) rfl ((encR_fixed _ _ _ _ _ _).trans rfl)
theorem addiw (rd : RegIdx) (rs1 : RegIdx) (imm : Word) : Statement (.addiw rd rs1 imm) :=
  of_row 40 (by decide) rfl ((encI_fixed _ _ _ _ _).trans rfl)
theorem slliw (rd : RegIdx) (rs1 : RegIdx) (shamt : BitVec 5) : Statement (.slliw rd rs1 shamt) :=
  of_row 41 (by decide) rfl ((encR_fixed _ _ _ _ _ _).trans rfl)
theorem srliw (rd : RegIdx) (rs1 : RegIdx) (shamt : BitVec 5) : Statement (.srliw rd rs1 shamt) :=
  of_row 42 (by decide) rfl ((encR_fixed _ _ _ _ _ _).trans rfl)
theorem sraiw (rd : RegIdx) (rs1 : RegIdx) (shamt : BitVec 5) : Statement (.sraiw rd rs1 shamt) :=
  of_row 43 (by decide) rfl ((encR_fixed _ _ _ _ _ _).trans rfl)
theorem addw (rd : RegIdx) (rs1 : RegIdx) (rs2 : RegIdx) : Statement (.addw rd rs1 rs2) :=
  of_row 44 (by decide) rfl ((encR_fixed _ _ _ _ _ _).trans rfl)
theorem subw (rd : RegIdx) (rs1 : RegIdx) (rs2 : RegIdx) : Statement (.subw rd rs1 rs2) :=
  of_row 45 (by decide) rfl ((encR_fixed _ _ _ _ _ _).trans rfl)
theorem sllw (rd : RegIdx) (rs1 : RegIdx) (rs2 : RegIdx) : Statement (.sllw rd rs1 rs2) :=
  of_row 46 (by decide) rfl ((encR_fixed _ _ _ _ _ _).trans rfl)
theorem srlw (rd : RegIdx) (rs1 : RegIdx) (rs2 : RegIdx) : Statement (.srlw rd rs1 rs2) :=
  of_row 47 (by decide) rfl ((encR_fixed _ _ _ _ _ _).trans rfl)
theorem sraw (rd : RegIdx) (rs1 : RegIdx) (rs2 : RegIdx) : Statement (.sraw rd rs1 rs2) :=
  of_row 48 (by decide) rfl ((encR_fixed _ _ _ _ _ _).trans rfl)
theorem fence (ignored : BitVec 12) (rs1 : RegIdx) (rd : RegIdx) : Statement (.fence ignored rs1 rd) :=
  of_row 49 (by decide) rfl ((encFields_fixed _ _ _ _ _).trans rfl)
theorem ecall : Statement .ecall :=
  of_row 50 (by decide) rfl rfl
theorem ebreak : Statement .ebreak :=
  of_row 51 (by decide) rfl rfl

end Sys2Proof.Laws.EncodesToRow
end

