-- ==== Sys2Proof/Tests/Slice0.lean ====
section
/-! SUPPORT. The model's own tests. Expected values are those of the spec: its tables of vectors (95_test_vectors.md, cited by
section) and the examples of its rules. Then, for every statement of Certificates/Slice0/Obligations.lean that has hypotheses, a
theorem that shows concrete states and operands meeting them, clause by clause and at the boundaries. -/

namespace Sys2Proof.Machine

/-- A running core with the reset configuration, the pc and the registers given. -/
def ready (pc : Word) (regs : List (RegIdx × Word)) : State :=
  regs.foldl (fun s p => s.setReg p.1 p.2) { State.reset with pc := pc, tag := .running }

/-- The state after one step of the word placed at the pc. -/
def State.ran (s : State) (w : Nat) : Option State :=
  match step (s.withFetchWord 32 w) with
  | .next t => some t
  | _ => none

/-- One register, the pc, the tag and the reported result. -/
def outcome (r : RegIdx) (t : Option State) : Option (Word × Word × Tag × StepResult) :=
  t.bind fun t => t.lastStep.map fun e => (t.getReg r, t.pc, t.tag, e)

/-- Some doublewords of memory, the pc, the tag and the reported result. -/
def stored (as : List Nat) (t : Option State) : Option (List Word × Word × Tag × StepResult) :=
  t.bind fun t => t.lastStep.map fun e => (as.map fun a => t.loadValue a .dword, t.pc, t.tag, e)

/-- The memory of the load vectors (95_test_vectors.md, section 2.4). -/
def loadState (regs : List (RegIdx × Word)) : State :=
  ((ready 0x80000000 regs).storeValue 0x80000100 .dword 0xffeeddccbbaa9988).storeValue 0x80000ff8 .dword 0x0807060504030201

/-- The memory of the store vectors. -/
def storeState (regs : List (RegIdx × Word)) : State :=
  ((ready 0x80000000 regs).storeValue 0x80000100 .dword 0x1111111111111111).storeValue 0x80000108 .dword 0x1111111111111111

/-- The memory of the store bounds vectors. -/
def storeEdgeState (regs : List (RegIdx × Word)) : State :=
  (ready 0x80000000 regs).storeValue 0x80000ff8 .dword 0x1111111111111111

/-! ## Well-formedness refuses what no word can hold (30_encoding.md R88 to R92) -/

theorem test_wf_refuses_immI : (Instr.addi 1 0 2048).wellFormed = false ∧ (Instr.lw 1 2 (-2049)).wellFormed = false ∧
    (Instr.addi 1 0 2047).wellFormed = true ∧ (Instr.lw 1 2 (-2048)).wellFormed = true := by decide

theorem test_wf_refuses_immS : (Instr.sd 1 2 2048).wellFormed = false ∧ (Instr.sb 1 2 (-2049)).wellFormed = false ∧
    (Instr.sd 1 2 2047).wellFormed = true ∧ (Instr.sb 1 2 (-2048)).wellFormed = true := by decide

theorem test_wf_refuses_immB : (Instr.beq 0 0 15).wellFormed = false ∧ (Instr.bgeu 0 0 4096).wellFormed = false ∧
    (Instr.blt 0 0 (-4098)).wellFormed = false ∧ (Instr.bne 0 0 4094).wellFormed = true ∧
    (Instr.bge 0 0 (-4096)).wellFormed = true := by decide

theorem test_wf_refuses_immU : (Instr.lui 1 1).wellFormed = false ∧ (Instr.lui 1 0x80000000).wellFormed = false ∧
    (Instr.auipc 1 (-0x80001000)).wellFormed = false ∧ (Instr.auipc 1 (-0x80000000)).wellFormed = true ∧
    (Instr.lui 1 0x7ffff000).wellFormed = true := by decide

theorem test_wf_refuses_immJ : (Instr.jal 1 1).wellFormed = false ∧ (Instr.jal 1 1048576).wellFormed = false ∧
    (Instr.jal 1 (-1048578)).wellFormed = false ∧ (Instr.jal 1 1048574).wellFormed = true ∧
    (Instr.jal 1 (-1048576)).wellFormed = true := by decide

/-! ## Decoding and encoding, one word of every instruction (words and texts: 95_test_vectors.md, sections 2.1 to 2.5) -/

theorem test_decode_lui :
    decodeWord 0x800000b7 = .ok (.lui 1 0xffffffff80000000) ∧ encode (.lui 1 0xffffffff80000000) = 0x800000b7 := by decide
theorem test_decode_auipc :
    decodeWord 0xfffff097 = .ok (.auipc 1 0xfffffffffffff000) ∧ encode (.auipc 1 0xfffffffffffff000) = 0xfffff097 := by decide
theorem test_decode_jal : decodeWord 0xff1ff0ef = .ok (.jal 1 (-16)) ∧ encode (.jal 1 (-16)) = 0xff1ff0ef := by decide
theorem test_decode_jalr : decodeWord 0x004100e7 = .ok (.jalr 1 2 4) ∧ encode (.jalr 1 2 4) = 0x004100e7 := by decide
theorem test_decode_beq : decodeWord 0x7e000fe3 = .ok (.beq 0 0 4094) ∧ encode (.beq 0 0 4094) = 0x7e000fe3 := by decide
theorem test_decode_bne : decodeWord 0xfc001ee3 = .ok (.bne 0 0 (-36)) ∧ encode (.bne 0 0 (-36)) = 0xfc001ee3 := by decide
theorem test_decode_blt : decodeWord 0x0020c863 = .ok (.blt 1 2 16) ∧ encode (.blt 1 2 16) = 0x0020c863 := by decide
theorem test_decode_bge : decodeWord 0x0020d863 = .ok (.bge 1 2 16) ∧ encode (.bge 1 2 16) = 0x0020d863 := by decide
theorem test_decode_bltu : decodeWord 0x0020e863 = .ok (.bltu 1 2 16) ∧ encode (.bltu 1 2 16) = 0x0020e863 := by decide
theorem test_decode_bgeu : decodeWord 0x0020f863 = .ok (.bgeu 1 2 16) ∧ encode (.bgeu 1 2 16) = 0x0020f863 := by decide
theorem test_decode_lb : decodeWord 0x00710083 = .ok (.lb 1 2 7) ∧ encode (.lb 1 2 7) = 0x00710083 := by decide
theorem test_decode_lh : decodeWord 0x00111083 = .ok (.lh 1 2 1) ∧ encode (.lh 1 2 1) = 0x00111083 := by decide
theorem test_decode_lw : decodeWord 0x00312083 = .ok (.lw 1 2 3) ∧ encode (.lw 1 2 3) = 0x00312083 := by decide
theorem test_decode_ld : decodeWord 0xffd13083 = .ok (.ld 1 2 (-3)) ∧ encode (.ld 1 2 (-3)) = 0xffd13083 := by decide
theorem test_decode_lbu : decodeWord 0x00014083 = .ok (.lbu 1 2 0) ∧ encode (.lbu 1 2 0) = 0x00014083 := by decide
theorem test_decode_lhu : decodeWord 0x00015083 = .ok (.lhu 1 2 0) ∧ encode (.lhu 1 2 0) = 0x00015083 := by decide
theorem test_decode_lwu : decodeWord 0x00416083 = .ok (.lwu 1 2 4) ∧ encode (.lwu 1 2 4) = 0x00416083 := by decide
theorem test_decode_sb : decodeWord 0xfe310fa3 = .ok (.sb 3 2 (-1)) ∧ encode (.sb 3 2 (-1)) = 0xfe310fa3 := by decide
theorem test_decode_sh : decodeWord 0x003113a3 = .ok (.sh 3 2 7) ∧ encode (.sh 3 2 7) = 0x003113a3 := by decide
theorem test_decode_sw : decodeWord 0x00312323 = .ok (.sw 3 2 6) ∧ encode (.sw 3 2 6) = 0x00312323 := by decide
theorem test_decode_sd : decodeWord 0xfe313c23 = .ok (.sd 3 2 (-8)) ∧ encode (.sd 3 2 (-8)) = 0xfe313c23 := by decide
theorem test_decode_addi : decodeWord 0x80010093 = .ok (.addi 1 2 (-2048)) ∧ encode (.addi 1 2 (-2048)) = 0x80010093 := by decide
theorem test_decode_slti : decodeWord 0xfff12093 = .ok (.slti 1 2 (-1)) ∧ encode (.slti 1 2 (-1)) = 0xfff12093 := by decide
theorem test_decode_sltiu : decodeWord 0xfff13093 = .ok (.sltiu 1 2 (-1)) ∧ encode (.sltiu 1 2 (-1)) = 0xfff13093 := by decide
theorem test_decode_xori : decodeWord 0xfff14093 = .ok (.xori 1 2 (-1)) ∧ encode (.xori 1 2 (-1)) = 0xfff14093 := by decide
theorem test_decode_ori : decodeWord 0x80016093 = .ok (.ori 1 2 (-2048)) ∧ encode (.ori 1 2 (-2048)) = 0x80016093 := by decide
theorem test_decode_andi : decodeWord 0xff017093 = .ok (.andi 1 2 (-16)) ∧ encode (.andi 1 2 (-16)) = 0xff017093 := by decide
theorem test_decode_slli : decodeWord 0x03f11093 = .ok (.slli 1 2 63) ∧ encode (.slli 1 2 63) = 0x03f11093 := by decide
theorem test_decode_srli : decodeWord 0x03f15093 = .ok (.srli 1 2 63) ∧ encode (.srli 1 2 63) = 0x03f15093 := by decide
theorem test_decode_srai : decodeWord 0x43f15093 = .ok (.srai 1 2 63) ∧ encode (.srai 1 2 63) = 0x43f15093 := by decide
theorem test_decode_add : decodeWord 0x003100b3 = .ok (.add 1 2 3) ∧ encode (.add 1 2 3) = 0x003100b3 := by decide
theorem test_decode_sub : decodeWord 0x403100b3 = .ok (.sub 1 2 3) ∧ encode (.sub 1 2 3) = 0x403100b3 := by decide
theorem test_decode_sll : decodeWord 0x003110b3 = .ok (.sll 1 2 3) ∧ encode (.sll 1 2 3) = 0x003110b3 := by decide
theorem test_decode_slt : decodeWord 0x003120b3 = .ok (.slt 1 2 3) ∧ encode (.slt 1 2 3) = 0x003120b3 := by decide
theorem test_decode_sltu : decodeWord 0x003130b3 = .ok (.sltu 1 2 3) ∧ encode (.sltu 1 2 3) = 0x003130b3 := by decide
theorem test_decode_xor : decodeWord 0x003140b3 = .ok (.xor 1 2 3) ∧ encode (.xor 1 2 3) = 0x003140b3 := by decide
theorem test_decode_srl : decodeWord 0x003150b3 = .ok (.srl 1 2 3) ∧ encode (.srl 1 2 3) = 0x003150b3 := by decide
theorem test_decode_sra : decodeWord 0x403150b3 = .ok (.sra 1 2 3) ∧ encode (.sra 1 2 3) = 0x403150b3 := by decide
theorem test_decode_or : decodeWord 0x003160b3 = .ok (.or 1 2 3) ∧ encode (.or 1 2 3) = 0x003160b3 := by decide
theorem test_decode_and : decodeWord 0x003170b3 = .ok (.and 1 2 3) ∧ encode (.and 1 2 3) = 0x003170b3 := by decide
theorem test_decode_addiw : decodeWord 0x0011009b = .ok (.addiw 1 2 1) ∧ encode (.addiw 1 2 1) = 0x0011009b := by decide
theorem test_decode_slliw : decodeWord 0x01f1109b = .ok (.slliw 1 2 31) ∧ encode (.slliw 1 2 31) = 0x01f1109b := by decide
theorem test_decode_srliw : decodeWord 0x01f1509b = .ok (.srliw 1 2 31) ∧ encode (.srliw 1 2 31) = 0x01f1509b := by decide
theorem test_decode_sraiw : decodeWord 0x41f1509b = .ok (.sraiw 1 2 31) ∧ encode (.sraiw 1 2 31) = 0x41f1509b := by decide
theorem test_decode_addw : decodeWord 0x003100bb = .ok (.addw 1 2 3) ∧ encode (.addw 1 2 3) = 0x003100bb := by decide
theorem test_decode_subw : decodeWord 0x403100bb = .ok (.subw 1 2 3) ∧ encode (.subw 1 2 3) = 0x403100bb := by decide
theorem test_decode_sllw : decodeWord 0x003110bb = .ok (.sllw 1 2 3) ∧ encode (.sllw 1 2 3) = 0x003110bb := by decide
theorem test_decode_srlw : decodeWord 0x003150bb = .ok (.srlw 1 2 3) ∧ encode (.srlw 1 2 3) = 0x003150bb := by decide
theorem test_decode_sraw : decodeWord 0x403150bb = .ok (.sraw 1 2 3) ∧ encode (.sraw 1 2 3) = 0x403150bb := by decide
theorem test_decode_fence : decodeWord 0x8330000f = .ok (.fence 0x833 0 0) ∧ encode (.fence 0x833 0 0) = 0x8330000f := by decide
theorem test_decode_ecall : decodeWord 0x00000073 = .ok (.ecall) ∧ encode (.ecall) = 0x00000073 := by decide
theorem test_decode_ebreak : decodeWord 0x00100073 = .ok (.ebreak) ∧ encode (.ebreak) = 0x00100073 := by decide

/-- The bytes as the hardware stores them, lowest address first (section 1.1), and the table's numbering of a word's bits. -/
theorem test_decode_bytes : decode [0x93, 0x00, 0xa0, 0x02, 0x13] = .ok (.addi 1 0 42, [0x13]) ∧
    decode [0x93, 0x00, 0xa0] = .error .truncated ∧ decodeTableWord 32 0x02a00093 = some (.addi 1 0 42) ∧
    decodeTableWord 32 0x00000000 = none ∧ decodeTableWord 7 0xfff00037 = some (.lui 0 0) := by decide

/-- The immediates of section 2.10 at the ends of their ranges. -/
theorem test_immediates : (immI 0x80010093).toInt = -2048 ∧ (immS 0x7e310fa3).toInt = 2047 ∧ (immB 0x7e000fe3).toInt = 4094 ∧
    (immB 0x8020c063).toInt = -4096 ∧ (immB 0x0020d0e3).toInt = 2048 ∧ (immU 0x800000b7).toInt = -2147483648 ∧
    (immU 0x7ffff0b7).toInt = 2147479552 ∧ (immJ 0x7ffff06f).toInt = 1048574 ∧ (immJ 0x8000006f).toInt = -1048576 ∧
    (immJ 0x001000ef).toInt = 2048 := by decide

/-- The opcode table has 52 rows, and no row's match has a bit outside its mask (30_encoding.md R94). -/
theorem test_rows : opcodeTable.length = 52 ∧ (∀ r ∈ opcodeTable, r.pat &&& r.mask = r.pat) := by decide

/-- The words of section 2.6 are illegal, six at a time. -/
theorem test_illegal_words_1 : [(0x00000000 : InstrWord), 0xffffffff, 0x00000001, 0x00000002, 0x0000100f, 0x0000200f].all
    (fun w => decodeWord w == .error .illegal) = true := by decide
theorem test_illegal_words_2 : [(0x30200073 : InstrWord), 0x10200073, 0x10500073, 0x12000073, 0x00001073, 0xc0002573].all
    (fun w => decodeWord w == .error .illegal) = true := by decide
theorem test_illegal_words_3 : [(0x000000f3 : InstrWord), 0x00008073, 0x00200073, 0x02208033, 0x0220c0b3, 0x0220803b].all
    (fun w => decodeWord w == .error .illegal) = true := by decide
theorem test_illegal_words_4 : [(0x40001033 : InstrWord), 0x20000033, 0x1000202f, 0x0000302f, 0x00002007, 0x00000053].all
    (fun w => decodeWord w == .error .illegal) = true := by decide
theorem test_illegal_words_5 : [(0x00000057 : InstrWord), 0x0000000b, 0x00007003, 0x00004023, 0x00002063, 0x00003063].all
    (fun w => decodeWord w == .error .illegal) = true := by decide
theorem test_illegal_words_6 : [(0x00001067 : InstrWord), 0xfc001013, 0x40001013, 0x80005013, 0x04001013, 0x0200101b].all
    (fun w => decodeWord w == .error .illegal) = true := by decide
theorem test_illegal_words_7 : [(0x0200501b : InstrWord), 0x4200501b, 0x0000201b, 0x0000203b, 0x4000103b].all
    (fun w => decodeWord w == .error .illegal) = true := by decide

/-! ## One step of every instruction (95_test_vectors.md, sections 2.1 to 2.5) -/

/-- `lui x1, 0x80000`. -/
theorem test_lui_1 :
    outcome 1 ((ready 0x80000000 []).ran 0x800000b7) = some (0xffffffff80000000, 0x80000004, .running, .ok .retired) := by decide
/-- `auipc x1, 0x80000`. -/
theorem test_auipc_1 :
    outcome 1 ((ready 0x80000000 []).ran 0x80000097) = some (0x0000000000000000, 0x80000004, .running, .ok .retired) := by decide
/-- `auipc x1, 0xfffff`. -/
theorem test_auipc_2 :
    outcome 1 ((ready 0x80000000 []).ran 0xfffff097) = some (0x000000007ffff000, 0x80000004, .running, .ok .retired) := by decide
/-- `jal x1, -16`. -/
theorem test_jal_1 :
    outcome 1 ((ready 0x80000100 []).ran 0xff1ff0ef) = some (0x0000000080000104, 0x800000f0, .running, .ok .retired) := by decide
/-- `jal x1, 0x1000`. -/
theorem test_jal_2 :
    outcome 1 ((ready 0x80000000 [(1, 0x0000000000000055)]).ran 0x000010ef) =
      some (0x0000000000000055, 0x80000000, .faulted, .err .memoryFault) := by decide
/-- `jalr x1, 0(x1)`. -/
theorem test_jalr_1 :
    outcome 1 ((ready 0x80000000 [(1, 0x0000000080000040)]).ran 0x000080e7) =
      some (0x0000000080000004, 0x80000040, .running, .ok .retired) := by decide
/-- `jalr x1, 2047(x2)`. -/
theorem test_jalr_2 :
    outcome 1 ((ready 0x80000000 [(2, 0xffffffffffffffff), (1, 0x0000000000000055)]).ran 0x7ff100e7) =
      some (0x0000000000000055, 0x80000000, .faulted, .err .memoryFault) := by decide
/-- `beq x1, x2, 16`. -/
theorem test_beq_1 :
    outcome 0 ((ready 0x80000020 [(1, 0x0000000000000005), (2, 0x0000000000000006)]).ran 0x00208863) =
      some (0, 0x80000024, .running, .ok .retired) := by decide
/-- `beq x0, x0, -32`. -/
theorem test_beq_2 : outcome 0 ((ready 0x80000020 []).ran 0xfe0000e3) = some (0, 0x80000000, .running, .ok .retired) := by decide
/-- `bne x1, x2, 16`. -/
theorem test_bne_1 :
    outcome 0 ((ready 0x80000020 [(1, 0x0000000000000005), (2, 0x0000000000000006)]).ran 0x00209863) =
      some (0, 0x80000030, .running, .ok .retired) := by decide
/-- `bne x0, x0, -36`. -/
theorem test_bne_2 : outcome 0 ((ready 0x80000020 []).ran 0xfc001ee3) = some (0, 0x80000024, .running, .ok .retired) := by decide
/-- `blt x1, x2, 16`. -/
theorem test_blt_1 :
    outcome 0 ((ready 0x80000020 [(1, 0xffffffffffffffff), (2, 0x0000000000000001)]).ran 0x0020c863) =
      some (0, 0x80000030, .running, .ok .retired) := by decide
/-- `blt x1, x2, 16`. -/
theorem test_blt_2 :
    outcome 0 ((ready 0x80000020 [(1, 0x0000000000000001), (2, 0xffffffffffffffff)]).ran 0x0020c863) =
      some (0, 0x80000024, .running, .ok .retired) := by decide
/-- `bge x1, x2, 16`. -/
theorem test_bge_1 :
    outcome 0 ((ready 0x80000020 [(1, 0x0000000000000007), (2, 0x0000000000000007)]).ran 0x0020d863) =
      some (0, 0x80000030, .running, .ok .retired) := by decide
/-- `bge x1, x2, 16`. -/
theorem test_bge_2 :
    outcome 0 ((ready 0x80000020 [(1, 0x8000000000000000), (2, 0x7fffffffffffffff)]).ran 0x0020d863) =
      some (0, 0x80000024, .running, .ok .retired) := by decide
/-- `bltu x1, x2, 16`. -/
theorem test_bltu_1 :
    outcome 0 ((ready 0x80000020 [(1, 0x0000000000000001), (2, 0xffffffffffffffff)]).ran 0x0020e863) =
      some (0, 0x80000030, .running, .ok .retired) := by decide
/-- `bltu x1, x2, 16`. -/
theorem test_bltu_2 :
    outcome 0 ((ready 0x80000020 [(1, 0xffffffffffffffff), (2, 0x0000000000000001)]).ran 0x0020e863) =
      some (0, 0x80000024, .running, .ok .retired) := by decide
/-- `bgeu x1, x2, 16`. -/
theorem test_bgeu_1 :
    outcome 0 ((ready 0x80000020 [(1, 0xffffffffffffffff), (2, 0x0000000000000001)]).ran 0x0020f863) =
      some (0, 0x80000030, .running, .ok .retired) := by decide
/-- `bgeu x1, x2, 16`. -/
theorem test_bgeu_2 :
    outcome 0 ((ready 0x80000020 [(1, 0x0000000000000001), (2, 0xffffffffffffffff)]).ran 0x0020f863) =
      some (0, 0x80000024, .running, .ok .retired) := by decide
/-- `lb x1, 0(x2)`. -/
theorem test_lb_1 :
    outcome 1 ((loadState [(2, 0x0000000080000100)]).ran 0x00010083) =
      some (0xffffffffffffff88, 0x80000004, .running, .ok .retired) := by decide
/-- `lb x1, 1(x2)`. -/
theorem test_lb_2 :
    outcome 1 ((loadState [(2, 0x0000000080000fff), (1, 0x0000000000000055)]).ran 0x00110083) =
      some (0x0000000000000055, 0x80000000, .faulted, .err .memoryFault) := by decide
/-- `lh x1, 1(x2)`. -/
theorem test_lh_1 :
    outcome 1 ((loadState [(2, 0x0000000080000100)]).ran 0x00111083) =
      some (0xffffffffffffaa99, 0x80000004, .running, .ok .retired) := by decide
/-- `lh x1, 0(x2)`. -/
theorem test_lh_2 :
    outcome 1 ((loadState [(2, 0x0000000080000fff), (1, 0x0000000000000055)]).ran 0x00011083) =
      some (0x0000000000000055, 0x80000000, .faulted, .err .memoryFault) := by decide
/-- `lw x1, 3(x2)`. -/
theorem test_lw_1 :
    outcome 1 ((loadState [(2, 0x0000000080000100)]).ran 0x00312083) =
      some (0xffffffffeeddccbb, 0x80000004, .running, .ok .retired) := by decide
/-- `lw x1, -1(x2)`. -/
theorem test_lw_2 :
    outcome 1 ((loadState [(2, 0x0000000080000000), (1, 0x0000000000000055)]).ran 0xfff12083) =
      some (0x0000000000000055, 0x80000000, .faulted, .err .memoryFault) := by decide
/-- `ld x1, 0(x1)`. -/
theorem test_ld_1 :
    outcome 1 ((loadState [(1, 0x0000000080000100)]).ran 0x0000b083) =
      some (0xffeeddccbbaa9988, 0x80000004, .running, .ok .retired) := by decide
/-- `ld x1, 1(x2)`. -/
theorem test_ld_2 :
    outcome 1 ((loadState [(2, 0x0000000080000ff8), (1, 0x0000000000000055)]).ran 0x00113083) =
      some (0x0000000000000055, 0x80000000, .faulted, .err .memoryFault) := by decide
/-- `lbu x1, 0(x2)`. -/
theorem test_lbu_1 :
    outcome 1 ((loadState [(2, 0x0000000080000100)]).ran 0x00014083) =
      some (0x0000000000000088, 0x80000004, .running, .ok .retired) := by decide
/-- `lhu x1, 0(x2)`. -/
theorem test_lhu_1 :
    outcome 1 ((loadState [(2, 0x0000000080000100)]).ran 0x00015083) =
      some (0x0000000000009988, 0x80000004, .running, .ok .retired) := by decide
/-- `lwu x1, 0(x2)`. -/
theorem test_lwu_1 :
    outcome 1 ((loadState [(2, 0x0000000080000100)]).ran 0x00016083) =
      some (0x00000000bbaa9988, 0x80000004, .running, .ok .retired) := by decide
/-- `sb x3, 7(x2)`. -/
theorem test_sb_1 :
    stored [0x80000100, 0x80000108] ((storeState [(2, 0x0000000080000100), (3, 0x0123456789abcdef)]).ran 0x003103a3) =
      some ([0xef11111111111111, 0x1111111111111111], 0x80000004, .running, .ok .retired) := by decide
/-- `sb x3, 8(x2)`. -/
theorem test_sb_2 :
    stored [0x80000ff8] ((storeEdgeState [(2, 0x0000000080000ff8), (3, 0x0123456789abcdef)]).ran 0x00310423) =
      some ([0x1111111111111111], 0x80000000, .faulted, .err .memoryFault) := by decide
/-- `sh x3, 7(x2)`. -/
theorem test_sh_1 :
    stored [0x80000100, 0x80000108] ((storeState [(2, 0x0000000080000100), (3, 0x0123456789abcdef)]).ran 0x003113a3) =
      some ([0xef11111111111111, 0x11111111111111cd], 0x80000004, .running, .ok .retired) := by decide
/-- `sh x3, 7(x2)`. -/
theorem test_sh_2 :
    stored [0x80000ff8] ((storeEdgeState [(2, 0x0000000080000ff8), (3, 0x0123456789abcdef)]).ran 0x003113a3) =
      some ([0x1111111111111111], 0x80000000, .faulted, .err .memoryFault) := by decide
/-- `sw x3, 6(x2)`. -/
theorem test_sw_1 :
    stored [0x80000100, 0x80000108] ((storeState [(2, 0x0000000080000100), (3, 0x0123456789abcdef)]).ran 0x00312323) =
      some ([0xcdef111111111111, 0x11111111111189ab], 0x80000004, .running, .ok .retired) := by decide
/-- `sw x3, 5(x2)`. -/
theorem test_sw_2 :
    stored [0x80000ff8] ((storeEdgeState [(2, 0x0000000080000ff8), (3, 0x0123456789abcdef)]).ran 0x003122a3) =
      some ([0x1111111111111111], 0x80000000, .faulted, .err .memoryFault) := by decide
/-- `sd x3, 3(x2)`. -/
theorem test_sd_1 :
    stored [0x80000100, 0x80000108] ((storeState [(2, 0x0000000080000100), (3, 0x0123456789abcdef)]).ran 0x003131a3) =
      some ([0x6789abcdef111111, 0x1111111111012345], 0x80000004, .running, .ok .retired) := by decide
/-- `sd x3, 1(x2)`. -/
theorem test_sd_2 :
    stored [0x80000ff8] ((storeEdgeState [(2, 0x0000000080000ff8), (3, 0x0123456789abcdef)]).ran 0x003130a3) =
      some ([0x1111111111111111], 0x80000000, .faulted, .err .memoryFault) := by decide
/-- `addi x1, x2, -2048`. -/
theorem test_addi_1 :
    outcome 1 ((ready 0x80000000 [(2, 0x8000000000000000)]).ran 0x80010093) =
      some (0x7ffffffffffff800, 0x80000004, .running, .ok .retired) := by decide
/-- `addi x1, x1, 1`. -/
theorem test_addi_2 :
    outcome 1 ((ready 0x80000000 [(1, 0x0000000000000029)]).ran 0x00108093) =
      some (0x000000000000002a, 0x80000004, .running, .ok .retired) := by decide
/-- `slti x1, x2, -1`. -/
theorem test_slti_1 :
    outcome 1 ((ready 0x80000000 [(2, 0x8000000000000000)]).ran 0xfff12093) =
      some (0x0000000000000001, 0x80000004, .running, .ok .retired) := by decide
/-- `slti x1, x2, -1`. -/
theorem test_slti_2 :
    outcome 1 ((ready 0x80000000 [(2, 0xffffffffffffffff)]).ran 0xfff12093) =
      some (0x0000000000000000, 0x80000004, .running, .ok .retired) := by decide
/-- `sltiu x1, x2, -1`. -/
theorem test_sltiu_1 :
    outcome 1 ((ready 0x80000000 [(2, 0xfffffffffffffffe)]).ran 0xfff13093) =
      some (0x0000000000000001, 0x80000004, .running, .ok .retired) := by decide
/-- `sltiu x1, x2, 1`. -/
theorem test_sltiu_2 :
    outcome 1 ((ready 0x80000000 [(2, 0x0000000000000000)]).ran 0x00113093) =
      some (0x0000000000000001, 0x80000004, .running, .ok .retired) := by decide
/-- `xori x1, x2, -1`. -/
theorem test_xori_1 :
    outcome 1 ((ready 0x80000000 [(2, 0x00ff00ff00ff00ff)]).ran 0xfff14093) =
      some (0xff00ff00ff00ff00, 0x80000004, .running, .ok .retired) := by decide
/-- `ori x1, x2, -2048`. -/
theorem test_ori_1 :
    outcome 1 ((ready 0x80000000 [(2, 0x0000000000000001)]).ran 0x80016093) =
      some (0xfffffffffffff801, 0x80000004, .running, .ok .retired) := by decide
/-- `andi x1, x2, -16`. -/
theorem test_andi_1 :
    outcome 1 ((ready 0x80000000 [(2, 0x123456789abcdeff)]).ran 0xff017093) =
      some (0x123456789abcdef0, 0x80000004, .running, .ok .retired) := by decide
/-- `slli x1, x2, 32`. -/
theorem test_slli_1 :
    outcome 1 ((ready 0x80000000 [(2, 0x00000000ffffffff)]).ran 0x02011093) =
      some (0xffffffff00000000, 0x80000004, .running, .ok .retired) := by decide
/-- `slli x1, x2, 63`. -/
theorem test_slli_2 :
    outcome 1 ((ready 0x80000000 [(2, 0x0000000000000003)]).ran 0x03f11093) =
      some (0x8000000000000000, 0x80000004, .running, .ok .retired) := by decide
/-- `srli x1, x2, 63`. -/
theorem test_srli_1 :
    outcome 1 ((ready 0x80000000 [(2, 0x8000000000000000)]).ran 0x03f15093) =
      some (0x0000000000000001, 0x80000004, .running, .ok .retired) := by decide
/-- `srli x1, x2, 32`. -/
theorem test_srli_2 :
    outcome 1 ((ready 0x80000000 [(2, 0xdeadbeef00000000)]).ran 0x02015093) =
      some (0x00000000deadbeef, 0x80000004, .running, .ok .retired) := by decide
/-- `srai x1, x2, 63`. -/
theorem test_srai_1 :
    outcome 1 ((ready 0x80000000 [(2, 0x8000000000000000)]).ran 0x43f15093) =
      some (0xffffffffffffffff, 0x80000004, .running, .ok .retired) := by decide
/-- `srai x1, x2, 4`. -/
theorem test_srai_2 :
    outcome 1 ((ready 0x80000000 [(2, 0x7000000000000000)]).ran 0x40415093) =
      some (0x0700000000000000, 0x80000004, .running, .ok .retired) := by decide
/-- `add x1, x2, x3`. -/
theorem test_add_1 :
    outcome 1 ((ready 0x80000000 [(2, 0xffffffffffffffff), (3, 0x0000000000000001)]).ran 0x003100b3) =
      some (0x0000000000000000, 0x80000004, .running, .ok .retired) := by decide
/-- `add x1, x2, x3`. -/
theorem test_add_2 :
    outcome 1 ((ready 0x80000000 [(2, 0x7fffffffffffffff), (3, 0x7fffffffffffffff)]).ran 0x003100b3) =
      some (0xfffffffffffffffe, 0x80000004, .running, .ok .retired) := by decide
/-- `sub x1, x2, x3`. -/
theorem test_sub_1 :
    outcome 1 ((ready 0x80000000 [(2, 0x8000000000000000), (3, 0x0000000000000001)]).ran 0x403100b3) =
      some (0x7fffffffffffffff, 0x80000004, .running, .ok .retired) := by decide
/-- `sub x1, x0, x2`. -/
theorem test_sub_2 :
    outcome 1 ((ready 0x80000000 [(2, 0x8000000000000000)]).ran 0x402000b3) =
      some (0x8000000000000000, 0x80000004, .running, .ok .retired) := by decide
/-- `sll x1, x2, x3`. -/
theorem test_sll_1 :
    outcome 1 ((ready 0x80000000 [(2, 0x0000000000000001), (3, 0x000000000000007f)]).ran 0x003110b3) =
      some (0x8000000000000000, 0x80000004, .running, .ok .retired) := by decide
/-- `sll x1, x2, x3`. -/
theorem test_sll_2 :
    outcome 1 ((ready 0x80000000 [(2, 0x0000000000000001), (3, 0xffffffffffffffc1)]).ran 0x003110b3) =
      some (0x0000000000000002, 0x80000004, .running, .ok .retired) := by decide
/-- `slt x1, x2, x3`. -/
theorem test_slt_1 :
    outcome 1 ((ready 0x80000000 [(2, 0x8000000000000000), (3, 0x7fffffffffffffff)]).ran 0x003120b3) =
      some (0x0000000000000001, 0x80000004, .running, .ok .retired) := by decide
/-- `slt x1, x2, x3`. -/
theorem test_slt_2 :
    outcome 1 ((ready 0x80000000 [(2, 0x7fffffffffffffff), (3, 0x8000000000000000)]).ran 0x003120b3) =
      some (0x0000000000000000, 0x80000004, .running, .ok .retired) := by decide
/-- `sltu x1, x2, x3`. -/
theorem test_sltu_1 :
    outcome 1 ((ready 0x80000000 [(2, 0x8000000000000000), (3, 0x7fffffffffffffff)]).ran 0x003130b3) =
      some (0x0000000000000000, 0x80000004, .running, .ok .retired) := by decide
/-- `sltu x1, x2, x3`. -/
theorem test_sltu_2 :
    outcome 1 ((ready 0x80000000 [(2, 0x7fffffffffffffff), (3, 0x8000000000000000)]).ran 0x003130b3) =
      some (0x0000000000000001, 0x80000004, .running, .ok .retired) := by decide
/-- `xor x1, x2, x3`. -/
theorem test_xor_1 :
    outcome 1 ((ready 0x80000000 [(2, 0xff00ff00ff00ff00), (3, 0x0ff00ff00ff00ff0)]).ran 0x003140b3) =
      some (0xf0f0f0f0f0f0f0f0, 0x80000004, .running, .ok .retired) := by decide
/-- `srl x1, x2, x3`. -/
theorem test_srl_1 :
    outcome 1 ((ready 0x80000000 [(2, 0x8000000000000000), (3, 0x000000000000003f)]).ran 0x003150b3) =
      some (0x0000000000000001, 0x80000004, .running, .ok .retired) := by decide
/-- `srl x1, x2, x3`. -/
theorem test_srl_2 :
    outcome 1 ((ready 0x80000000 [(2, 0x8000000000000000), (3, 0x0000000000000040)]).ran 0x003150b3) =
      some (0x8000000000000000, 0x80000004, .running, .ok .retired) := by decide
/-- `sra x1, x2, x3`. -/
theorem test_sra_1 :
    outcome 1 ((ready 0x80000000 [(2, 0x8000000000000000), (3, 0x000000000000003f)]).ran 0x403150b3) =
      some (0xffffffffffffffff, 0x80000004, .running, .ok .retired) := by decide
/-- `sra x1, x2, x3`. -/
theorem test_sra_2 :
    outcome 1 ((ready 0x80000000 [(2, 0x8000000000000000), (3, 0x0000000000000044)]).ran 0x403150b3) =
      some (0xf800000000000000, 0x80000004, .running, .ok .retired) := by decide
/-- `or x1, x2, x3`. -/
theorem test_or_1 :
    outcome 1 ((ready 0x80000000 [(2, 0xff00ff00ff00ff00), (3, 0x0ff00ff00ff00ff0)]).ran 0x003160b3) =
      some (0xfff0fff0fff0fff0, 0x80000004, .running, .ok .retired) := by decide
/-- `and x1, x2, x3`. -/
theorem test_and_1 :
    outcome 1 ((ready 0x80000000 [(2, 0xff00ff00ff00ff00), (3, 0x0ff00ff00ff00ff0)]).ran 0x003170b3) =
      some (0x0f000f000f000f00, 0x80000004, .running, .ok .retired) := by decide
/-- `addiw x1, x2, 1`. -/
theorem test_addiw_1 :
    outcome 1 ((ready 0x80000000 [(2, 0x000000007fffffff)]).ran 0x0011009b) =
      some (0xffffffff80000000, 0x80000004, .running, .ok .retired) := by decide
/-- `addiw x1, x2, 0`. -/
theorem test_addiw_2 :
    outcome 1 ((ready 0x80000000 [(2, 0xdeadbeef80000000)]).ran 0x0001009b) =
      some (0xffffffff80000000, 0x80000004, .running, .ok .retired) := by decide
/-- `slliw x1, x2, 0`. -/
theorem test_slliw_1 :
    outcome 1 ((ready 0x80000000 [(2, 0x123456789abcdef0)]).ran 0x0001109b) =
      some (0xffffffff9abcdef0, 0x80000004, .running, .ok .retired) := by decide
/-- `slliw x1, x2, 31`. -/
theorem test_slliw_2 :
    outcome 1 ((ready 0x80000000 [(2, 0x0000000000000001)]).ran 0x01f1109b) =
      some (0xffffffff80000000, 0x80000004, .running, .ok .retired) := by decide
/-- `srliw x1, x2, 0`. -/
theorem test_srliw_1 :
    outcome 1 ((ready 0x80000000 [(2, 0x0000000080000000)]).ran 0x0001509b) =
      some (0xffffffff80000000, 0x80000004, .running, .ok .retired) := by decide
/-- `srliw x1, x2, 1`. -/
theorem test_srliw_2 :
    outcome 1 ((ready 0x80000000 [(2, 0xffffffff80000000)]).ran 0x0011509b) =
      some (0x0000000040000000, 0x80000004, .running, .ok .retired) := by decide
/-- `sraiw x1, x2, 1`. -/
theorem test_sraiw_1 :
    outcome 1 ((ready 0x80000000 [(2, 0x0000000080000000)]).ran 0x4011509b) =
      some (0xffffffffc0000000, 0x80000004, .running, .ok .retired) := by decide
/-- `sraiw x1, x2, 4`. -/
theorem test_sraiw_2 :
    outcome 1 ((ready 0x80000000 [(2, 0xffffffff70000000)]).ran 0x4041509b) =
      some (0x0000000007000000, 0x80000004, .running, .ok .retired) := by decide
/-- `addw x1, x2, x3`. -/
theorem test_addw_1 :
    outcome 1 ((ready 0x80000000 [(2, 0x000000007fffffff), (3, 0x0000000000000001)]).ran 0x003100bb) =
      some (0xffffffff80000000, 0x80000004, .running, .ok .retired) := by decide
/-- `addw x1, x2, x3`. -/
theorem test_addw_2 :
    outcome 1 ((ready 0x80000000 [(2, 0x1111111180000000), (3, 0x2222222280000000)]).ran 0x003100bb) =
      some (0x0000000000000000, 0x80000004, .running, .ok .retired) := by decide
/-- `subw x1, x2, x3`. -/
theorem test_subw_1 :
    outcome 1 ((ready 0x80000000 [(2, 0x0000000080000000), (3, 0x0000000000000001)]).ran 0x403100bb) =
      some (0x000000007fffffff, 0x80000004, .running, .ok .retired) := by decide
/-- `subw x1, x0, x2`. -/
theorem test_subw_2 :
    outcome 1 ((ready 0x80000000 [(2, 0x0000000080000000)]).ran 0x402000bb) =
      some (0xffffffff80000000, 0x80000004, .running, .ok .retired) := by decide
/-- `sllw x1, x2, x3`. -/
theorem test_sllw_1 :
    outcome 1 ((ready 0x80000000 [(2, 0x0000000000000001), (3, 0x0000000000000020)]).ran 0x003110bb) =
      some (0x0000000000000001, 0x80000004, .running, .ok .retired) := by decide
/-- `sllw x1, x2, x3`. -/
theorem test_sllw_2 :
    outcome 1 ((ready 0x80000000 [(2, 0x0000000000000001), (3, 0x000000000000003f)]).ran 0x003110bb) =
      some (0xffffffff80000000, 0x80000004, .running, .ok .retired) := by decide
/-- `srlw x1, x2, x3`. -/
theorem test_srlw_1 :
    outcome 1 ((ready 0x80000000 [(2, 0xffffffff80000000), (3, 0x000000000000001f)]).ran 0x003150bb) =
      some (0x0000000000000001, 0x80000004, .running, .ok .retired) := by decide
/-- `srlw x1, x2, x3`. -/
theorem test_srlw_2 :
    outcome 1 ((ready 0x80000000 [(2, 0x0000000080000000), (3, 0x0000000000000020)]).ran 0x003150bb) =
      some (0xffffffff80000000, 0x80000004, .running, .ok .retired) := by decide
/-- `sraw x1, x2, x3`. -/
theorem test_sraw_1 :
    outcome 1 ((ready 0x80000000 [(2, 0x0000000180000000), (3, 0x0000000000000024)]).ran 0x403150bb) =
      some (0xfffffffff8000000, 0x80000004, .running, .ok .retired) := by decide
/-- `sraw x1, x2, x3`. -/
theorem test_sraw_2 :
    outcome 1 ((ready 0x80000000 [(2, 0x000000007fffffff), (3, 0x000000000000001e)]).ran 0x403150bb) =
      some (0x0000000000000001, 0x80000004, .running, .ok .retired) := by decide

/-- `fence` with all ignored fields ones. -/
theorem test_fence_1 :
    outcome 5 ((ready 0x80000000 [(5, 0x77)]).ran 0xffff8f8f) = some (0x77, 0x80000004, .running, .ok .retired) := by
  decide
/-- `fence` with all fields zero: the count and the memory (the word itself). -/
theorem test_fence_2 :
    ((ready 0x80000000 []).ran 0x0000000f).map (fun t => (t.instret, t.mem)) = some (1, [(0x80000000, 0x0f)]) := by
  decide
/-- `ecall`: the event, the pc and the counters, whatever the verdict. -/
theorem test_ecall_1 : ((ready 0x80000000 [(5, 0x77)]).ran 0x00000073).map
    (fun t => (t.getReg 5, t.pc, t.instret, t.faultCount, t.lastStep)) =
      some (0x77, 0x80000004, 1, 0, some (.ok .envCall)) := by decide
/-- `ecall` in the last word: the next-PC check comes first (section 2.7). -/
theorem test_ecall_2 :
    outcome 0 ((ready 0x80000ffc []).ran 0x00000073) = some (0, 0x80000ffc, .faulted, .err .memoryFault) := by decide
/-- `ebreak`. -/
theorem test_ebreak_1 : outcome 5 ((ready 0x80000000 [(5, 0x77)]).ran 0x00100073) =
    some (0x77, 0x80000004, .running, .ok .breakpoint) := by decide

/-! ## The engine (95_test_vectors.md, sections 1 and 2.7) -/

/-- A core with another region. -/
def readyIn (base : Word) (size : Nat) (pc : Word) (regs : List (RegIdx × Word)) : State :=
  { ready pc regs with loadAddr := base, memSize := size }

/-- The source's scenario (section 1.1, 40_step_engine.md R121). -/
theorem test_scenario :
    (match issueAll [.init [0x93, 0x00, 0xa0, 0x02, 0x13, 0x00, 0x00, 0x00] 0x80000000 0x1000, .start, .step, .get 1, .getPc,
      .step,
        .get 1, .getPc] State.reset with
     | .next (_, rs) => rs
     | _ => []) =
    [.ok, .ok, .event .retired, .value 42, .value 0x80000004, .event .retired, .value 42, .value 0x80000008] := by decide
theorem test_halted_step : outcome 1 (match step State.reset with | .next t => some t | _ => none) =
    some (0, 0x80000000, .halted, .err .invalidState) := by decide
theorem test_last_word :
    outcome 1 ((ready 0x80000ffc []).ran 0x00100093) = some (0, 0x80000ffc, .faulted, .err .memoryFault) := by
  decide
theorem test_last_word_but_one : outcome 1 ((ready 0x80000ff8 []).ran 0x00100093) =
    some (1, 0x80000ffc, .running, .ok .retired) := by decide
theorem test_jump_out_of_last_word : outcome 1 ((ready 0x80000ffc []).ran 0x804ff0ef) =
    some (0x80001000, 0x80000000, .running, .ok .retired) := by decide
/-- Decode comes before the next-PC check (60_exceptions.md R291). -/
theorem test_illegal_in_last_word : outcome 1 ((ready 0x80000ffc []).ran 0x00000000) =
    some (0, 0x80000ffc, .faulted, .err .illegalInstruction) := by decide
theorem test_fetch_past_the_end : outcome 1 (match step (ready 0x80000ffd []) with | .next t => some t | _ => none) =
    some (0, 0x80000ffd, .faulted, .err .memoryFault) := by decide
theorem test_odd_fetch :
    outcome 1 ((ready 0x80000001 []).ran 0x00900093) = some (9, 0x80000005, .running, .ok .retired) := by decide
theorem test_region_of_four_jump : outcome 0 ((readyIn 0x80000000 4 0x80000000 []).ran 0x0000006f) =
    some (0, 0x80000000, .running, .ok .retired) := by decide
theorem test_region_of_three : outcome 0 (match step (readyIn 0x80000000 3 0x80000000 []) with | .next t => some t | _ => none) =
    some (0, 0x80000000, .faulted, .err .memoryFault) := by decide
/-- `npc = 2^64` is not representable: no wrap to 0 (10_state.md R27). -/
theorem test_top_of_space : outcome 0 ((readyIn 0xfffffffffffff000 0x1000 0xfffffffffffffffc []).ran 0x00000013) =
    some (0, 0xfffffffffffffffc, .faulted, .err .memoryFault) := by decide
theorem test_address_beyond_space :
    outcome 1 ((readyIn 0xfffffffffffff000 0x1000 0xfffffffffffff000 [(2, 0xfffffffffffffff8)]).ran 0x7ff13083) =
    some (0, 0xfffffffffffff000, .faulted, .err .memoryFault) := by decide
theorem test_negative_address :
    outcome 1 ((readyIn 0 0x1000 0 []).ran 0xff803083) = some (0, 0, .faulted, .err .memoryFault) := by decide
theorem test_negative_target :
    outcome 1 ((readyIn 0 0x1000 0 []).ran 0xffc000e7) = some (0, 0, .faulted, .err .memoryFault) := by decide
/-- A store over the next instruction is fetched (20_memory.md R68). -/
theorem test_store_into_code : (((ready 0x80000000 [(2, 0x80000000), (3, 0x00700093)]).ran 0x00312223).bind fun t =>
    match step t with | .next u => some (u.getReg 1, u.pc) | _ => none) = some (7, 0x80000008) := by decide
/-- Counters saturate (10_state.md R33). -/
theorem test_saturation : bump 0xffffffffffffffff = 0xffffffffffffffff ∧ bump 0xfffffffffffffffe = 0xffffffffffffffff := by decide

/-! ## Host commands (95_test_vectors.md, sections 1.2 to 1.5 and 2.8) -/

/-- A small running core: a region of 16 bytes that holds `addi x1, x0, 42` and a `nop`. -/
def small : State := { initState [0x93, 0x00, 0xa0, 0x02, 0x13] 0x80000000 16 with tag := .running }

/-- What a sequence of commands returns, and the state it leaves. -/
def replies (cs : List Command) (s : State) : List Reply :=
  match issueAll cs s with
  | .next (_, rs) => rs
  | _ => []

/-- The commands whose effect is that of section 1.3, 8 bytes little-endian. -/
theorem test_round_trip : replies [.write .dword 0x80000000 0x1234567890abcdef, .read .dword 0x80000000, .read .byte 0x80000000,
    .read .half 0x80000000, .read .word 0x80000000, .read .word 0x80000004, .read .dword 0x80000001] State.reset =
    [.ok, .data .dword 0x1234567890abcdef, .data .byte 0xef, .data .half 0xcdef, .data .word 0x90abcdef, .data .word 0x12345678,
      .data .dword 0x001234567890abcd] := by decide
/-- Section 1.4, the host's accesses. -/
theorem test_host_bounds :
    replies [.read .dword 0x80001000, .read .dword 0x80000ff9, .read .byte 0x7fffffff, .write .byte 0x80001000 0,
    .read .dword 0x1000, .read .dword 0x80000ff8, .read .byte 0x80000fff, .getDiagnostics] State.reset =
    [.err .memoryFault, .err .memoryFault, .err .memoryFault, .err .memoryFault, .err .memoryFault, .data .dword 0, .data .byte 0,
      .report ⟨0, 0⟩] := by decide
/-- Section 1.2: register 0. -/
theorem test_register_zero : replies [.set 0 0xffffffffffffffff, .get 0, .set 31 7, .get 31] State.reset =
    [.ok, .value 0, .ok, .value 7] := by decide
/-- Rows 9 to 13 of section 2.8: the fetch sees the host's write, the run is blocked, a host fault counts nothing. -/
theorem test_host_write_is_fetched : replies [.step, .write .word 0x80000004 0, .step, .step, .read .byte 0x80001000, .start,
    .getDiagnostics] small = [.event .retired, .ok, .err .illegalInstruction, .err .invalidState, .err .memoryFault,
    .err .invalidState, .report ⟨1, 1⟩] := by decide
/-- Rows 14 to 17: a restore rewinds registers, pc, memory and tag and keeps the counters. -/
theorem test_restore :
    replies [.set 1 7, .step, .write .word 0x80000004 0, .step, .restoreState { small.capture with valid := false },
    .restoreState { small.capture with mem := [] }, .restoreState small.capture, .read .word 0x80000004, .get 1, .getPc, .step,
    .getDiagnostics] small = [.ok, .event .retired, .ok, .err .illegalInstruction, .err .snapshotMismatch,
      .err .snapshotMismatch, .ok,
    .data .word 0x13, .value 0, .value 0x80000000, .event .retired, .report ⟨2, 1⟩] := by decide
/-- Rows 4 and 5: the buffer's capacity. -/
theorem test_save : replies [.saveState 16, .saveState 15] small = [.snapshot small.capture, .err .snapshotMismatch] := by decide
/-- Why a command was refused, if it was. -/
def refusalOf : Issued → Option Refusal
  | .refused e => some e
  | _ => none

/-- Contract violations are refused (log 11). -/
theorem test_contracts : refusalOf (issue (.init [] 0 0) State.reset) = some .initContract ∧
    refusalOf (issue (.init [1, 2] 0 1) State.reset) = some .initContract ∧
    refusalOf (issue (.init [] 0xffffffffffffffff 2) State.reset) = some .initContract ∧
    refusalOf (issue (.setPc 0x80001000) State.reset) = some .setPcContract ∧
    refusalOf (issue (.setPc 0x7fffffff) State.reset) = some .setPcContract := by decide

/-! ## Witnesses for the statements

One theorem for each statement of Certificates/Slice0/Obligations.lean that has hypotheses, under the statement's name: concrete
states and operands that meet them together, clause by clause, at the boundaries where a clause has a range. -/

/-- The hypotheses of a statement about a computational instruction: a running core whose next address is the region's last byte,
and one whose next address is the first byte past it. -/
abbrev NextPcAtEdges : Prop :=
  (ready 0x80000ffb []).tag = .running ∧ (ready 0x80000ffb []).InRegion (((ready 0x80000ffb []).pc.toNat : Int) + 4) ∧
  (ready 0x80000ffc []).tag = .running ∧ ¬ (ready 0x80000ffc []).InRegion (((ready 0x80000ffc []).pc.toNat : Int) + 4)

/-- The effective address of `x2 + imm`. -/
abbrev eaOf (s : State) (imm : Word) : Int := ((s.getReg 2).toNat : Int) + imm.toInt

/-- The hypotheses of a statement about an access of `n` bytes at `x2 + imm`: in bounds at the region's first and last places, out of
bounds one byte below and one byte above, and in bounds with the next address past the region. -/
def accessEdges (n : Nat) : Bool :=
  let at_ := fun (a pc : Word) => ready pc [(2, a)]
  [at_ 0x80000000 0x80000000, at_ (0x80001000 - BitVec.ofNat 64 n) 0x80000ffb].all (fun s =>
    decide (s.tag = .running) && decide s.mem.wf && decide (s.InBounds (eaOf s 0) n) && decide (s.InRegion s.seqPc)) &&
  [at_ 0x80000001 0x80000000, at_ (0x80001003 - BitVec.ofNat 64 n) 0x80000ffb].all (fun s =>
    decide (s.tag = .running) && decide s.mem.wf && !decide (s.InBounds (eaOf s (-2)) n)) &&
  [at_ 0x80000000 0x80000ffc].all (fun s =>
    decide (s.tag = .running) && decide s.mem.wf && decide (s.InBounds (eaOf s 0) n) && !decide (s.InRegion s.seqPc))

/-- A sequence of commands returned, with these results. -/
def returned (cs : List Command) (s : State) (rs : List Reply) : Prop := ∃ t, issueAll cs s = .next (t, rs)

theorem test_witness_UpperImmediatesWriteConstantAndPcSum :
    ([(0x0000007f, 0x00000037, 0x800000b7), (0x0000007f, 0x00000017,
      0xfffff097)] : List (InstrWord × InstrWord × InstrWord)).all (fun r => r.2.2 &&& r.1 == r.2.1) = true ∧
      NextPcAtEdges := by decide

theorem test_witness_ImmediateArithmeticAndLogic :
    ([(0x0000707f, 0x00000013, 0x80010093), (0x0000707f, 0x00004013, 0xfff14093),
      (0x0000707f, 0x00006013, 0x80016093), (0x0000707f, 0x00007013,
      0xff017093)] : List (InstrWord × InstrWord × InstrWord)).all (fun r => r.2.2 &&& r.1 == r.2.1) = true ∧
      NextPcAtEdges := by decide

theorem test_witness_ImmediateComparisons :
    ([(0x0000707f, 0x00002013, 0xfff12093), (0x0000707f, 0x00003013,
      0xfff13093)] : List (InstrWord × InstrWord × InstrWord)).all (fun r => r.2.2 &&& r.1 == r.2.1) = true ∧
      NextPcAtEdges := by decide

theorem test_witness_RegisterArithmeticAndLogic :
    ([(0xfe00707f, 0x00000033, 0x003100b3), (0xfe00707f, 0x40000033, 0x403100b3),
      (0xfe00707f, 0x00004033, 0x003140b3), (0xfe00707f, 0x00006033, 0x003160b3),
      (0xfe00707f, 0x00007033, 0x003170b3)] : List (InstrWord × InstrWord × InstrWord)).all (fun r => r.2.2 &&& r.1 == r.2.1) =
      true ∧ NextPcAtEdges := by decide

theorem test_witness_RegisterComparisons :
    ([(0xfe00707f, 0x00002033, 0x003120b3), (0xfe00707f, 0x00003033,
      0x003130b3)] : List (InstrWord × InstrWord × InstrWord)).all (fun r => r.2.2 &&& r.1 == r.2.1) = true ∧
      NextPcAtEdges := by decide

theorem test_witness_RegisterShiftsUseSixBits :
    ([(0xfe00707f, 0x00001033, 0x003110b3), (0xfe00707f, 0x00005033, 0x003150b3),
      (0xfe00707f, 0x40005033, 0x403150b3)] : List (InstrWord × InstrWord × InstrWord)).all (fun r => r.2.2 &&& r.1 == r.2.1) =
      true ∧ NextPcAtEdges := by decide

theorem test_witness_WordRegisters :
    ([(0xfe00707f, 0x0000003b, 0x003100bb), (0xfe00707f, 0x4000003b, 0x403100bb),
      (0xfe00707f, 0x0000103b, 0x003110bb), (0xfe00707f, 0x0000503b, 0x003150bb),
      (0xfe00707f, 0x4000503b, 0x403150bb)] : List (InstrWord × InstrWord × InstrWord)).all (fun r => r.2.2 &&& r.1 == r.2.1) =
      true ∧ NextPcAtEdges := by decide

theorem test_witness_ImmediateShifts :
    ([(0xfc00707f, 0x00001013, 0x03f11093), (0xfc00707f, 0x00005013, 0x03f15093),
      (0xfc00707f, 0x40005013, 0x43f15093)] : List (InstrWord × InstrWord × InstrWord)).all (fun r => r.2.2 &&& r.1 == r.2.1) =
      true ∧
    (0x04001013 &&& 0x0000707f = (0x00001013 : InstrWord) ∧ (0x04001013 : InstrWord).extractLsb' 26 6 ≠ 0) ∧
    [(0x80005013 : InstrWord), 0x04005013, 0x44005013].all (fun w => decide (w &&& 0x0000707f = 0x00005013 ∧
      w.extractLsb' 26 6 ≠ 0 ∧
      w.extractLsb' 26 6 ≠ 0b010000)) = true ∧
    NextPcAtEdges := by decide

theorem test_witness_WordImmediates :
    ([(0x0000707f, 0x0000001b, 0x0011009b), (0xfe00707f, 0x0000101b, 0x01f1109b),
      (0xfe00707f, 0x0000501b, 0x01f1509b), (0xfe00707f, 0x4000501b,
      0x41f1509b)] : List (InstrWord × InstrWord × InstrWord)).all (fun r => r.2.2 &&& r.1 == r.2.1) = true ∧
    (0x0200101b &&& 0x0000707f = (0x0000101b : InstrWord) ∧ (0x0200101b : InstrWord).extractLsb' 25 7 ≠ 0) ∧
    [(0x8000501b : InstrWord), 0x0200501b, 0x4200501b].all (fun w => decide (w &&& 0x0000707f = 0x0000501b ∧
      w.extractLsb' 25 7 ≠ 0 ∧
      w.extractLsb' 25 7 ≠ 0b0100000)) = true ∧
    NextPcAtEdges := by decide

/-- Targets: the last and the first place in the region, and the places just outside it. -/
theorem test_witness_JumpsLinkAndCheckTheirTarget :
    ([(0x0000007f, 0x0000006f, 0xff1ff0ef), (0x0000707f, 0x00000067,
      0x004100e7)] : List (InstrWord × InstrWord × InstrWord)).all (fun r => r.2.2 &&& r.1 == r.2.1) = true ∧
    (∀ s ∈ [ready 0x80000ffc []], s.tag = .running ∧ s.InRegion (s.pc.toNat + (2 : Word).toInt) ∧
      ¬ s.InRegion (s.pc.toNat + (4 : Word).toInt) ∧ ¬ s.InRegion (s.pc.toNat + (-4096 : Word).toInt) ∧
      s.InRegion (s.pc.toNat + (-4092 : Word).toInt)) ∧
    (∀ s ∈ [ready 0x80000000 [(2, 0x80001000)]], s.tag = .running ∧ s.InRegion (eaOf s (-1) - eaOf s (-1) % 2) ∧
      ¬ s.InRegion (eaOf s 0 - eaOf s 0 % 2) ∧ ¬ s.InRegion (eaOf s 1 - eaOf s 1 % 2)) := by decide

/-- The next address is the value its two clauses define; both values, in the region and out of it. -/
theorem test_witness_BranchesFollowTheirCondition :
    ([(0x0000707f, 0x00000063, 0x7e000fe3), (0x0000707f, 0x00001063, 0xfc001ee3),
      (0x0000707f, 0x00004063, 0x0020c863), (0x0000707f, 0x00005063, 0x0020d863),
      (0x0000707f, 0x00006063, 0x0020e863), (0x0000707f, 0x00007063,
      0x0020f863)] : List (InstrWord × InstrWord × InstrWord)).all (fun r => r.2.2 &&& r.1 == r.2.1) = true ∧
    (∀ s ∈ [ready 0x80000ffc [(1, 1), (2, 0xffffffffffffffff)]], s.tag = .running ∧
      -- the pair (x1, x1), (x1, x2), (x2, x1) makes each of the six conditions hold once and fail once
      s.getReg 1 = s.getReg 1 ∧ s.getReg 1 ≠ s.getReg 2 ∧
      (s.getReg 2).toInt < (s.getReg 1).toInt ∧ (s.getReg 1).toInt ≥ (s.getReg 2).toInt ∧
      (s.getReg 1).toNat < (s.getReg 2).toNat ∧ (s.getReg 2).toNat ≥ (s.getReg 1).toNat ∧
      -- taken: the last place in the region, and just past it
      s.InRegion (s.pc.toNat + (2 : Word).toInt) ∧ ¬ s.InRegion (s.pc.toNat + (4 : Word).toInt) ∧
      -- not taken, out of the region
      ¬ s.InRegion (s.pc.toNat + 4)) ∧
    (ready 0x80000ffb []).InRegion ((ready 0x80000ffb []).pc.toNat + 4) := by decide

theorem test_witness_LoadsReadLittleEndianAndExtend :
    ([(0x0000707f, 0x00000003, 0x00710083), (0x0000707f, 0x00001003, 0x00111083),
      (0x0000707f, 0x00002003, 0x00312083), (0x0000707f, 0x00003003, 0xffd13083),
      (0x0000707f, 0x00004003, 0x00014083), (0x0000707f, 0x00005003, 0x00015083),
      (0x0000707f, 0x00006003, 0x00416083)] : List (InstrWord × InstrWord × InstrWord)).all (fun r => r.2.2 &&& r.1 == r.2.1) =
      true ∧
    (∀ n ∈ [1, 2, 4, 8], accessEdges n = true) := by decide

theorem test_witness_StoresWriteTheirBytesOnly :
    ([(0x0000707f, 0x00000023, 0xfe310fa3), (0x0000707f, 0x00001023, 0x003113a3),
      (0x0000707f, 0x00002023, 0x00312323), (0x0000707f, 0x00003023,
      0xfe313c23)] : List (InstrWord × InstrWord × InstrWord)).all (fun r => r.2.2 &&& r.1 == r.2.1) = true ∧
    (∀ n ∈ [1, 2, 4, 8], accessEdges n = true) := by decide

theorem test_witness_FenceChangesNothingButPc :
    ([(0x0000707f, 0x0000000f, 0x8330000f)] : List (InstrWord × InstrWord × InstrWord)).all (fun r => r.2.2 &&& r.1 == r.2.1) =
      true ∧
    ((0x0000100f : InstrWord).extractLsb' 0 7 = 0b0001111 ∧ (0x0000100f : InstrWord).extractLsb' 12 3 ≠ 0b000) ∧
      NextPcAtEdges := by decide

theorem test_witness_EcallReportsAndMayComplete :
    NextPcAtEdges := by decide

theorem test_witness_EbreakReportsAndGoesOn :
    NextPcAtEdges := by decide

theorem test_witness_StepRunsTheDecodedInstruction :
    ∀ s ∈ [(ready 0x80000ffc []).withFetchWord 32 0x00100093], s.tag = .running ∧ s.InBounds s.pc.toNat 4 ∧
      decodeWord (s.mem.get (s.pc.toNat + 3) ++ s.mem.get (s.pc.toNat + 2) ++ s.mem.get (s.pc.toNat + 1) ++ s.mem.get s.pc.toNat) =
        .ok (.addi 1 0 1) := by decide

theorem test_witness_StepGuardHasNoSideEffects :
    ∀ g ∈ [Tag.halted, .faulted, .completed], { State.reset with tag := g }.tag ≠ .running := by decide

theorem test_witness_FetchOutOfBoundsIsMemoryFault :
    (∀ s ∈ [ready 0x80000ffc [], ready 0x80000000 []], s.tag = .running ∧ s.InBounds s.pc.toNat 4) ∧
    (∀ s ∈ [ready 0x80000ffd [], ready 0x80000fff []], s.tag = .running ∧ s.InRegion s.pc.toNat ∧ ¬ s.InBounds s.pc.toNat 4) ∧
    (∀ s ∈ [ready 0x80001000 [], ready 0x7fffffff []], s.tag = .running ∧ ¬ s.InRegion s.pc.toNat ∧
      ¬ s.InBounds s.pc.toNat 4) := by decide

/-- A running core, whose step takes the fault, and one whose step does not. -/
theorem test_witness_IllegalWordFaults :
    (ready 0x80000000 []).tag = .running ∧
      outcome 0 ((ready 0x80000000 []).ran 0) = some (0, 0x80000000, .faulted, .err .illegalInstruction) ∧
    outcome 0 ((ready 0x80000000 []).ran 0x13) = some (0, 0x80000004, .running, .ok .retired) := by decide

/-- A step that takes each fault, and one that retires. -/
theorem test_witness_FaultsArePrecise :
    (ready 0x80000000 []).tag = .running ∧
    (∀ p ∈ [((0x00000000 : Nat), StepResult.err .illegalInstruction), (0x00003083, .err .memoryFault), (0x00000013,
      .ok .retired)],
      ((ready 0x80000000 []).ran p.1).map (fun t => t.lastStep) = some (some p.2)) := by decide

theorem test_witness_RetiredPcLiesInRegion :
    (ready 0x80000ff8 []).ConfigOk ∧
    ((ready 0x80000ff8 []).ran 0x00000013).map (fun t => t.lastStep) = some (some (.ok .retired)) := by decide

theorem test_witness_StepCountsOncePerInstruction :
    (ready 0x80000000 []).tag = .running ∧ State.reset.tag ≠ .running := by decide

theorem test_witness_StepNeverHaltsAndKeepsConfiguration :
    ∃ t, step State.reset = .next t := ⟨_, rfl⟩

/-- A running core, and one at an `ecall` that retires (its verdict is open, log 7). -/
theorem test_witness_OnlyATerminatingEcallCompletes :
    (ready 0x80000000 []).tag = .running ∧
    ((ready 0x80000000 []).withFetchWord 32 0x73).fetch = .ok 0x00000073 ∧
      (ready 0x80000000 []).InRegion (ready 0x80000000 []).seqPc := by decide

theorem test_witness_UnnamedRegistersPlayNoPart :
    Instr.add 1 2 3 ≠ .ecall ∧ (∀ q ∈ [(0 : RegIdx), 4, 31], q ∉ namedRegs (.add 1 2 3)) := by decide

theorem test_witness_StepKeepsTheInvariant :
    ((ready 0x80000ff8 []).withFetchWord 32 0x13).Inv ∧ (ready 0x80000ffc []).Inv ∧ { ready 0 [] with tag := .faulted }.Inv ∧
    (∃ t, step ((ready 0x80000ff8 []).withFetchWord 32 0x13) = .next t) ∧
      (∃ t, step (ready 0x80000ffc []) = .next t) := ⟨by decide, by decide, by decide, ⟨_, rfl⟩, ⟨_, rfl⟩⟩

theorem test_witness_CommandsKeepTheInvariant :
    small.Inv ∧ (small.capture.tag = .running → small.InRegion small.capture.pc.toNat) ∧
    (∃ t, issue (.restoreState small.capture) small = .next (t, .ok)) ∧
    (∃ t, issue .getPc small = .next (t, .value 0x80000000)) ∧
    (∃ t, issue (.saveState 16) small = .next (t, .snapshot small.capture)) ∧
      small.capture.tag = .running := ⟨by decide, by decide, ⟨_, rfl⟩, ⟨_, rfl⟩, ⟨_, rfl⟩, by decide⟩

theorem test_witness_DecodeInvertsEncode :
    (∀ i ∈ [Instr.addi 31 31 2047, .addi 0 0 (-2048), .sd 31 31 (-2048), .beq 31 31 4094, .beq 0 0 (-4096), .lui 31 0x7ffff000,
      .lui 0 (-0x80000000), .jal 31 1048574, .jal 0 (-1048576), .slli 31 31 63, .sraiw 31 31 31, .fence 0xfff 31 31, .ecall],
      i.wellFormed = true) := by decide

theorem test_witness_EncodeInvertsDecode :
    decodeWord 0x7ffff06f = .ok (.jal 0 1048574) ∧ decodeWord 0xffff8f8f = .ok (.fence 0xfff 31 31) ∧
    (Instr.jal 0 1048574).wellFormed = true ∧ encode (.jal 0 1048574) = 0x7ffff06f := by decide

theorem test_witness_DecodeFollowsTheOnlyMatchingRow :
    (∀ r ∈ opcodeTable, (0x00000000 : InstrWord) &&& r.mask ≠ r.pat) ∧
    (0 < opcodeTable.length ∧ (0x00000037 : InstrWord) &&& (opcodeTable[0]'(by decide)).mask =
      (opcodeTable[0]'(by decide)).pat) := by decide

/-- One word for each alternative that is not a literal word or opcode. -/
theorem test_witness_ListedWordsAreIllegal :
    (0x00000012 : InstrWord).extractLsb' 0 2 ≠ 0b11 ∧
    [(0x02000033 : InstrWord), 0x0200003b, 0x40001033, 0x40006033].all (fun w => decide (w.extractLsb' 25 7 ≠ 0 ∧
      (w.extractLsb' 25 7 ≠ 0b0100000 ∨ (w.extractLsb' 12 3 ≠ 0b000 ∧ w.extractLsb' 12 3 ≠ 0b101)))) = true ∧
    [(0x0000203b : InstrWord), 0x0000701b].all (fun w => decide (w.extractLsb' 12 3 ∈ [0b010#3, 0b011, 0b100, 0b110, 0b111])) =
      true ∧
    (0x04001013 : InstrWord).extractLsb' 26 6 ≠ 0 ∧
    ((0x04005013 : InstrWord).extractLsb' 26 6 ≠ 0 ∧ (0x04005013 : InstrWord).extractLsb' 26 6 ≠ 0b010000) ∧
    (0x0200101b : InstrWord).extractLsb' 25 7 ≠ 0 ∧
    ((0x0200501b : InstrWord).extractLsb' 25 7 ≠ 0 ∧ (0x0200501b : InstrWord).extractLsb' 25 7 ≠ 0b0100000) ∧
    (0x00007003 : InstrWord).extractLsb' 12 3 = 0b111 ∧ (0x00004023 : InstrWord).extractLsb' 12 3 = 0b100 ∧
    (0x00002063 : InstrWord).extractLsb' 12 3 = 0b010 ∧ (0x00001067 : InstrWord).extractLsb' 12 3 ≠ 0b000 ∧
    (0x0000100f : InstrWord).extractLsb' 12 3 ≠ 0b000 ∧
    ((0x10200073 : InstrWord).extractLsb' 0 7 = 0b1110011 ∧ (0x10200073 : InstrWord) ≠ 0x73 ∧
      (0x10200073 : InstrWord) ≠ 0x00100073) := by decide

theorem test_witness_MemReadIsLittleEndianOrFaults :
    (∀ w ∈ [Width.byte, .half, .word, .dword], State.reset.InBounds 0x80000000 w.bytes ∧
      State.reset.InBounds (0x80001000 - w.bytes) w.bytes ∧ ¬ State.reset.InBounds (0x80001001 - w.bytes) w.bytes ∧
      ¬ State.reset.InBounds 0x7fffffff w.bytes ∧ ¬ State.reset.InBounds (-1) w.bytes) := by decide

theorem test_witness_MemWriteRoundTripsAndTouchesNothingElse :
    State.reset.mem.wf ∧ (∀ w ∈ [Width.byte, .half, .word, .dword], State.reset.InBounds 0x80000000 w.bytes ∧
      State.reset.InBounds (0x80001000 - w.bytes) w.bytes ∧ ¬ State.reset.InBounds (0x80001001 - w.bytes) w.bytes ∧
      ¬ State.reset.InBounds 0x7fffffff w.bytes) := by decide

theorem test_witness_NarrowReadsSeeALittleEndianDoubleword :
    State.reset.mem.wf ∧ State.reset.InBounds 0x80000ff8 8 ∧ (((0x80000ff8 : Word).toNat : Int) = 0x80000ff8) := by decide

theorem test_witness_AStoreIsSeenByTheNextFetch :
    ∀ s ∈ [ready 0x80000ffb [(2, 0x80000ffc)]], s.mem.wf ∧ s.ConfigOk ∧ s.InBounds (eaOf s 0) 4 ∧ s.InRegion s.seqPc := by decide

theorem test_witness_InitGivesTheResetValues :
    InitContract [] 0 1 ∧ InitContract [7] 0xffffffffffffffff 1 ∧ InitContract [1, 2] 0x80000000 2 := by decide

theorem test_witness_StartRunsAHaltedCore :
    State.reset.tag = .halted ∧ (∀ g ∈ [Tag.running, .faulted, .completed],
      { State.reset with tag := g }.tag ≠ .halted) := by decide

theorem test_witness_HostAccessesShareTheBoundsCheck :
    State.reset.mem.wf ∧
    (∀ p ∈ [((0x80000000 : Word), 8), (0x80000ff8, 8), (0x80000fff, 1)], State.reset.InBounds p.1.toNat p.2) ∧
    (∀ p ∈ [((0x7fffffff : Word), 8), (0x80000ff9, 8), (0x80001000, 1), (0xffffffffffffffff, 1)],
      ¬ State.reset.InBounds p.1.toNat p.2) := by decide

theorem test_witness_PcAndDiagnosticsCommands :
    State.reset.InRegion (0x80000000 : Word).toNat ∧ State.reset.InRegion (0x80000fff : Word).toNat := by decide

/-- Each way a contract is broken. -/
theorem test_witness_ContractViolationsAreRefused :
    ¬ InitContract [] 0 0 ∧ ¬ InitContract [] 0xffffffffffffffff 2 ∧ ¬ InitContract [1, 2, 3] 0x80000000 2 ∧
    ¬ State.reset.InRegion (0x7fffffff : Word).toNat ∧ ¬ State.reset.InRegion (0x80001000 : Word).toNat := by decide

/-- Arguments that keep the two contracts, and an error of a command other than a STEP from running. -/
theorem test_witness_EveryCommandReturns :
    InitContract [7] 0xffffffffffffffff 1 ∧ State.reset.InRegion (0x80000fff : Word).toNat ∧
    (∃ t, issue (.read .byte 0x80001000) small = .next (t, .err .memoryFault)) ∧
    (∃ t, issue .step State.reset = .next (t, .err .invalidState)) ∧
      State.reset.tag ≠ .running := ⟨by decide, by decide, ⟨_, rfl⟩, ⟨_, rfl⟩, by decide⟩

theorem test_witness_TagTransitionTable :
    (∃ t, issue (.init [] 0 1) small = .next (t, .ok)) ∧ (∃ t, issue .start State.reset = .next (t, .ok)) ∧
    (∃ t, issue .start small = .next (t, .err .invalidState)) ∧ (∃ t, issue .step small = .next (t, .event .retired)) ∧
    (∃ t, issue .step State.reset = .next (t, .err .invalidState)) ∧
      (∃ t, issue .step (ready 0x80000000 []) = .next (t, .err .illegalInstruction)) ∧
    (∃ t, issue (.restoreState small.capture) small = .next (t, .ok)) ∧
    (∃ t, issue (.restoreState small.capture) State.reset = .next (t, .err .snapshotMismatch)) ∧
      (∃ t, issue (.set 1 7) small = .next (t, .ok)) := ⟨⟨_, rfl⟩, ⟨_, rfl⟩, ⟨_, rfl⟩, ⟨_, rfl⟩, ⟨_, rfl⟩, ⟨_, rfl⟩, ⟨_, rfl⟩,
      ⟨_, rfl⟩, ⟨_, rfl⟩⟩

theorem test_witness_SaveStateCapturesEverything :
    small.memSize ≤ 16 ∧ 15 < small.memSize := by decide

theorem test_witness_RestoreStateOverwritesTheCore :
    (small.capture.valid = true ∧ small.capture.memSize = small.memSize) ∧
    (∀ S ∈ [{ small.capture with valid := false }, { small.capture with mem := [] },
      { small.capture with mem := 0 :: small.capture.mem }],
      ¬ (S.valid = true ∧ S.memSize = small.memSize)) := by decide

theorem test_witness_SnapshotRoundTripAfterAnyCommands :
    small.Inv ∧ issue (.saveState 16) small = .next (small, .snapshot small.capture) ∧
    returned [.step, .set 1 9, .write .byte 0x80000004 0, .step] small [.event .retired, .ok, .ok,
      .err .illegalInstruction] := ⟨by decide, rfl, ⟨_, rfl⟩⟩

theorem test_witness_RunsDoNotDependOnTheCounters :
    ∀ s' ∈ [{ small with instret := 5, faultCount := 0xffffffffffffffff }], s' ≠ small ∧ s'.x = small.x ∧ s'.pc = small.pc ∧
    s'.mem = small.mem ∧ s'.tag = small.tag ∧ s'.loadAddr = small.loadAddr ∧ s'.memSize = small.memSize := by decide

theorem test_witness_CounterIdentities :
    ∃ s, issue (.init [0x13] 0x80000000 8) State.reset = .next (s, .ok) ∧
    returned [.start, .step, .step, .step, .restoreState { s.capture with tag := .running }, .step] s
      [.ok, .event .retired, .err .illegalInstruction, .err .invalidState, .ok, .event .retired] := ⟨_, rfl, ⟨_, rfl⟩⟩

theorem test_witness_OnlyRestoreOrInitLeavesAFinishedRun :
    ∀ g ∈ [Tag.faulted, .completed], { small with tag := g }.Ended ∧
    returned [.step, .start, .set 1 9, .setPc 0x80000004] { small with tag := g } [.err .invalidState, .err .invalidState, .ok,
      .ok] := by
  intro g hg
  refine ⟨by revert g; decide, ?_⟩
  simp only [List.mem_cons, List.not_mem_nil, or_false] at hg
  rcases hg with rfl | rfl
  · exact ⟨_, rfl⟩
  · exact ⟨_, rfl⟩

end Sys2Proof.Machine
end

section
/-! SUPPORT. What a STEP does not read: the counters and the last result. Two states that differ in these alone are the same
machine, and STEPs keep them so (00_scope.md R14, 40_step_engine.md R120, 47_snapshot.md R272). -/

namespace Sys2Proof.Machine

/-- `s` with other counters and another last result. By `sameMachine_iff` these are the states that are the same machine. -/
def State.withReports (s : State) (instret faultCount : Word) (lastStep : Option StepResult) : State :=
  { s with instret, faultCount, lastStep }

/-- Two states are the same machine and last reported the same result to the host. -/
def SameMachineAndResult (s s' : State) : Prop := SameMachine s s' ∧ s.lastStep = s'.lastStep

/-! ## What the counters and the last result leave unchanged -/

section
variable (s : State) (c d : Word) (l : Option StepResult)

@[simp] theorem withReports_tag : (s.withReports c d l).tag = s.tag := rfl
@[simp] theorem withReports_fetch : (s.withReports c d l).fetch = s.fetch := rfl
@[simp] theorem withReports_tagAfter (e : Event) : (s.withReports c d l).tagAfter e = s.tagAfter e := rfl
@[simp] theorem withReports_inRegion (a : Int) : (s.withReports c d l).InRegion a ↔ s.InRegion a := Iff.rfl

theorem sameMachine_withReports : SameMachine s (s.withReports c d l) := ⟨rfl, rfl, rfl, rfl, rfl, rfl⟩

theorem applyMem_withReports (m : Option MemWrite) :
    (s.withReports c d l).applyMem m = (s.applyMem m).withReports c d l := by
  cases m <;> rfl

theorem setReg_withReports (r : RegIdx) (v : Word) :
    (s.withReports c d l).setReg r v = (s.setReg r v).withReports c d l := by
  unfold State.setReg
  split <;> rfl

theorem applyReg_withReports (q : Option (RegIdx × Word)) :
    (s.withReports c d l).applyReg q = (s.applyReg q).withReports c d l := by
  cases q with
  | none => rfl
  | some q => exact setReg_withReports s c d l q.1 q.2

end

/-- The same machine is the state itself but for the counters and the last result. -/
theorem sameMachine_iff {s s' : State} : SameMachine s s' ↔ ∃ c d l, s' = s.withReports c d l := by
  constructor
  · rintro ⟨hx, hpc, hmem, htag, hload, hsize⟩
    refine ⟨s'.instret, s'.faultCount, s'.lastStep, ?_⟩
    cases s'
    simp_all [State.withReports]
  · rintro ⟨c, d, l, rfl⟩
    exact sameMachine_withReports s c d l

/-! ## One step -/

theorem sameMachineAndResult_takeFault (s : State) (c d : Word) (l : Option StepResult) (f : Fault) :
    SameMachineAndResult (s.takeFault f) ((s.withReports c d l).takeFault f) :=
  ⟨⟨rfl, rfl, rfl, rfl, rfl, rfl⟩, rfl⟩

theorem sameMachineAndResult_commit (s : State) (c d : Word) (l : Option StepResult) (p : Proposal) :
    SameMachineAndResult (s.commit p) ((s.withReports c d l).commit p) := by
  have hwrites : ((s.withReports c d l).applyMem p.memWrite).applyReg p.regWrite =
      ((s.applyMem p.memWrite).applyReg p.regWrite).withReports c d l := by
    rw [applyMem_withReports, applyReg_withReports]
  unfold State.commit
  rw [hwrites]
  exact ⟨⟨rfl, rfl, rfl, withReports_tagAfter s c d l p.event, rfl, rfl⟩, rfl⟩

theorem sameMachineAndResult_resolve (s : State) (c d : Word) (l : Option StepResult) (r : Except Fault Proposal) :
    SameMachineAndResult (s.resolve r) ((s.withReports c d l).resolve r) := by
  rcases resolve_cases s r with ⟨p, rfl, hp, h⟩ | ⟨p, rfl, hp, h⟩ | ⟨f, rfl, h⟩
  · rw [h, resolve_inRegion ((withReports_inRegion s c d l p.npc).mpr hp)]
    exact sameMachineAndResult_commit s c d l p
  · rw [h, resolve_outside (mt (withReports_inRegion s c d l p.npc).mp hp)]
    exact sameMachineAndResult_takeFault s c d l .memoryFault
  · exact sameMachineAndResult_takeFault s c d l f

/-- No instruction's execute stage reads the counters or the last result: it gives the same proposal or fault. -/
theorem exec_withReports (i : Instr) (s : State) (c d : Word) (l : Option StepResult) :
    ∃ r, exec i s = .next (s.resolve r) ∧
      exec i (s.withReports c d l) = .next ((s.withReports c d l).resolve r) := by
  cases i <;> exact ⟨_, rfl, rfl⟩

theorem step_of_not_running {s : State} (h : s.tag ≠ .running) :
    step s = .next { s with lastStep := some (.err .invalidState) } := if_neg h

theorem step_of_fetch_error {s : State} {f : Fault} (ht : s.tag = .running) (hf : s.fetch = .error f) :
    step s = .next (s.takeFault f) := by
  simp only [step, if_pos ht, hf]

theorem step_of_decode_error {s : State} {w : InstrWord} {e : DecodeError} (ht : s.tag = .running) (hf : s.fetch = .ok w)
    (hd : decodeWord w = .error e) : step s = .next (s.takeFault .illegalInstruction) := by
  simp only [step, if_pos ht, hf, hd]

theorem step_of_decode_ok {s : State} {w : InstrWord} {i : Instr} (ht : s.tag = .running) (hf : s.fetch = .ok w)
    (hd : decodeWord w = .ok i) : step s = exec i s := by
  simp only [step, if_pos ht, hf, hd]

/-- A STEP of the same machine leaves the same machine and reports the same result, along each way a STEP can go
(40_step_engine.md R112, R120). -/
theorem step_sameMachine {s s' : State} (h : SameMachine s s') :
    ∃ t t', step s = .next t ∧ step s' = .next t' ∧ SameMachineAndResult t t' := by
  obtain ⟨c, d, l, rfl⟩ := sameMachine_iff.mp h
  have htag := withReports_tag s c d l
  have hfetch := withReports_fetch s c d l
  rcases step_cases s with ⟨ht, hs⟩ | ⟨ht, -, hf, hs⟩ | ⟨w, ht, -, hf, hd, hs⟩ | ⟨w, i, -, ht, -, hf, hd, -, hs, -⟩
  · exact ⟨_, _, hs, step_of_not_running (htag ▸ ht), ⟨rfl, rfl, rfl, rfl, rfl, rfl⟩, rfl⟩
  · exact ⟨_, _, hs, step_of_fetch_error (htag.trans ht) (hfetch.trans hf), sameMachineAndResult_takeFault s c d l _⟩
  · exact ⟨_, _, hs, step_of_decode_error (htag.trans ht) (hfetch.trans hf) hd, sameMachineAndResult_takeFault s c d l _⟩
  · obtain ⟨r, hr, hr'⟩ := exec_withReports i s c d l
    have hs' := step_of_decode_ok (htag.trans ht) (hfetch.trans hf) hd
    exact ⟨_, _, hs.trans hr, hs'.trans hr', sameMachineAndResult_resolve s c d l r⟩

/-! ## Any number of steps -/

theorem run_succ_of_step {M : Host.Core} {s t : M.State} (h : M.step s = .next t) (n : Nat) :
    M.run (n + 1) s = M.run n t := by
  rw [Host.Core.run, h]

/-- A relation that every step completes from and keeps is one that every run completes from and keeps. -/
theorem run_related {M : Host.Core} {R : M.State → M.State → Prop}
    (hstep : ∀ s s', R s s' → ∃ t t', M.step s = .next t ∧ M.step s' = .next t' ∧ R t t') (n : Nat) :
    ∀ s s', R s s' → ∃ t t', M.run n s = .next t ∧ M.run n s' = .next t' ∧ R t t' := by
  induction n with
  | zero => exact fun s s' h => ⟨s, s', rfl, rfl, h⟩
  | succ n ih =>
    intro s s' h
    obtain ⟨t, t', hs, hs', ht⟩ := hstep s s' h
    rw [run_succ_of_step hs, run_succ_of_step hs']
    exact ih t t' ht

/-- Settles O50: the first STEP makes the last results agree whatever they were, and every later one keeps them so. -/
theorem runsDoNotDependOnTheCounters : Obligations.RunsDoNotDependOnTheCounters := by
  intro n s s' h
  cases n with
  | zero => exact ⟨s, s', rfl, rfl, h, nofun⟩
  | succ n =>
    obtain ⟨t, t', hs, hs', ht⟩ := step_sameMachine h
    obtain ⟨u, u', hu, hu', hmachine, hresult⟩ :=
      run_related (M := Sys2Proof.core) (R := SameMachineAndResult) (fun _ _ h => step_sameMachine h.1) n t t' ht
    exact ⟨u, u', (run_succ_of_step (M := Sys2Proof.core) hs n).trans hu,
      (run_succ_of_step (M := Sys2Proof.core) hs' n).trans hu', hmachine, fun _ => hresult⟩

end Sys2Proof.Machine
end

section
/-! SUPPORT. Which commands can be refused, and when (46_host_commands.md R230, R236): INIT and SET_PC out of contract, and no
other. -/

namespace Sys2Proof.Machine

theorem not_initContract_iff {image : List Byte} {base : Word} {size : Nat} :
    ¬ InitContract image base size ↔ size = 0 ∨ 2 ^ 64 < base.toNat + size ∨ size < image.length := by
  omega

theorem not_inRegion_iff {s : State} {v : Word} :
    ¬ s.InRegion v.toNat ↔ v.toNat < s.loadAddr.toNat ∨ s.loadAddr.toNat + s.memSize ≤ v.toNat := by
  omega

/-- A command that checks its contract is refused by the contract's name exactly when the contract is broken. -/
theorem ite_refused_iff {contract : Prop} [Decidable contract] {a : State × Reply} {name e : Refusal} :
    (if contract then .next a else .refused name : Issued) = .refused e ↔ e = name ∧ ¬ contract := by
  by_cases h : contract
  · rw [if_pos h]; exact ⟨nofun, fun ⟨_, hn⟩ => absurd h hn⟩
  · rw [if_neg h]; exact ⟨by rintro ⟨⟩; exact ⟨rfl, h⟩, by rintro ⟨rfl, -⟩; rfl⟩

theorem issue_init_refused_iff {image : List Byte} {base : Word} {size : Nat} {s : State} {e : Refusal} :
    issue (.init image base size) s = .refused e ↔ e = .initContract ∧ ¬ InitContract image base size :=
  ite_refused_iff

theorem issue_setPc_refused_iff {v : Word} {s : State} {e : Refusal} :
    issue (.setPc v) s = .refused e ↔ e = .setPcContract ∧ ¬ s.InRegion v.toNat :=
  ite_refused_iff

/-- A STEP always leaves a next state (40_step_engine.md R110). -/
theorem step_next (s : State) : ∃ t, step s = .next t := by
  rcases step_cases s with ⟨-, hs⟩ | ⟨-, -, -, hs⟩ | ⟨_, -, -, -, -, hs⟩ | ⟨_, _, _, -, -, -, -, hexec, hs, -⟩
  · exact ⟨_, hs⟩
  · exact ⟨_, hs⟩
  · exact ⟨_, hs⟩
  · exact ⟨_, hs.trans hexec⟩

/-- Every command but INIT and SET_PC returns, in every state and with any arguments. -/
theorem issue_next {c : Command} (hinit : ∀ image base size, c ≠ .init image base size) (hpc : ∀ v, c ≠ .setPc v)
    (s : State) : ∃ t r, issue c s = .next (t, r) := by
  cases c with
  | init image base size => exact absurd rfl (hinit image base size)
  | setPc v => exact absurd rfl (hpc v)
  | step =>
    obtain ⟨t, ht⟩ := step_next s
    exact ⟨t, _, cmdStep_of_step ht⟩
  | get | set | getPc | getDiagnostics => exact ⟨_, _, rfl⟩
  | start => simp only [issue, cmdStart]; split <;> exact ⟨_, _, rfl⟩
  | read => simp only [issue, cmdRead]; split <;> exact ⟨_, _, rfl⟩
  | write => simp only [issue, cmdWrite]; split <;> exact ⟨_, _, rfl⟩
  | saveState => simp only [issue, cmdSaveState]; split <;> exact ⟨_, _, rfl⟩
  | restoreState => simp only [issue, cmdRestoreState]; split <;> exact ⟨_, _, rfl⟩

/-- Settles O53: INIT and SET_PC by their contracts, every other command because it returns. -/
theorem contractViolationsAreRefused : Obligations.ContractViolationsAreRefused := by
  intro c s e
  by_cases hinit : ∃ image base size, c = .init image base size
  · obtain ⟨image, base, size, rfl⟩ := hinit
    rw [issue_init_refused_iff, not_initContract_iff]
    simp
  by_cases hpc : ∃ v, c = .setPc v
  · obtain ⟨v, rfl⟩ := hpc
    rw [issue_setPc_refused_iff, not_inRegion_iff]
    simp
  obtain ⟨t, r, ht⟩ := issue_next (fun image base size h => hinit ⟨image, base, size, h⟩) (fun v h => hpc ⟨v, h⟩) s
  rw [ht]
  constructor
  · nofun
  · rintro (⟨-, image, base, size, h, -⟩ | ⟨-, v, h, -⟩)
    · exact absurd ⟨image, base, size, h⟩ hinit
    · exact absurd ⟨v, h⟩ hpc

end Sys2Proof.Machine
end

section
/-! SUPPORT. The invariant of the core (10_state.md R45): which changes of state keep it, then that INIT establishes it and that
every STEP and every other host command keeps it. -/

namespace Sys2Proof.Machine

/-! ## The memory and the pc -/

/-- An integer in the region of a configuration that keeps INIT's contract is a 64-bit address (20_memory.md R50). -/
theorem toNat_ofInt_of_inRegion {s : State} (hconfig : s.ConfigOk) {a : Int} (ha : s.InRegion a) :
    ((BitVec.ofInt 64 a).toNat : Int) = a := by
  rw [BitVec.toNat_ofInt]
  omega

/-- A memory built by listing bytes from the base of the region up (INIT, RESTORE_STATE) is one of the region. -/
theorem memOk_of_loaded {t : State} {bs : List Byte} (hmem : t.mem = Memory.setBytes [] t.loadAddr.toNat bs)
    (hlen : bs.length ≤ t.memSize) : t.MemOk := by
  rw [State.MemOk, hmem]
  refine ⟨Memory.wf_setBytes (by decide) _ _, fun c hc => ?_⟩
  rcases Memory.mem_setBytes hc with hnil | ⟨hlow, hhigh⟩
  · cases hnil
  · omega

theorem storeValue_memOk {s : State} {a : Int} {w : Width} (hmem : s.MemOk) (hb : s.InBounds a w.bytes) (v : Word) :
    (s.storeValue a w v).MemOk := by
  obtain ⟨hwf, hregion⟩ := hmem
  exact ⟨storeValue_wf hwf a w v, storeValue_inRegion v hb hregion⟩

theorem applyMem_memOk {s : State} (hmem : s.MemOk) {o : Option MemWrite}
    (hb : ∀ m, o = some m → s.InBounds m.addr m.width.bytes) : (s.applyMem o).MemOk := by
  cases o with
  | none => exact hmem
  | some m => exact storeValue_memOk hmem (hb m rfl) m.value

/-! ## INIT and reset -/

theorem initState_inv {image : List Byte} {base : Word} {size : Nat} (h : InitContract image base size) :
    (initState image base size).Inv := by
  obtain ⟨hpos, hfits, himage⟩ := h
  refine ⟨⟨hpos, hfits⟩, memOk_of_loaded rfl himage, fun _ => ?_⟩
  simp only [State.InRegion, initState]
  omega

theorem reset_eq_initState : State.reset = initState [] Config.resetLoadAddr Config.resetMemSize := rfl

theorem cmdInit_of_contract {image : List Byte} {base : Word} {size : Nat} (h : InitContract image base size) :
    cmdInit image base size = .next (initState image base size, .ok) := if_pos h

theorem resetConfig_contract : InitContract [] Config.resetLoadAddr Config.resetMemSize := by decide

/-- Settles O30: the reset state is the one INIT gives for its configuration. -/
theorem resetHasTheInvariant : Obligations.ResetHasTheInvariant :=
  ⟨reset_eq_initState ▸ initState_inv resetConfig_contract, cmdInit_of_contract resetConfig_contract⟩

@[simp] theorem initState_getReg (image : List Byte) (base : Word) (size : Nat) (r : RegIdx) :
    (initState image base size).getReg r = 0 := by
  unfold State.getReg
  split
  · rfl
  · exact Vector.getElem_replicate _

theorem initState_get (image : List Byte) (base : Word) (size i : Nat) :
    (initState image base size).mem.get (base.toNat + i) = if h : i < image.length then image[i] else 0 := by
  change Memory.get (Memory.setBytes [] base.toNat image) (base.toNat + i) = _
  rw [Memory.get_setBytes (by decide)]
  by_cases h : i < image.length
  · rw [dif_pos h, dif_pos (by omega)]
    simp
  · rw [dif_neg h, dif_neg (by omega)]
    rfl

/-- Settles O41: each value of the reset table is a field of `initState`, or a read of it. -/
theorem initGivesTheResetValues : Obligations.InitGivesTheResetValues := by
  intro image base size s₀ hcontract
  refine ⟨initState image base size, cmdInit_of_contract hcontract, initState_getReg image base size, rfl,
    fun i h => ?_, fun i h _ => ?_, rfl, rfl, rfl, rfl, rfl⟩
  · rw [initState_get, dif_pos h]
  · rw [initState_get, dif_neg (Nat.not_lt.mpr h)]

/-! ## STEP -/

/-- Fault entry may leave the pc anywhere: the tag is then `faulted` (10_state.md R27). -/
theorem takeFault_inv {s : State} (hs : s.Inv) (f : Fault) : (s.takeFault f).Inv := by
  obtain ⟨hconfig, hmem, -⟩ := hs
  exact ⟨hconfig, hmem, by rintro (h | h) <;> cases h⟩

/-- A commit keeps the invariant because its next address was checked against the region and its write against the bounds
(40_step_engine.md R112, R117). -/
theorem commit_inv {s : State} (hs : s.Inv) {p : Proposal} (hnpc : s.InRegion p.npc)
    (hwrite : ∀ m, p.memWrite = some m → s.InBounds m.addr m.width.bytes) : (s.commit p).Inv := by
  obtain ⟨hconfig, hmem, -⟩ := hs
  refine ⟨?_, ?_, fun _ => ?_⟩
  · simpa only [State.ConfigOk, commit_loadAddr, commit_memSize] using hconfig
  · simpa only [State.MemOk, commit_mem, commit_loadAddr, commit_memSize, applyMem_loadAddr, applyMem_memSize] using
      applyMem_memOk hmem hwrite
  · rw [commit_pc, toNat_ofInt_of_inRegion hconfig hnpc]
    simpa only [State.InRegion, commit_loadAddr, commit_memSize] using hnpc

theorem resolve_inv {i : Instr} {s : State} (hs : s.Inv) {r : Except Fault Proposal} (hr : Proposes i s r) :
    (s.resolve r).Inv := by
  rcases resolve_cases s r with ⟨p, hp, hnpc, h⟩ | ⟨p, -, -, h⟩ | ⟨f, -, h⟩ <;> rw [h]
  · exact commit_inv hs hnpc fun m => hr.inBounds p m hp
  · exact takeFault_inv hs .memoryFault
  · exact takeFault_inv hs f

/-- Settles O28, along each way a STEP can go (40_step_engine.md R112). -/
theorem stepKeepsTheInvariant : Obligations.StepKeepsTheInvariant := by
  intro s t hs ht
  rcases step_cases s with ⟨-, h⟩ | ⟨-, -, -, h⟩ | ⟨w, -, -, -, -, h⟩ | ⟨w, i, r, -, -, -, -, hexec, h, hr⟩
  · cases h.symm.trans ht
    exact hs
  · cases h.symm.trans ht
    exact takeFault_inv hs .memoryFault
  · cases h.symm.trans ht
    exact takeFault_inv hs .illegalInstruction
  · cases (h.trans hexec).symm.trans ht
    exact resolve_inv hs hr

/-! ## The other commands -/

theorem setReg_inv {s : State} (hs : s.Inv) (r : RegIdx) (v : Word) : (s.setReg r v).Inv := by
  simpa only [State.Inv, State.ConfigOk, State.MemOk, State.PcOk, State.InRegion, setReg_loadAddr, setReg_memSize,
    setReg_mem, setReg_tag, setReg_pc] using hs

/-- START leaves `halted`, where the pc already lies in the region. -/
theorem start_inv {s : State} (hs : s.Inv) (htag : s.tag = .halted) : { s with tag := .running }.Inv := by
  obtain ⟨hconfig, hmem, hpc⟩ := hs
  exact ⟨hconfig, hmem, fun _ => hpc (.inl htag)⟩

theorem setPc_inv {s : State} (hs : s.Inv) {v : Word} (hv : s.InRegion v.toNat) : { s with pc := v }.Inv := by
  obtain ⟨hconfig, hmem, -⟩ := hs
  exact ⟨hconfig, hmem, fun _ => hv⟩

theorem storeValue_inv {s : State} (hs : s.Inv) {a : Int} {w : Width} (hb : s.InBounds a w.bytes) (v : Word) :
    (s.storeValue a w v).Inv := by
  obtain ⟨hconfig, hmem, hpc⟩ := hs
  exact ⟨hconfig, storeValue_memOk hmem hb v, hpc⟩

theorem restore_inv {s : State} (hs : s.Inv) {S : Snapshot} (hsize : S.memSize = s.memSize)
    (hpc : S.tag = .halted ∨ S.tag = .running → s.InRegion S.pc.toNat) : (s.restore S).Inv := by
  obtain ⟨hconfig, -, -⟩ := hs
  exact ⟨hconfig, memOk_of_loaded (restore_mem s S) hsize.le, hpc⟩

/-- What a command other than STEP may leave of the state `s` (46_host_commands.md R245, 47_snapshot.md R262, R264). By
`leaves_of_issue` these are the only states such a command returns with. -/
inductive Leaves (c : Command) (s : State) : State → Prop where
  | same : Leaves c s s
  | init {image : List Byte} {base : Word} {size : Nat} (hcontract : InitContract image base size) :
      Leaves c s (initState image base size)
  | start (htag : s.tag = .halted) : Leaves c s { s with tag := .running }
  | set (q : RegIdx) (v : Word) : Leaves c s (s.setReg q v)
  | setPc {v : Word} (hv : s.InRegion v.toNat) : Leaves c s { s with pc := v }
  | write {a : Int} {w : Width} (hb : s.InBounds a w.bytes) (v : Word) : Leaves c s (s.storeValue a w v)
  | restore {S : Snapshot} (hc : c = .restoreState S) (hsize : S.memSize = s.memSize) : Leaves c s (s.restore S)

theorem leaves_of_issue {c : Command} {s t : State} {r : Reply} (hstep : c ≠ .step) (h : issue c s = .next (t, r)) :
    Leaves c s t := by
  cases c with
  | step => exact absurd rfl hstep
  | get | getPc | getDiagnostics => cases h; exact .same
  | init image base size =>
    simp only [issue, cmdInit] at h
    split at h <;> cases h
    exact .init ‹_›
  | start =>
    simp only [issue, cmdStart] at h
    split at h <;> cases h
    · exact .start ‹_›
    · exact .same
  | set q v => cases h; exact .set q v
  | setPc v =>
    simp only [issue, cmdSetPc] at h
    split at h <;> cases h
    exact .setPc ‹_›
  | read w a =>
    simp only [issue, cmdRead] at h
    split at h <;> cases h <;> exact .same
  | write w a v =>
    by_cases hb : s.InBounds a.toNat w.bytes
    · simp only [issue, cmdWrite, memWrite_inBounds hb] at h
      cases h
      exact .write hb _
    · simp only [issue, cmdWrite, memWrite_outOfBounds hb] at h
      cases h
      exact .same
  | saveState cap =>
    simp only [issue, cmdSaveState] at h
    split at h <;> cases h <;> exact .same
  | restoreState S =>
    simp only [issue, cmdRestoreState] at h
    split at h
    · next hchecks =>
      cases h
      exact .restore rfl hchecks.2
    · cases h
      exact .same

theorem step_of_issue_step {s t : State} {r : Reply} (h : issue .step s = .next (t, r)) : step s = .next t := by
  obtain ⟨u, hu⟩ := step_next s
  cases (cmdStep_of_step hu).symm.trans h
  exact hu

/-- A command that is no restore of a snapshot with an out-of-region pc keeps the invariant. -/
theorem issue_inv {c : Command} {s t : State} {r : Reply} (hs : s.Inv)
    (hpc : ∀ S, c = .restoreState S → S.tag = .halted ∨ S.tag = .running → s.InRegion S.pc.toNat)
    (h : issue c s = .next (t, r)) : t.Inv := by
  by_cases hc : c = .step
  · subst hc
    exact stepKeepsTheInvariant s t hs (step_of_issue_step h)
  cases leaves_of_issue hc h with
  | same => exact hs
  | init hcontract => exact initState_inv hcontract
  | start htag => exact start_inv hs htag
  | set q v => exact setReg_inv hs q v
  | setPc hv => exact setPc_inv hs hv
  | write hb v => exact storeValue_inv hs hb v
  | restore hS hsize => exact restore_inv hs hsize (hpc _ hS)

theorem eq_capture_of_saveState {s t : State} {cap : Nat} {S : Snapshot}
    (h : issue (.saveState cap) s = .next (t, .snapshot S)) : S = s.capture := by
  simp only [issue, cmdSaveState] at h
  split at h <;> cases h
  rfl

/-- Settles O29: `issue_inv`, and a snapshot that SAVE_STATE gives has the pc and the tag of a state with the invariant. -/
theorem commandsKeepTheInvariant : Obligations.CommandsKeepTheInvariant := by
  refine ⟨fun c s t r hs hpc h => issue_inv hs hpc h, fun s t cap S hs h htag => ?_⟩
  obtain ⟨-, -, hpc⟩ := hs
  cases eq_capture_of_saveState h
  exact hpc htag

end Sys2Proof.Machine
end

section
/-! SUPPORT. What an instruction does with a register it does not name (10_state.md R23): its execute stage neither reads nor
writes it, and the end of a step carries its value along. -/

namespace Sys2Proof.Machine

/-! ## Reads beside a register write -/

section
variable (s : State) (q : RegIdx) (v : Word)

theorem getReg_setReg_of_ne {r : RegIdx} (h : r ≠ q) : (s.setReg q v).getReg r = s.getReg r := by
  rw [getReg_setReg, if_neg fun hr => h hr.1]

@[simp] theorem setReg_inRegion (a : Int) : (s.setReg q v).InRegion a ↔ s.InRegion a := by
  simp only [State.InRegion, setReg_loadAddr, setReg_memSize]

@[simp] theorem setReg_seqPc : (s.setReg q v).seqPc = s.seqPc := by simp only [State.seqPc, setReg_pc]

@[simp] theorem setReg_pcTarget (imm : Word) : (s.setReg q v).pcTarget imm = s.pcTarget imm := by
  simp only [State.pcTarget, setReg_pc]

@[simp] theorem setReg_link : (s.setReg q v).link = s.link := by simp only [State.link, setReg_pc]

@[simp] theorem setReg_memRead (a : Int) (w : Width) : (s.setReg q v).memRead a w = s.memRead a w := by
  simp only [State.memRead, State.loadValue, State.InBounds, setReg_loadAddr, setReg_memSize, setReg_mem]

theorem setReg_effAddr_of_ne {rs1 : RegIdx} (h : rs1 ≠ q) (imm : Word) :
    (s.setReg q v).effAddr rs1 imm = s.effAddr rs1 imm := by
  rw [State.effAddr, State.effAddr, getReg_setReg_of_ne s q v h]

/-! ## Updates beside a register write -/

theorem setReg_takeFault (f : Fault) : (s.setReg q v).takeFault f = (s.takeFault f).setReg q v := by
  unfold State.setReg
  split <;> rfl

theorem setReg_applyMem (m : Option MemWrite) : (s.setReg q v).applyMem m = (s.applyMem m).setReg q v := by
  cases m with
  | none => rfl
  | some m => unfold State.setReg; split <;> rfl

theorem setReg_comm {r : RegIdx} (h : r ≠ q) (u : Word) : (s.setReg q v).setReg r u = (s.setReg r u).setReg q v := by
  by_cases hq : q = 0
  · simp only [State.setReg, if_pos hq]
  by_cases hr : r = 0
  · simp only [State.setReg, if_pos hr]
  have hslot : (slot q).val ≠ (slot r).val := fun e => h (slot_injective hq hr e).symm
  simp only [State.setReg, if_neg hq, if_neg hr]
  rw [Vector.set_comm _ _ hslot]

theorem setReg_applyReg {o : Option (RegIdx × Word)} (h : ∀ u, o ≠ some (q, u)) :
    (s.setReg q v).applyReg o = (s.applyReg o).setReg q v := by
  cases o with
  | none => rfl
  | some o =>
    obtain ⟨r, u⟩ := o
    exact setReg_comm s q v (by rintro rfl; exact h u rfl) u

/-- Only the verdict on an environment call reads every register (40_step_engine.md R118 (e)). -/
theorem setReg_tagAfter {e : Event} (h : e ≠ .envCall) : (s.setReg q v).tagAfter e = s.tagAfter e := by
  cases e with
  | envCall => exact absurd rfl h
  | retired | breakpoint => exact setReg_tag s q v

theorem setReg_commit {p : Proposal} (hwrite : ∀ u, p.regWrite ≠ some (q, u)) (hevent : p.event ≠ .envCall) :
    (s.setReg q v).commit p = (s.commit p).setReg q v := by
  have hwrites : ((s.setReg q v).applyMem p.memWrite).applyReg p.regWrite =
      ((s.applyMem p.memWrite).applyReg p.regWrite).setReg q v := by
    rw [setReg_applyMem, setReg_applyReg _ q v hwrite]
  unfold State.commit
  rw [hwrites, setReg_tagAfter s q v hevent, setReg_instret]
  unfold State.setReg
  split <;> rfl

end

/-! ## The execute stage -/

/-- An execute stage that gives the same whatever `q` holds, proposes no write of `q` and asks for no verdict. -/
structure Spares (q : RegIdx) (stage : State → Except Fault Proposal) : Prop where
  reads : ∀ s v, stage (s.setReg q v) = stage s
  writes : ∀ s p u, stage s = .ok p → p.regWrite ≠ some (q, u)
  event : ∀ s p, stage s = .ok p → p.event ≠ .envCall

theorem Spares.resolve_setReg {q : RegIdx} {stage : State → Except Fault Proposal} (h : Spares q stage) (s : State) (v : Word) :
    (s.setReg q v).resolve (stage (s.setReg q v)) = (s.resolve (stage s)).setReg q v := by
  rw [h.reads s v]
  rcases resolve_cases s (stage s) with ⟨p, hp, hnpc, hs⟩ | ⟨p, hp, hnpc, hs⟩ | ⟨f, hf, hs⟩ <;> rw [hs]
  · rw [hp, resolve_inRegion ((setReg_inRegion s q v p.npc).mpr hnpc)]
    exact setReg_commit s q v (fun u => h.writes s p u hp) (h.event s p hp)
  · rw [hp, resolve_outside (mt (setReg_inRegion s q v p.npc).mp hnpc)]
    exact setReg_takeFault s q v .memoryFault
  · rw [hf, resolve_error]
    exact setReg_takeFault s q v f

section
variable {q rd rs1 rs2 : RegIdx}

theorem spares_proposeReg (hrd : rd ≠ q) {val : State → Word} (hval : ∀ s v, val (s.setReg q v) = val s) :
    Spares q fun s => .ok (s.proposeReg rd (val s)) where
  reads s v := by simp only [State.proposeReg, setReg_seqPc, hval]
  writes := by rintro s _ u ⟨⟩ ⟨⟩; exact hrd rfl
  event := by rintro s _ ⟨⟩; nofun

theorem spares_proposeNone {e : Event} (he : e ≠ .envCall) : Spares q fun s => .ok (s.proposeNone e) where
  reads s v := by simp only [State.proposeNone, setReg_seqPc]
  writes := by rintro s _ u ⟨⟩; nofun
  event := by rintro s _ ⟨⟩; exact he

theorem spares_proposeJump (hrd : rd ≠ q) {target : State → Int} (htarget : ∀ s v, target (s.setReg q v) = target s) :
    Spares q fun s => .ok (s.proposeJump rd (target s)) where
  reads s v := by simp only [State.proposeJump, setReg_link, htarget]
  writes := by rintro s _ u ⟨⟩ ⟨⟩; exact hrd rfl
  event := by rintro s _ ⟨⟩; nofun

theorem spares_proposeBranch {taken : State → Bool} (htaken : ∀ s v, taken (s.setReg q v) = taken s) (imm : Word) :
    Spares q fun s => .ok (s.proposeBranch (taken s) imm) where
  reads s v := by simp only [State.proposeBranch, setReg_pcTarget, setReg_seqPc, htaken]
  writes := by rintro s _ u ⟨⟩; nofun
  event := by rintro s _ ⟨⟩; nofun

theorem proposeLoad_ok {s : State} {w : Width} {e : Extension} {imm : Word} {p : Proposal}
    (h : s.proposeLoad w e rd rs1 imm = .ok p) : ∃ u, p = s.proposeReg rd u := by
  unfold State.proposeLoad at h
  split at h <;> cases h
  exact ⟨_, rfl⟩

theorem spares_proposeLoad (hrd : rd ≠ q) (hrs1 : rs1 ≠ q) (w : Width) (e : Extension) (imm : Word) :
    Spares q fun s => s.proposeLoad w e rd rs1 imm where
  reads s v := by
    simp only [State.proposeLoad, State.proposeReg, setReg_effAddr_of_ne s q v hrs1, setReg_memRead, setReg_seqPc]
  writes := by
    rintro s p u h
    obtain ⟨_, rfl⟩ := proposeLoad_ok h
    rintro ⟨⟩
    exact hrd rfl
  event := by
    rintro s p h
    obtain ⟨_, rfl⟩ := proposeLoad_ok h
    nofun

theorem proposeStore_ok {s : State} {w : Width} {imm : Word} {p : Proposal} (h : s.proposeStore w rs2 rs1 imm = .ok p) :
    p.regWrite = none ∧ p.event = .retired := by
  unfold State.proposeStore at h
  split at h <;> cases h
  exact ⟨rfl, rfl⟩

theorem spares_proposeStore (hrs2 : rs2 ≠ q) (hrs1 : rs1 ≠ q) (w : Width) (imm : Word) :
    Spares q fun s => s.proposeStore w rs2 rs1 imm where
  reads s v := by
    simp only [State.proposeStore, State.InBounds, setReg_effAddr_of_ne s q v hrs1, getReg_setReg_of_ne s q v hrs2,
      setReg_loadAddr, setReg_memSize, setReg_seqPc]
  writes := by
    rintro s p u h
    rw [(proposeStore_ok h).1]
    nofun
  event := by
    rintro s p h
    rw [(proposeStore_ok h).2]
    nofun

end

/-- Every instruction but ECALL resolves an execute stage that spares the registers it does not name. -/
theorem exec_spares {i : Instr} (hi : i ≠ .ecall) {q : RegIdx} (hq : q ∉ namedRegs i) :
    ∃ stage, (∀ s, exec i s = .next (s.resolve (stage s))) ∧ Spares q stage := by
  cases i <;> simp only [namedRegs, List.mem_cons, List.not_mem_nil, or_false, not_or, eq_comm (a := q)] at hq
  case ecall => exact absurd rfl hi
  case fence | ebreak => exact ⟨_, fun _ => rfl, spares_proposeNone nofun⟩
  case lb | lh | lw | ld | lbu | lhu | lwu =>
    obtain ⟨hrd, hrs1⟩ := hq
    exact ⟨_, fun _ => rfl, spares_proposeLoad hrd hrs1 _ _ _⟩
  case sb | sh | sw | sd =>
    obtain ⟨hrs2, hrs1⟩ := hq
    exact ⟨_, fun _ => rfl, spares_proposeStore hrs2 hrs1 _ _⟩
  case beq | bne | blt | bge | bltu | bgeu =>
    obtain ⟨hrs1, hrs2⟩ := hq
    exact ⟨_, fun _ => rfl, spares_proposeBranch (fun s v => by
      rw [getReg_setReg_of_ne s q v hrs1, getReg_setReg_of_ne s q v hrs2]) _⟩
  case jal => exact ⟨_, fun _ => rfl, spares_proposeJump hq fun s v => setReg_pcTarget s q v _⟩
  case jalr =>
    obtain ⟨hrd, hrs1⟩ := hq
    exact ⟨_, fun _ => rfl, spares_proposeJump hrd fun s v => by
      rw [State.regTarget, State.regTarget, setReg_effAddr_of_ne s q v hrs1]⟩
  case lui => exact ⟨_, fun _ => rfl, spares_proposeReg hq fun _ _ => rfl⟩
  case auipc => exact ⟨_, fun _ => rfl, spares_proposeReg hq fun s v => by rw [setReg_pc]⟩
  case addi | slti | sltiu | xori | ori | andi | slli | srli | srai | addiw | slliw | srliw | sraiw =>
    obtain ⟨hrd, hrs1⟩ := hq
    exact ⟨_, fun _ => rfl, spares_proposeReg hrd fun s v => by rw [getReg_setReg_of_ne s q v hrs1]⟩
  case add | sub | sll | slt | sltu | xor | srl | sra | or | and | addw | subw | sllw | srlw | sraw =>
    obtain ⟨hrd, hrs1, hrs2⟩ := hq
    exact ⟨_, fun _ => rfl, spares_proposeReg hrd fun s v => by
      rw [getReg_setReg_of_ne s q v hrs1, getReg_setReg_of_ne s q v hrs2]⟩

/-- Settles O27: the execute stage spares the register, and resolving it carries the register's value along. -/
theorem unnamedRegistersPlayNoPart : Obligations.UnnamedRegistersPlayNoPart := by
  intro i s q v hi hq
  obtain ⟨stage, hexec, hspares⟩ := exec_spares hi hq
  exact ⟨_, hexec s, (hexec _).trans (congrArg _ (hspares.resolve_setReg s v))⟩

end Sys2Proof.Machine
end

section
/-! SUPPORT. What a read sees of memory and of a write before it (20_memory.md R53 to R55): a value read is fixed by its bytes, so
an access that lies inside one just written, a load or a fetch, gives those bits of the stored value. -/

namespace Sys2Proof.Machine

/-! ## Values and their bytes -/

/-- Values of an access that agree in every byte are equal. -/
theorem eq_of_bytes {w : Width} {u v : BitVec w.bits}
    (h : ∀ i, i < w.bytes → u.extractLsb' (8 * i) 8 = v.extractLsb' (8 * i) 8) : u = v := by
  refine BitVec.eq_of_getLsbD_eq fun j (hj : j < 8 * w.bytes) => ?_
  have hbyte := congrArg (·.getLsbD (j % 8)) (h (j / 8) (by omega))
  simpa only [BitVec.getLsbD_extractLsb', Nat.mod_lt j (by decide : 8 > 0), decide_true, Bool.true_and, Nat.div_add_mod]
    using hbyte

/-- A field of a field of a value is a field of the value itself. -/
theorem extractLsb'_extractLsb' {n : Nat} (v : BitVec n) (start : Nat) {inner len outer : Nat} (h : inner + len ≤ outer) :
    (v.extractLsb' start outer).extractLsb' inner len = v.extractLsb' (start + inner) len := by
  refine BitVec.eq_of_getLsbD_eq fun j hj => ?_
  have hj' : inner + j < outer := by omega
  simp only [BitVec.getLsbD_extractLsb', hj', decide_true, Bool.true_and, Nat.add_assoc]

/-- Settles O37: `loadValue_byte`, with the bounds check deciding between value and fault. -/
theorem memReadIsLittleEndianOrFaults : Obligations.MemReadIsLittleEndianOrFaults := fun s a w =>
  ⟨Iff.rfl, fun hb => ⟨s.loadValue a w, memRead_inBounds hb, loadValue_byte s a w⟩, memRead_outOfBounds,
    fun hb => memWrite_outOfBounds hb⟩

/-! ## A read after a write -/

theorem storeValue_get_inside {s : State} (hm : s.mem.wf) (a : Int) {w : Width} (v : Word) {i : Nat} (hi : i < w.bytes) :
    (s.storeValue a w v).mem.get (a.toNat + i) = v.extractLsb' (8 * i) 8 := by
  rw [storeValue_get hm, if_pos (by omega), Nat.add_sub_cancel_left]

theorem storeValue_get_outside {s : State} (hm : s.mem.wf) {a : Int} {w : Width} (v : Word) {q : Nat}
    (hq : q < a.toNat ∨ a.toNat + w.bytes ≤ q) : (s.storeValue a w v).mem.get q = s.mem.get q := by
  rw [storeValue_get hm, if_neg (by omega)]

/-- A read of `r.bytes` bytes, `k` bytes up in the access just written, gives bits `8k` and up of the stored value
(20_memory.md R54). -/
theorem memRead_storeValue {s : State} (hm : s.mem.wf) {a : Int} {w r : Width} (hb : s.InBounds a w.bytes) (v : Word) {k : Nat}
    (hk : k + r.bytes ≤ w.bytes) : (s.storeValue a w v).memRead (a + k) r = .ok (v.extractLsb' (8 * k) r.bits) := by
  obtain ⟨hlow, hhigh⟩ := hb
  have hread : (s.storeValue a w v).InBounds (a + k) r.bytes := by
    simp only [State.InBounds, storeValue_loadAddr, storeValue_memSize]
    omega
  refine (memRead_inBounds hread).trans (congrArg Except.ok (eq_of_bytes fun i hi => ?_))
  have hbyte : 8 * i + 8 ≤ 8 * r.bytes := by omega
  have haddr : (a + k).toNat + i = a.toNat + (k + i) := by omega
  rw [loadValue_byte _ _ _ i hi, haddr, storeValue_get_inside hm a v (by omega), extractLsb'_extractLsb' v _ hbyte, Nat.mul_add]

/-- A read of the access just written gives the low bits of the stored value back (20_memory.md R55). -/
theorem memRead_storeValue_same {s : State} (hm : s.mem.wf) {a : Int} {w : Width} (hb : s.InBounds a w.bytes) (v : Word) :
    (s.storeValue a w v).memRead a w = .ok (v.extractLsb' 0 w.bits) := by
  rw [memRead_inBounds (s := s.storeValue a w v) hb, loadValue_storeValue hm]

/-- A fetch is a read of four bytes at the pc, wherever the pc is put (20_memory.md R57). -/
theorem fetch_withPc (s : State) (p : Word) : State.fetch { s with pc := p } = s.memRead p.toNat .word := rfl

/-- Settles O38: a byte inside the access, a byte outside it, and the read back, each by its lemma on `storeValue`. -/
theorem memWriteRoundTripsAndTouchesNothingElse : Obligations.MemWriteRoundTripsAndTouchesNothingElse := by
  intro s a w v hm
  refine ⟨fun hb => ⟨s.storeValue a w v, memWrite_inBounds hb v, rfl, storeValue_wf hm a w v,
    fun i hi => storeValue_get_inside hm a v hi, fun q hq => ?_, memRead_storeValue_same hm hb v⟩,
    fun hb => memWrite_outOfBounds hb v⟩
  obtain ⟨hlow, -⟩ := hb
  exact storeValue_get_outside hm v (by omega)

/-- Settles O39: each read is one of `memRead_storeValue`, and a fetch is a read of four bytes. -/
theorem narrowReadsSeeALittleEndianDoubleword : Obligations.NarrowReadsSeeALittleEndianDoubleword := by
  intro s a v hm hb
  have hread {r : Width} (k : Nat) (hk : k + r.bytes ≤ 8) :
      (s.storeValue a .dword v).memRead (a + k) r = .ok (v.extractLsb' (8 * k) r.bits) :=
    memRead_storeValue (w := .dword) hm hb v hk
  have hword : (s.storeValue a .dword v).memRead a .word = .ok (v.extractLsb' 0 32) := by
    have h := hread (r := .word) 0 (by decide)
    rwa [Nat.cast_zero, add_zero] at h
  have hdword : (s.storeValue a .dword v).memRead a .dword = .ok v :=
    (memRead_storeValue_same (w := .dword) hm hb v).trans (congrArg Except.ok BitVec.extractLsb'_eq_self)
  refine ⟨_, memWrite_inBounds (w := .dword) hb v, fun i hi => hread (r := .byte) i hi, hword,
    hread (r := .word) 4 (by decide), hdword, fun p hp => ?_⟩
  rw [fetch_withPc, hp]
  exact hword

/-! ## A fetch after a store instruction -/

/-- A store in bounds that goes on in the region retires with the store done (44_load_store.md R213). -/
theorem resolve_proposeStore {s : State} {w : Width} {rs1 : RegIdx} {imm : Word} (rs2 : RegIdx)
    (hb : s.InBounds (s.effAddr rs1 imm) w.bytes) (hnpc : s.InRegion s.seqPc) :
    s.resolve (s.proposeStore w rs2 rs1 imm) =
      s.commit ⟨none, some ⟨s.effAddr rs1 imm, w, s.getReg rs2⟩, s.seqPc, .retired⟩ := by
  rw [proposeStore_inBounds rs2 hb, resolve_inRegion hnpc]

/-- A fetch after a commit of a memory write reads the memory that write left: nothing else of a commit reaches it but the pc
(20_memory.md R68). -/
theorem fetch_commit_write (s : State) (m : MemWrite) (npc : Int) (e : Event) (p : Word) :
    State.fetch { s.commit ⟨none, some m, npc, e⟩ with pc := p } =
      (s.storeValue m.addr m.width m.value).memRead p.toNat .word := rfl

/-- Settles O40: the store retires, the effective address is a 64-bit address, and the fetch there reads back the access. -/
theorem aStoreIsSeenByTheNextFetch : Obligations.AStoreIsSeenByTheNextFetch := by
  intro rs2 rs1 imm s hm hconfig hb hnpc
  have haddr : ((BitVec.ofInt 64 (ea s rs1 imm)).toNat : Int) = ea s rs1 imm := by
    obtain ⟨hlow, hhigh⟩ := hb
    exact toNat_ofInt_of_inRegion hconfig ⟨hlow, by omega⟩
  refine ⟨_, congrArg Host.Outcome.next (resolve_proposeStore (w := .word) rs2 hb hnpc), ?_⟩
  rw [fetch_commit_write, haddr]
  exact memRead_storeValue_same (w := .word) hm hb (s.getReg rs2)

end Sys2Proof.Machine
end

section
/-! SUPPORT. The opcode table as a whole (30_encoding.md R94): a field that a row fixes, that no word belongs to two rows, and so
that the decoder reads a word by the one row it belongs to. -/

namespace Sys2Proof

/-- A word of a row holds the row's bits wherever the row's mask is all ones (30_encoding.md R94). -/
theorem field_of_masked {w mask pat : InstrWord} {start len : Nat} (h : w &&& mask = pat)
    (hmask : mask.extractLsb' start len = BitVec.allOnes len) : w.extractLsb' start len = pat.extractLsb' start len := by
  rw [← h, BitVec.extractLsb'_and, hmask, BitVec.and_allOnes]

/-- Any two rows of the table differ in a bit that both of them fix. -/
theorem opcodeTable_pairwise_differ : opcodeTable.Pairwise fun r q => r.pat &&& q.mask ≠ q.pat &&& r.mask := by
  decide

/-- Two rows that accept one word agree in every bit that both of them fix. -/
theorem pats_agree {w : InstrWord} {r q : Row} (hr : w &&& r.mask = r.pat) (hq : w &&& q.mask = q.pat) :
    r.pat &&& q.mask = q.pat &&& r.mask := by
  rw [← hr, ← hq, BitVec.and_assoc, BitVec.and_assoc, BitVec.and_comm r.mask]

/-- No word belongs to two rows (30_encoding.md R94). -/
theorem row_index_unique {w : InstrWord} {j k : Nat} (hj : j < opcodeTable.length) (hk : k < opcodeTable.length)
    (hwj : w &&& opcodeTable[j].mask = opcodeTable[j].pat) (hwk : w &&& opcodeTable[k].mask = opcodeTable[k].pat) : j = k := by
  have hdiffer := List.pairwise_iff_getElem.mp opcodeTable_pairwise_differ
  rcases Nat.lt_trichotomy j k with hjk | hjk | hjk
  · exact absurd (pats_agree hwj hwk) (hdiffer j k hj hk hjk)
  · exact hjk
  · exact absurd (pats_agree hwk hwj) (hdiffer k j hk hj hjk)

theorem row_unique {w : InstrWord} {r q : Row} (hr : r ∈ opcodeTable) (hq : q ∈ opcodeTable) (hwr : w &&& r.mask = r.pat)
    (hwq : w &&& q.mask = q.pat) : r = q := by
  obtain ⟨j, hj, rfl⟩ := List.getElem_of_mem hr
  obtain ⟨k, hk, rfl⟩ := List.getElem_of_mem hq
  obtain rfl := row_index_unique hj hk hwr hwq
  rfl

theorem decodeWord_of_row {w : InstrWord} {r : Row} (hr : r ∈ opcodeTable) (hw : w &&& r.mask = r.pat) :
    decodeWord w = .ok (r.build w) := by
  rcases decodeWord_cases w with ⟨q, hq, hwq, hd⟩ | ⟨hnone, -⟩
  · rw [hd, row_unique hq hr hwq hw]
  · exact absurd hw (hnone r hr)

theorem decodeWord_of_no_row {w : InstrWord} (hw : ∀ r ∈ opcodeTable, w &&& r.mask ≠ r.pat) :
    decodeWord w = .error .illegal := by
  rcases decodeWord_cases w with ⟨r, hr, hwr, -⟩ | ⟨-, hd⟩
  · exact absurd hwr (hw r hr)
  · exact hd

theorem decodeWord_ok_iff {w : InstrWord} {i : Instr} :
    decodeWord w = .ok i ↔ ∃ r ∈ opcodeTable, w &&& r.mask = r.pat ∧ r.build w = i := by
  constructor
  · intro h
    rcases decodeWord_cases w with ⟨r, hr, hwr, hd⟩ | ⟨-, hd⟩
    · rw [hd] at h
      exact ⟨r, hr, hwr, Except.ok.inj h⟩
    · rw [hd] at h
      cases h
  · rintro ⟨r, hr, hwr, rfl⟩
    exact decodeWord_of_row hr hwr

theorem decodeWord_illegal_iff {w : InstrWord} :
    decodeWord w = .error .illegal ↔ ∀ r ∈ opcodeTable, w &&& r.mask ≠ r.pat := by
  refine ⟨fun h r hr hwr => ?_, decodeWord_of_no_row⟩
  rw [decodeWord_of_row hr hwr] at h
  cases h

/-- Settles O34: the rows differ pairwise in a bit both fix, so the first row that accepts a word is the only one. -/
theorem decodeFollowsTheOnlyMatchingRow : Obligations.DecodeFollowsTheOnlyMatchingRow :=
  ⟨fun _ _ => decodeWord_ok_iff, fun _ _ _ hj hk => row_index_unique hj hk, fun _ => decodeWord_of_no_row⟩

end Sys2Proof
end

section
/-! SUPPORT. The encoder and the decoder as inverses of each other (30_encoding.md R82 to R93): the immediates a format holds, the
fields of an encoded word, the word put together again from its fields, and then one argument per row and per instruction. -/

namespace Sys2Proof

/-! ## The immediates a format holds (R88 to R92) -/

/-- The sign-extended `n` bits above `k` zeros are the multiples of `2^k` in a signed range. -/
theorem exists_signExtend_iff {n k : Nat} (h : n + k ≤ 64) {imm : Word} :
    (∃ x : BitVec n, imm = (x ++ 0#k).signExtend 64) ↔
      ∃ q : Int, imm.toInt = 2 ^ k * q ∧ -2 ^ n ≤ 2 * q ∧ 2 * q < 2 ^ n := by
  constructor
  · rintro ⟨x, rfl⟩
    refine ⟨x.toInt, ?_, BitVec.le_two_mul_toInt, BitVec.two_mul_toInt_lt⟩
    rw [BitVec.toInt_signExtend_of_le h, BitVec.toInt_append_zero]
  · rintro ⟨q, hq, hlo, hhi⟩
    refine ⟨BitVec.ofInt n q, BitVec.eq_of_toInt_eq ?_⟩
    rw [BitVec.toInt_signExtend_of_le h, BitVec.toInt_append_zero, BitVec.toInt_ofInt,
      Int.bmod_eq_of_le_mul_two (by push_cast; omega) (by push_cast; omega), hq]

theorem fitsI_iff {imm : Word} : fitsI imm = true ↔ ∃ x : BitVec 12, imm = x.signExtend 64 := by
  have hzeros (x : BitVec 12) : x ++ 0#0 = x := BitVec.append_zero_width x 0#0
  have hiff := exists_signExtend_iff (n := 12) (k := 0) (by decide) (imm := imm)
  simp only [hzeros] at hiff
  rw [hiff, fitsI, decide_eq_true_iff]
  constructor
  · rintro ⟨hlo, hhi⟩
    exact ⟨imm.toInt, by omega, by omega, by omega⟩
  · rintro ⟨q, hq, hlo, hhi⟩
    omega

theorem fitsS_iff {imm : Word} : fitsS imm = true ↔ ∃ x : BitVec 12, imm = x.signExtend 64 := fitsI_iff

theorem fitsB_iff {imm : Word} : fitsB imm = true ↔ ∃ x : BitVec 12, imm = (x ++ 0#1).signExtend 64 := by
  rw [exists_signExtend_iff (by decide), fitsB, decide_eq_true_iff]
  constructor
  · rintro ⟨hlo, hhi, heven⟩
    exact ⟨imm.toInt / 2, by omega, by omega, by omega⟩
  · rintro ⟨q, hq, hlo, hhi⟩
    omega

theorem fitsU_iff {imm : Word} : fitsU imm = true ↔ ∃ x : BitVec 20, imm = (x ++ 0#12).signExtend 64 := by
  rw [exists_signExtend_iff (by decide), fitsU, decide_eq_true_iff]
  constructor
  · rintro ⟨hlo, hhi, hmultiple⟩
    exact ⟨imm.toInt / 4096, by omega, by omega, by omega⟩
  · rintro ⟨q, hq, hlo, hhi⟩
    omega

theorem fitsJ_iff {imm : Word} : fitsJ imm = true ↔ ∃ x : BitVec 20, imm = (x ++ 0#1).signExtend 64 := by
  rw [exists_signExtend_iff (by decide), fitsJ, decide_eq_true_iff]
  constructor
  · rintro ⟨hlo, hhi, heven⟩
    exact ⟨imm.toInt / 2, by omega, by omega, by omega⟩
  · rintro ⟨q, hq, hlo, hhi⟩
    omega

section
variable (w : InstrWord)

theorem fitsI_immI : fitsI (immI w) = true := fitsI_iff.mpr ⟨_, rfl⟩
theorem fitsS_immS : fitsS (immS w) = true := fitsS_iff.mpr ⟨_, rfl⟩
theorem fitsB_immB : fitsB (immB w) = true := fitsB_iff.mpr ⟨_, rfl⟩
theorem fitsU_immU : fitsU (immU w) = true := fitsU_iff.mpr ⟨_, rfl⟩
theorem fitsJ_immJ : fitsJ (immJ w) = true := fitsJ_iff.mpr ⟨_, rfl⟩

end

/-! ## Fields of a word and of an immediate -/

/-- A field below the sign is a field of the value extended. -/
theorem extractLsb'_signExtend {n start len : Nat} (x : BitVec n) (h : start + len ≤ n) (hn : n ≤ 64) :
    (x.signExtend 64).extractLsb' start len = x.extractLsb' start len := by
  refine BitVec.eq_of_getLsbD_eq fun i hi => ?_
  have hn' : start + i < n := by omega
  have hword : start + i < 64 := by omega
  simp only [BitVec.getLsbD_extractLsb', BitVec.getLsbD_signExtend, hn', hword, decide_true, Bool.true_and, if_true]

/-! ## The fields of an encoded word (R81 to R87, R93) -/

section
variable (f7 : BitVec 7) (f12 : BitVec 12) (imm : Word) (rs2 rs1 rd : RegIdx) (f3 : BitVec 3) (op : BitVec 7)

@[simp] theorem rdOf_encR : rdOf (encR f7 rs2 rs1 f3 rd op) = rd := by
  unfold rdOf encR
  rw [BitVec.extractLsb'_append_eq_of_le (by decide), BitVec.extractLsb'_append_eq_right]
@[simp] theorem rs1Of_encR : rs1Of (encR f7 rs2 rs1 f3 rd op) = rs1 := by
  unfold rs1Of encR
  iterate 3 rw [BitVec.extractLsb'_append_eq_of_le (by decide)]
  rw [BitVec.extractLsb'_append_eq_right]
@[simp] theorem rs2Of_encR : rs2Of (encR f7 rs2 rs1 f3 rd op) = rs2 := by
  unfold rs2Of encR
  iterate 4 rw [BitVec.extractLsb'_append_eq_of_le (by decide)]
  rw [BitVec.extractLsb'_append_eq_right]
@[simp] theorem shamt5Of_encR : shamt5Of (encR f7 rs2 rs1 f3 rd op) = rs2 := rs2Of_encR ..

@[simp] theorem rdOf_encFields : rdOf (encFields f12 rs1 f3 rd op) = rd := by
  unfold rdOf encFields
  rw [BitVec.extractLsb'_append_eq_of_le (by decide), BitVec.extractLsb'_append_eq_right]
@[simp] theorem rs1Of_encFields : rs1Of (encFields f12 rs1 f3 rd op) = rs1 := by
  unfold rs1Of encFields
  iterate 3 rw [BitVec.extractLsb'_append_eq_of_le (by decide)]
  rw [BitVec.extractLsb'_append_eq_right]
@[simp] theorem imm12_encFields : (encFields f12 rs1 f3 rd op).extractLsb' 20 12 = f12 := by
  unfold encFields
  iterate 3 rw [BitVec.extractLsb'_append_eq_of_le (by decide)]
  rw [BitVec.extractLsb'_append_eq_left]
@[simp] theorem shamt6Of_encFields (f6 sh : BitVec 6) : shamt6Of (encFields (f6 ++ sh) rs1 f3 rd op) = sh := by
  unfold shamt6Of encFields
  iterate 4 rw [BitVec.extractLsb'_append_eq_of_le (by decide)]
  rw [BitVec.extractLsb'_append_eq_right]
@[simp] theorem rdOf_encI : rdOf (encI imm rs1 f3 rd op) = rd := rdOf_encFields ..
@[simp] theorem rs1Of_encI : rs1Of (encI imm rs1 f3 rd op) = rs1 := rs1Of_encFields ..

/-- Format S is laid out as format R, with the immediate where R has funct7 and rd. -/
theorem encS_eq_encR : encS imm rs2 rs1 f3 op = encR (imm.extractLsb' 5 7) rs2 rs1 f3 (imm.extractLsb' 0 5) op := rfl
@[simp] theorem rs1Of_encS : rs1Of (encS imm rs2 rs1 f3 op) = rs1 := by rw [encS_eq_encR, rs1Of_encR]
@[simp] theorem rs2Of_encS : rs2Of (encS imm rs2 rs1 f3 op) = rs2 := by rw [encS_eq_encR, rs2Of_encR]
@[simp] theorem rs1Of_encB : rs1Of (encB imm rs2 rs1 f3 op) = rs1 := by
  unfold rs1Of encB
  iterate 4 rw [BitVec.extractLsb'_append_eq_of_le (by decide)]
  rw [BitVec.extractLsb'_append_eq_right]
@[simp] theorem rs2Of_encB : rs2Of (encB imm rs2 rs1 f3 op) = rs2 := by
  unfold rs2Of encB
  iterate 5 rw [BitVec.extractLsb'_append_eq_of_le (by decide)]
  rw [BitVec.extractLsb'_append_eq_right]
@[simp] theorem rdOf_encU : rdOf (encU imm rd op) = rd := by
  unfold rdOf encU
  rw [BitVec.extractLsb'_append_eq_of_le (by decide), BitVec.extractLsb'_append_eq_right]
@[simp] theorem rdOf_encJ : rdOf (encJ imm rd op) = rd := by
  unfold rdOf encJ
  rw [BitVec.extractLsb'_append_eq_of_le (by decide), BitVec.extractLsb'_append_eq_right]

/-! ## The immediate of an encoded word -/

/-- Format S keeps all 12 low bits of the immediate (R84, R89). -/
theorem immS_encS_eq : immS (encS imm rs2 rs1 f3 op) = (imm.extractLsb' 0 12).signExtend 64 := by
  have hhigh : (encS imm rs2 rs1 f3 op).extractLsb' 25 7 = imm.extractLsb' 5 7 := by
    unfold encS
    iterate 4 rw [BitVec.extractLsb'_append_eq_of_le (by decide)]
    rw [BitVec.extractLsb'_append_eq_left]
  have hlow : (encS imm rs2 rs1 f3 op).extractLsb' 7 5 = imm.extractLsb' 0 5 := rdOf_encR ..
  rw [immS, hhigh, hlow, BitVec.extractLsb'_append_extractLsb'_eq_extractLsb' (by decide)]

/-- Format B keeps bits 12 to 1 of the immediate (R85, R90). -/
theorem immB_encB_eq : immB (encB imm rs2 rs1 f3 op) = (imm.extractLsb' 1 12 ++ 0#1).signExtend 64 := by
  have h31 : (encB imm rs2 rs1 f3 op).extractLsb' 31 1 = imm.extractLsb' 12 1 := by
    unfold encB
    iterate 6 rw [BitVec.extractLsb'_append_eq_of_le (by decide)]
    rw [BitVec.extractLsb'_append_eq_left]
  have h7 : (encB imm rs2 rs1 f3 op).extractLsb' 7 1 = imm.extractLsb' 11 1 := by
    unfold encB
    rw [BitVec.extractLsb'_append_eq_of_le (by decide), BitVec.extractLsb'_append_eq_right]
  have h25 : (encB imm rs2 rs1 f3 op).extractLsb' 25 6 = imm.extractLsb' 5 6 := by
    unfold encB
    iterate 6 rw [BitVec.extractLsb'_append_eq_of_le (by decide)]
    rw [BitVec.extractLsb'_append_eq_right]
  have h8 : (encB imm rs2 rs1 f3 op).extractLsb' 8 4 = imm.extractLsb' 1 4 := by
    unfold encB
    iterate 2 rw [BitVec.extractLsb'_append_eq_of_le (by decide)]
    rw [BitVec.extractLsb'_append_eq_right]
  rw [immB, h31, h7, h25, h8]
  iterate 3 rw [BitVec.extractLsb'_append_extractLsb'_eq_extractLsb' (by decide)]

/-- Format U keeps bits 31 to 12 of the immediate (R86, R91). -/
theorem immU_encU_eq : immU (encU imm rd op) = (imm.extractLsb' 12 20 ++ 0#12).signExtend 64 := by
  have h12 : (encU imm rd op).extractLsb' 12 20 = imm.extractLsb' 12 20 := by
    unfold encU
    rw [BitVec.extractLsb'_append_eq_of_le (by decide), BitVec.extractLsb'_append_eq_left]
  rw [immU, h12]

/-- Format J keeps bits 20 to 1 of the immediate (R87, R92). -/
theorem immJ_encJ_eq : immJ (encJ imm rd op) = (imm.extractLsb' 1 20 ++ 0#1).signExtend 64 := by
  have h31 : (encJ imm rd op).extractLsb' 31 1 = imm.extractLsb' 20 1 := by
    unfold encJ
    iterate 4 rw [BitVec.extractLsb'_append_eq_of_le (by decide)]
    rw [BitVec.extractLsb'_append_eq_left]
  have h12 : (encJ imm rd op).extractLsb' 12 8 = imm.extractLsb' 12 8 := by
    unfold encJ
    iterate 2 rw [BitVec.extractLsb'_append_eq_of_le (by decide)]
    rw [BitVec.extractLsb'_append_eq_right]
  have h20 : (encJ imm rd op).extractLsb' 20 1 = imm.extractLsb' 11 1 := by
    unfold encJ
    iterate 3 rw [BitVec.extractLsb'_append_eq_of_le (by decide)]
    rw [BitVec.extractLsb'_append_eq_right]
  have h21 : (encJ imm rd op).extractLsb' 21 10 = imm.extractLsb' 1 10 := by
    unfold encJ
    iterate 4 rw [BitVec.extractLsb'_append_eq_of_le (by decide)]
    rw [BitVec.extractLsb'_append_eq_right]
  rw [immJ, h31, h12, h20, h21]
  iterate 3 rw [BitVec.extractLsb'_append_extractLsb'_eq_extractLsb' (by decide)]

variable {imm}

theorem immI_encI (h : fitsI imm = true) : immI (encI imm rs1 f3 rd op) = imm := by
  obtain ⟨x, rfl⟩ := fitsI_iff.mp h
  rw [immI, encI, imm12_encFields, extractLsb'_signExtend x (by decide) (by decide), BitVec.extractLsb'_eq_self]

theorem immS_encS (h : fitsS imm = true) : immS (encS imm rs2 rs1 f3 op) = imm := by
  obtain ⟨x, rfl⟩ := fitsS_iff.mp h
  rw [immS_encS_eq, extractLsb'_signExtend x (by decide) (by decide), BitVec.extractLsb'_eq_self]

theorem immB_encB (h : fitsB imm = true) : immB (encB imm rs2 rs1 f3 op) = imm := by
  obtain ⟨x, rfl⟩ := fitsB_iff.mp h
  rw [immB_encB_eq, extractLsb'_signExtend _ (by decide) (by decide), BitVec.extractLsb'_append_eq_left]

theorem immU_encU (h : fitsU imm = true) : immU (encU imm rd op) = imm := by
  obtain ⟨x, rfl⟩ := fitsU_iff.mp h
  rw [immU_encU_eq, extractLsb'_signExtend _ (by decide) (by decide), BitVec.extractLsb'_append_eq_left]

theorem immJ_encJ (h : fitsJ imm = true) : immJ (encJ imm rd op) = imm := by
  obtain ⟨x, rfl⟩ := fitsJ_iff.mp h
  rw [immJ_encJ_eq, extractLsb'_signExtend _ (by decide) (by decide), BitVec.extractLsb'_append_eq_left]

end

/-! ## A word put together again from its fields -/

section
variable {w : InstrWord} {f7 : BitVec 7} {f6 : BitVec 6} {f3 : BitVec 3} {op : BitVec 7}

/-- The rows whose mask holds the opcode and funct3 fix both. -/
theorem funct3_opcode_of_masked {mask : InstrWord} {high : BitVec 17} (h : w &&& mask = (high ++ f3 ++ 0#5 ++ op : BitVec 32))
    (hfunct3 : mask.extractLsb' 12 3 = BitVec.allOnes 3) (hopcode : mask.extractLsb' 0 7 = BitVec.allOnes 7) :
    w.extractLsb' 12 3 = f3 ∧ w.extractLsb' 0 7 = op := by
  constructor
  · rw [field_of_masked h hfunct3]
    iterate 2 rw [BitVec.extractLsb'_append_eq_of_le (by decide)]
    rw [BitVec.extractLsb'_append_eq_right]
  · rw [field_of_masked h hopcode, BitVec.extractLsb'_append_eq_right]

theorem encFields_of_masked (h : w &&& 0x0000707f#32 = (0#17 ++ f3 ++ 0#5 ++ op : BitVec 32)) :
    encFields (w.extractLsb' 20 12) (rs1Of w) f3 (rdOf w) op = w := by
  obtain ⟨rfl, rfl⟩ := funct3_opcode_of_masked h rfl rfl
  unfold encFields rs1Of rdOf
  iterate 4 rw [BitVec.extractLsb'_append_extractLsb'_eq_extractLsb' (by decide)]
  rw [BitVec.extractLsb'_eq_self]

theorem encI_of_masked (h : w &&& 0x0000707f#32 = (0#17 ++ f3 ++ 0#5 ++ op : BitVec 32)) :
    encI (immI w) (rs1Of w) f3 (rdOf w) op = w := by
  rw [encI, immI, extractLsb'_signExtend _ (by decide) (by decide), BitVec.extractLsb'_eq_self, encFields_of_masked h]

theorem encShift_of_masked (h : w &&& 0xfc00707f#32 = (f6 ++ 0#11 ++ f3 ++ 0#5 ++ op : BitVec 32)) :
    encFields (f6 ++ shamt6Of w) (rs1Of w) f3 (rdOf w) op = w := by
  have hf6 : w.extractLsb' 26 6 = f6 := by
    rw [field_of_masked h rfl]
    iterate 3 rw [BitVec.extractLsb'_append_eq_of_le (by decide)]
    rw [BitVec.extractLsb'_append_eq_left]
  obtain ⟨rfl, rfl⟩ := funct3_opcode_of_masked h rfl rfl
  subst hf6
  unfold encFields shamt6Of rs1Of rdOf
  iterate 5 rw [BitVec.extractLsb'_append_extractLsb'_eq_extractLsb' (by decide)]
  rw [BitVec.extractLsb'_eq_self]

theorem encR_of_masked (h : w &&& 0xfe00707f#32 = (f7 ++ 0#10 ++ f3 ++ 0#5 ++ op : BitVec 32)) :
    encR f7 (rs2Of w) (rs1Of w) f3 (rdOf w) op = w := by
  have hf7 : w.extractLsb' 25 7 = f7 := by
    rw [field_of_masked h rfl]
    iterate 3 rw [BitVec.extractLsb'_append_eq_of_le (by decide)]
    rw [BitVec.extractLsb'_append_eq_left]
  obtain ⟨rfl, rfl⟩ := funct3_opcode_of_masked h rfl rfl
  subst hf7
  unfold encR rs2Of rs1Of rdOf
  iterate 5 rw [BitVec.extractLsb'_append_extractLsb'_eq_extractLsb' (by decide)]
  rw [BitVec.extractLsb'_eq_self]

theorem encS_of_masked (h : w &&& 0x0000707f#32 = (0#17 ++ f3 ++ 0#5 ++ op : BitVec 32)) :
    encS (immS w) (rs2Of w) (rs1Of w) f3 op = w := by
  obtain ⟨rfl, rfl⟩ := funct3_opcode_of_masked h rfl rfl
  have hhigh : (immS w).extractLsb' 5 7 = w.extractLsb' 25 7 := by
    rw [immS, extractLsb'_signExtend _ (by decide) (by decide), BitVec.extractLsb'_append_eq_left]
  have hlow : (immS w).extractLsb' 0 5 = w.extractLsb' 7 5 := by
    rw [immS, extractLsb'_signExtend _ (by decide) (by decide), BitVec.extractLsb'_append_eq_right]
  unfold encS rs2Of rs1Of
  rw [hhigh, hlow]
  iterate 5 rw [BitVec.extractLsb'_append_extractLsb'_eq_extractLsb' (by decide)]
  rw [BitVec.extractLsb'_eq_self]

theorem encB_of_masked (h : w &&& 0x0000707f#32 = (0#17 ++ f3 ++ 0#5 ++ op : BitVec 32)) :
    encB (immB w) (rs2Of w) (rs1Of w) f3 op = w := by
  obtain ⟨rfl, rfl⟩ := funct3_opcode_of_masked h rfl rfl
  have h12 : (immB w).extractLsb' 12 1 = w.extractLsb' 31 1 := by
    rw [immB, extractLsb'_signExtend _ (by decide) (by decide)]
    iterate 3 rw [BitVec.extractLsb'_append_eq_of_le (by decide)]
    rw [BitVec.extractLsb'_append_eq_left]
  have h11 : (immB w).extractLsb' 11 1 = w.extractLsb' 7 1 := by
    rw [immB, extractLsb'_signExtend _ (by decide) (by decide)]
    iterate 3 rw [BitVec.extractLsb'_append_eq_of_le (by decide)]
    rw [BitVec.extractLsb'_append_eq_right]
  have h5 : (immB w).extractLsb' 5 6 = w.extractLsb' 25 6 := by
    rw [immB, extractLsb'_signExtend _ (by decide) (by decide)]
    iterate 2 rw [BitVec.extractLsb'_append_eq_of_le (by decide)]
    rw [BitVec.extractLsb'_append_eq_right]
  have h1 : (immB w).extractLsb' 1 4 = w.extractLsb' 8 4 := by
    rw [immB, extractLsb'_signExtend _ (by decide) (by decide)]
    rw [BitVec.extractLsb'_append_eq_of_le (by decide), BitVec.extractLsb'_append_eq_right]
  unfold encB rs2Of rs1Of
  rw [h12, h11, h5, h1]
  iterate 7 rw [BitVec.extractLsb'_append_extractLsb'_eq_extractLsb' (by decide)]
  rw [BitVec.extractLsb'_eq_self]

/-- The mask of the rows that fix the opcode alone. -/
theorem opcode_of_masked (h : w &&& 0x0000007f#32 = (0#25 ++ op : BitVec 32)) : w.extractLsb' 0 7 = op := by
  rw [field_of_masked h rfl, BitVec.extractLsb'_append_eq_right]

theorem encU_of_masked (h : w &&& 0x0000007f#32 = (0#25 ++ op : BitVec 32)) : encU (immU w) (rdOf w) op = w := by
  obtain rfl := opcode_of_masked h
  have h12 : (immU w).extractLsb' 12 20 = w.extractLsb' 12 20 := by
    rw [immU, extractLsb'_signExtend _ (by decide) (by decide), BitVec.extractLsb'_append_eq_left]
  unfold encU rdOf
  rw [h12]
  iterate 2 rw [BitVec.extractLsb'_append_extractLsb'_eq_extractLsb' (by decide)]
  rw [BitVec.extractLsb'_eq_self]

theorem encJ_of_masked (h : w &&& 0x0000007f#32 = (0#25 ++ op : BitVec 32)) : encJ (immJ w) (rdOf w) op = w := by
  obtain rfl := opcode_of_masked h
  have h20 : (immJ w).extractLsb' 20 1 = w.extractLsb' 31 1 := by
    rw [immJ, extractLsb'_signExtend _ (by decide) (by decide)]
    iterate 3 rw [BitVec.extractLsb'_append_eq_of_le (by decide)]
    rw [BitVec.extractLsb'_append_eq_left]
  have h12 : (immJ w).extractLsb' 12 8 = w.extractLsb' 12 8 := by
    rw [immJ, extractLsb'_signExtend _ (by decide) (by decide)]
    iterate 3 rw [BitVec.extractLsb'_append_eq_of_le (by decide)]
    rw [BitVec.extractLsb'_append_eq_right]
  have h11 : (immJ w).extractLsb' 11 1 = w.extractLsb' 20 1 := by
    rw [immJ, extractLsb'_signExtend _ (by decide) (by decide)]
    iterate 2 rw [BitVec.extractLsb'_append_eq_of_le (by decide)]
    rw [BitVec.extractLsb'_append_eq_right]
  have h1 : (immJ w).extractLsb' 1 10 = w.extractLsb' 21 10 := by
    rw [immJ, extractLsb'_signExtend _ (by decide) (by decide)]
    rw [BitVec.extractLsb'_append_eq_of_le (by decide), BitVec.extractLsb'_append_eq_right]
  unfold encJ rdOf
  rw [h20, h12, h11, h1]
  iterate 5 rw [BitVec.extractLsb'_append_extractLsb'_eq_extractLsb' (by decide)]
  rw [BitVec.extractLsb'_eq_self]

end

/-! ## Every row reads back (R94) -/

/-- Every word of the row is the encoding of the instruction the row reads from it, a well-formed one. -/
def Row.ReadsBack (r : Row) : Prop :=
  ∀ w, w &&& r.mask = r.pat → (r.build w).wellFormed = true ∧ encode (r.build w) = w

theorem upperRows_readBack : ∀ r ∈ upperRows, r.ReadsBack := by
  simp only [upperRows, List.forall_mem_cons, List.not_mem_nil, false_imp_iff, implies_true, and_true]
  exact ⟨fun w h => ⟨fitsU_immU w, encU_of_masked h⟩, fun w h => ⟨fitsU_immU w, encU_of_masked h⟩⟩

theorem controlRows_readBack : ∀ r ∈ controlRows, r.ReadsBack := by
  simp only [controlRows, List.forall_mem_cons, List.not_mem_nil, false_imp_iff, implies_true, and_true]
  refine ⟨fun w h => ⟨fitsJ_immJ w, encJ_of_masked h⟩, fun w h => ⟨fitsI_immI w, encI_of_masked h⟩, ?_⟩
  and_intros
  all_goals exact fun w h => ⟨fitsB_immB w, encB_of_masked h⟩

theorem memoryRows_readBack : ∀ r ∈ memoryRows, r.ReadsBack := by
  simp only [memoryRows, List.forall_mem_cons, List.not_mem_nil, false_imp_iff, implies_true, and_true]
  and_intros
  iterate 7 exact fun w h => ⟨fitsI_immI w, encI_of_masked h⟩
  iterate 4 exact fun w h => ⟨fitsS_immS w, encS_of_masked h⟩

theorem immediateRows_readBack : ∀ r ∈ immediateRows, r.ReadsBack := by
  simp only [immediateRows, List.forall_mem_cons, List.not_mem_nil, false_imp_iff, implies_true, and_true]
  and_intros
  iterate 6 exact fun w h => ⟨fitsI_immI w, encI_of_masked h⟩
  iterate 3 exact fun w h => ⟨rfl, encShift_of_masked h⟩

theorem registerRows_readBack : ∀ r ∈ registerRows, r.ReadsBack := by
  simp only [registerRows, List.forall_mem_cons, List.not_mem_nil, false_imp_iff, implies_true, and_true]
  and_intros
  all_goals exact fun w h => ⟨rfl, encR_of_masked h⟩

theorem wordRows_readBack : ∀ r ∈ wordRows, r.ReadsBack := by
  simp only [wordRows, List.forall_mem_cons, List.not_mem_nil, false_imp_iff, implies_true, and_true]
  refine ⟨fun w h => ⟨fitsI_immI w, encI_of_masked h⟩, ?_⟩
  and_intros
  all_goals exact fun w h => ⟨rfl, encR_of_masked h⟩

/-- A row whose mask is all ones holds one word only. -/
theorem eq_of_masked_allOnes {w pat : InstrWord} (h : w &&& 0xffffffff#32 = pat) : w = pat :=
  (BitVec.and_allOnes (x := w)).symm.trans h

theorem systemRows_readBack : ∀ r ∈ systemRows, r.ReadsBack := by
  simp only [systemRows, List.forall_mem_cons, List.not_mem_nil, false_imp_iff, implies_true, and_true]
  exact ⟨fun w h => ⟨rfl, encFields_of_masked h⟩, fun w h => ⟨rfl, (eq_of_masked_allOnes h).symm⟩,
    fun w h => ⟨rfl, (eq_of_masked_allOnes h).symm⟩⟩

theorem row_readsBack : ∀ r ∈ opcodeTable, r.ReadsBack := by
  simp only [opcodeTable, List.forall_mem_append]
  exact ⟨⟨⟨⟨⟨⟨upperRows_readBack, controlRows_readBack⟩, memoryRows_readBack⟩, immediateRows_readBack⟩,
    registerRows_readBack⟩, wordRows_readBack⟩, systemRows_readBack⟩

/-! ## Every instruction is read by its own row (R94, R103) -/

theorem ctorIdx_lt_length (i : Instr) : i.ctorIdx < opcodeTable.length := by
  cases i <;> exact of_decide_eq_true rfl

/-- The row of an instruction: the constructors of `Instr` stand in the order of the table. -/
def rowOf (i : Instr) : Row := opcodeTable[i.ctorIdx]'(ctorIdx_lt_length i)

theorem rowOf_mem (i : Instr) : rowOf i ∈ opcodeTable := List.getElem_mem _

theorem encode_masked (i : Instr) : encode i &&& (rowOf i).mask = (rowOf i).pat := by
  cases i
  case lui | auipc => exact encU_fixed ..
  case jal => exact encJ_fixed ..
  case beq | bne | blt | bge | bltu | bgeu => exact encB_fixed ..
  case sb | sh | sw | sd => exact encS_fixed ..
  case slli | srli | srai => exact encShift_fixed ..
  case add | sub | sll | slt | sltu | xor | srl | sra | or | and | slliw | srliw | sraiw | addw | subw | sllw | srlw | sraw =>
    exact encR_fixed ..
  case fence => exact encFields_fixed ..
  case ecall | ebreak => rfl
  case jalr | lb | lh | lw | ld | lbu | lhu | lwu | addi | slti | sltiu | xori | ori | andi | addiw => exact encI_fixed ..

theorem rowOf_build_encode {i : Instr} (hi : i.wellFormed = true) : (rowOf i).build (encode i) = i := by
  cases i
  case lui | auipc => exact congrArg₂ _ (rdOf_encU ..) (immU_encU _ _ hi)
  case jal => exact congrArg₂ _ (rdOf_encJ ..) (immJ_encJ _ _ hi)
  case beq | bne | blt | bge | bltu | bgeu => exact congr (congrArg₂ _ (rs1Of_encB ..) (rs2Of_encB ..)) (immB_encB _ _ _ _ hi)
  case sb | sh | sw | sd => exact congr (congrArg₂ _ (rs2Of_encS ..) (rs1Of_encS ..)) (immS_encS _ _ _ _ hi)
  case slli | srli | srai => exact congr (congrArg₂ _ (rdOf_encFields ..) (rs1Of_encFields ..)) (shamt6Of_encFields ..)
  case add | sub | sll | slt | sltu | xor | srl | sra | or | and | addw | subw | sllw | srlw | sraw =>
    exact congr (congrArg₂ _ (rdOf_encR ..) (rs1Of_encR ..)) (rs2Of_encR ..)
  case slliw | srliw | sraiw => exact congr (congrArg₂ _ (rdOf_encR ..) (rs1Of_encR ..)) (shamt5Of_encR ..)
  case fence => exact congr (congrArg₂ _ (imm12_encFields ..) (rs1Of_encFields ..)) (rdOf_encFields ..)
  case ecall | ebreak => rfl
  case jalr | lb | lh | lw | ld | lbu | lhu | lwu | addi | slti | sltiu | xori | ori | andi | addiw =>
    exact congr (congrArg₂ _ (rdOf_encI ..) (rs1Of_encI ..)) (immI_encI _ _ _ _ hi)

/-- Settles O32: an instruction's word belongs to its own row, which reads it back. -/
theorem decodeInvertsEncode : Obligations.DecodeInvertsEncode := fun i hi =>
  (decodeWord_of_row (rowOf_mem i) (encode_masked i)).trans (congrArg _ (rowOf_build_encode hi))

/-- Settles O33: the row that reads the word gives an instruction that encodes to it, and O32 leaves no other. -/
theorem encodeInvertsDecode : Obligations.EncodeInvertsDecode := by
  intro w i hd
  obtain ⟨r, hr, hw, rfl⟩ := decodeWord_ok_iff.mp hd
  obtain ⟨hwf, henc⟩ := row_readsBack r hr w hw
  refine ⟨hwf, henc, fun j hj hjw => ?_⟩
  have hdj := decodeInvertsEncode j hj
  rw [hjw, hd] at hdj
  exact (Except.ok.inj hdj).symm

end Sys2Proof
end

section
/-! SUPPORT. The words no row holds (30_encoding.md R96): a word is illegal when, among the rows it could belong to, none has the
value it holds in a field that they all fix. -/

namespace Sys2Proof

section
variable {w : InstrWord} {op : BitVec 7} {start len : Nat} {vals : List (BitVec len)}

theorem opcode_of_row {r : Row} (hr : r ∈ opcodeTable) (hw : w &&& r.mask = r.pat) :
    w.extractLsb' 0 7 = r.pat.extractLsb' 0 7 := by
  have hmask : ∀ r ∈ opcodeTable, r.mask.extractLsb' 0 7 = BitVec.allOnes 7 := by decide
  exact field_of_masked hw (hmask r hr)

theorem illegal_of_field
    (hrows : ∀ r ∈ opcodeTable, w &&& r.mask = r.pat →
      r.mask.extractLsb' start len = BitVec.allOnes len ∧ r.pat.extractLsb' start len ∈ vals)
    (hfield : w.extractLsb' start len ∉ vals) : decodeWord w = .error .illegal := by
  refine decodeWord_of_no_row fun r hr hw => hfield ?_
  obtain ⟨hmask, hpat⟩ := hrows r hr hw
  rwa [field_of_masked hw hmask]

/-- The rows a word could belong to are those with its opcode. -/
theorem illegal_of_opcode_field (hop : w.extractLsb' 0 7 = op)
    (hrows : ∀ r ∈ opcodeTable, r.pat.extractLsb' 0 7 = op →
      r.mask.extractLsb' start len = BitVec.allOnes len ∧ r.pat.extractLsb' start len ∈ vals)
    (hfield : w.extractLsb' start len ∉ vals) : decodeWord w = .error .illegal :=
  illegal_of_field (fun r hr hw => hrows r hr ((opcode_of_row hr hw).symm.trans hop)) hfield

/-- The rows a word could belong to are those with its opcode and with the value of one more field that these rows fix. -/
theorem illegal_of_opcode_two_fields {start' len' : Nat} {v : BitVec len'} (hop : w.extractLsb' 0 7 = op)
    (hv : w.extractLsb' start' len' = v)
    (hrows : ∀ r ∈ opcodeTable, r.pat.extractLsb' 0 7 = op → r.mask.extractLsb' start' len' = BitVec.allOnes len' ∧
      (r.pat.extractLsb' start' len' = v →
        r.mask.extractLsb' start len = BitVec.allOnes len ∧ r.pat.extractLsb' start len ∈ vals))
    (hfield : w.extractLsb' start len ∉ vals) : decodeWord w = .error .illegal := by
  refine illegal_of_field (fun r hr hw => ?_) hfield
  obtain ⟨hmask, hrow⟩ := hrows r hr ((opcode_of_row hr hw).symm.trans hop)
  exact hrow ((field_of_masked hw hmask).symm.trans hv)

end

section
variable {w : InstrWord}

theorem illegal_of_low_bits (h : w.extractLsb' 0 2 ≠ 0b11) : decodeWord w = .error .illegal := by
  have hrows : ∀ r ∈ opcodeTable, r.mask.extractLsb' 0 2 = BitVec.allOnes 2 ∧ r.pat.extractLsb' 0 2 ∈ [0b11#2] := by decide
  exact illegal_of_field (fun r hr _ => hrows r hr) (by simpa using h)

/-- The major opcodes that have a row. -/
def legalOpcodes : List (BitVec 7) := [0b0110111, 0b0010111, 0b1101111, 0b1100111, 0b1100011, 0b0000011, 0b0100011, 0b0010011,
  0b0110011, 0b0011011, 0b0111011, 0b0001111, 0b1110011]

theorem illegal_of_opcode (h : w.extractLsb' 0 7 ∉ legalOpcodes) : decodeWord w = .error .illegal := by
  have hrows : ∀ r ∈ opcodeTable, r.mask.extractLsb' 0 7 = BitVec.allOnes 7 ∧ r.pat.extractLsb' 0 7 ∈ legalOpcodes := by decide
  exact illegal_of_field (fun r hr _ => hrows r hr) h

/-- OP and OP-32: funct7 is 0000000 or 0100000, and 0100000 goes with funct3 000 and 101 only. -/
theorem illegal_of_register_funct7 (hop : w.extractLsb' 0 7 = 0b0110011 ∨ w.extractLsb' 0 7 = 0b0111011)
    (hne : w.extractLsb' 25 7 ≠ 0)
    (halt : w.extractLsb' 25 7 ≠ 0b0100000 ∨ (w.extractLsb' 12 3 ≠ 0b000 ∧ w.extractLsb' 12 3 ≠ 0b101)) :
    decodeWord w = .error .illegal := by
  by_cases hf7 : w.extractLsb' 25 7 = 0b0100000
  · have hf3 : w.extractLsb' 12 3 ∉ [0b000#3, 0b101] := by simpa [hf7] using halt
    rcases hop with hop | hop <;> exact illegal_of_opcode_two_fields hop hf7 (by decide) hf3
  · have hf7' : w.extractLsb' 25 7 ∉ [0b0000000#7, 0b0100000] := by simpa using ⟨hne, hf7⟩
    rcases hop with hop | hop <;> exact illegal_of_opcode_field hop (by decide) hf7'

/-- OP-32 and OP-IMM-32: funct3 is 000, 001 or 101. -/
theorem illegal_of_word_funct3 (hop : w.extractLsb' 0 7 = 0b0111011 ∨ w.extractLsb' 0 7 = 0b0011011)
    (hf3 : w.extractLsb' 12 3 ∉ [0b000#3, 0b001, 0b101]) : decodeWord w = .error .illegal := by
  rcases hop with hop | hop <;> exact illegal_of_opcode_field hop (by decide) hf3

/-- JALR and MISC-MEM: funct3 is 000. -/
theorem illegal_of_jalr_or_fence_funct3 (hop : w.extractLsb' 0 7 = 0b1100111 ∨ w.extractLsb' 0 7 = 0b0001111)
    (hf3 : w.extractLsb' 12 3 ≠ 0b000) : decodeWord w = .error .illegal := by
  have hf3' : w.extractLsb' 12 3 ∉ [0b000#3] := by simpa using hf3
  rcases hop with hop | hop <;> exact illegal_of_opcode_field hop (by decide) hf3'

/-- SYSTEM: the two words of ECALL and EBREAK only. -/
theorem illegal_of_system (hop : w.extractLsb' 0 7 = 0b1110011) (hecall : w ≠ 0x00000073) (hebreak : w ≠ 0x00100073) :
    decodeWord w = .error .illegal := by
  have hword : w.extractLsb' 0 32 ∉ [0x00000073#32, 0x00100073] := by
    rw [BitVec.extractLsb'_eq_self]
    simpa using ⟨hecall, hebreak⟩
  exact illegal_of_opcode_field hop (by decide) hword

end

/-- Settles O35: each alternative is a field whose value no row it could belong to has. -/
theorem listedWordsAreIllegal : Obligations.ListedWordsAreIllegal := by
  rintro w op f3 f7 rfl rfl rfl
    (rfl | rfl | hlow | hop | ⟨hop, hne, hother⟩ | ⟨hop, hf3⟩ | ⟨hop, hf3, hf6⟩ | ⟨hop, hf3, hne, hother⟩ | ⟨hop, hf3, hf7⟩ |
      ⟨hop, hf3, hne, hother⟩ | ⟨hop, hf3⟩ | ⟨hop, hf3⟩ | ⟨hop, hf3⟩ | ⟨hop, hf3⟩ | ⟨hop, hf3⟩ | ⟨hop, hecall, hebreak⟩)
  · exact illegal_of_low_bits (by decide)
  · exact illegal_of_opcode (by decide)
  · exact illegal_of_low_bits hlow
  · have hrowless : ∀ op ∈ [0b0101111#7, 0b0000111, 0b0100111, 0b1000011, 0b1000111, 0b1001011, 0b1001111, 0b1010011,
        0b0001011, 0b0101011, 0b1011011, 0b1111011, 0b1010111, 0b1110111, 0b1101011, 0b0011111, 0b0111111, 0b1011111,
        0b1111111], op ∉ legalOpcodes := by decide
    exact illegal_of_opcode (hrowless _ hop)
  · exact illegal_of_register_funct7 hop hne hother
  · have hbad : ∀ f3 ∈ [0b010#3, 0b011, 0b100, 0b110, 0b111], f3 ∉ [0b000#3, 0b001, 0b101] := by decide
    exact illegal_of_word_funct3 hop (hbad _ hf3)
  · have hslli : w.extractLsb' 26 6 ∉ [0b000000#6] := by simpa using hf6
    exact illegal_of_opcode_two_fields hop hf3 (by decide) hslli
  · have hsrli : w.extractLsb' 26 6 ∉ [0b000000#6, 0b010000] := by simpa using ⟨hne, hother⟩
    exact illegal_of_opcode_two_fields hop hf3 (by decide) hsrli
  · have hslliw : w.extractLsb' 25 7 ∉ [0b0000000#7] := by simpa using hf7
    exact illegal_of_opcode_two_fields hop hf3 (by decide) hslliw
  · have hsrliw : w.extractLsb' 25 7 ∉ [0b0000000#7, 0b0100000] := by simpa using ⟨hne, hother⟩
    exact illegal_of_opcode_two_fields hop hf3 (by decide) hsrliw
  · have hload : w.extractLsb' 12 3 ∉ [0b000#3, 0b001, 0b010, 0b011, 0b100, 0b101, 0b110] := by rw [hf3]; decide
    exact illegal_of_opcode_field hop (by decide) hload
  · have hstore : ∀ f3 ∈ [0b100#3, 0b101, 0b110, 0b111], f3 ∉ [0b000#3, 0b001, 0b010, 0b011] := by decide
    exact illegal_of_opcode_field hop (by decide) (hstore _ hf3)
  · have hbranch : ∀ f3 ∈ [0b010#3, 0b011], f3 ∉ [0b000#3, 0b001, 0b100, 0b101, 0b110, 0b111] := by decide
    exact illegal_of_opcode_field hop (by decide) (hbranch _ hf3)
  · exact illegal_of_jalr_or_fence_funct3 (.inl hop) hf3
  · exact illegal_of_jalr_or_fence_funct3 (.inr hop) hf3
  · exact illegal_of_system hop hecall hebreak

/-- Settles O36: fourteen closed facts, each one run of the decoder. -/
theorem sampleWordsDecode : Obligations.SampleWordsDecode := by
  unfold Obligations.SampleWordsDecode
  decide

end Sys2Proof
end

section
/-! SUPPORT. What FENCE and an illegal word make a STEP do (45_system_fence.md R220, 30_encoding.md R95, 60_exceptions.md R286). -/

namespace Sys2Proof.Machine

/-! ## Commit and fault entry in the words of the statements -/

theorem retires_commit (s : State) (p : Proposal) : Retires s (s.commit p) p.event p.npc :=
  ⟨rfl, toNat_bump s.instret, commit_faultCount s p, ⟨commit_loadAddr s p, commit_memSize s p⟩, rfl⟩

theorem faultsWith_takeFault (s : State) (f : Fault) : FaultsWith s (s.takeFault f) f :=
  ⟨rfl, toNat_bump s.faultCount, rfl, fun _ => rfl, rfl, fun _ => rfl, rfl, rfl, rfl⟩

/-! ## FENCE -/

/-- A row of the table, read as the statements read one. -/
theorem rowDecodes_of_mem {r : Row} (hr : r ∈ opcodeTable) : RowDecodes r.mask r.pat r.build :=
  fun _ hw => decodeWord_of_row hr hw

theorem exec_fence (f : BitVec 12) (rs1 rd : RegIdx) (s : State) :
    exec (.fence f rs1 rd) s = .next (s.resolve (.ok (s.proposeNone .retired))) := rfl

/-- Settles O14: FENCE's row, R96's clause on MISC-MEM, and the commit or fault entry of a proposal that writes nothing. -/
theorem fenceChangesNothingButPc : Obligations.FenceChangesNothingButPc := by
  refine ⟨rowDecodes_of_mem (rowOf_mem (.fence 0 0 0)), fun w hop hf3 => ?_, fun f rs1 rd s _ => ⟨fun hnext => ?_, fun hnext => ?_⟩⟩
  · exact illegal_of_jalr_or_fence_funct3 (.inr hop) hf3
  · refine ⟨s.commit (s.proposeNone .retired), ?_, retires_commit s _, rfl, fun _ => rfl, fun _ => rfl⟩
    rw [exec_fence, resolve_inRegion hnext]
  · refine ⟨s.takeFault .memoryFault, ?_, faultsWith_takeFault s _⟩
    rw [exec_fence, resolve_outside hnext]

/-! ## An illegal word -/

/-- The bytes of a word put together from four. -/
theorem bytes_of_append (b0 b1 b2 b3 : Byte) :
    (b3 ++ b2 ++ b1 ++ b0).extractLsb' 0 8 = b0 ∧ (b3 ++ b2 ++ b1 ++ b0).extractLsb' 8 8 = b1 ∧
      (b3 ++ b2 ++ b1 ++ b0).extractLsb' 16 8 = b2 ∧ (b3 ++ b2 ++ b1 ++ b0).extractLsb' 24 8 = b3 := by
  refine ⟨BitVec.extractLsb'_append_eq_right, ?_, ?_, ?_⟩
  · rw [BitVec.extractLsb'_append_eq_of_le (by decide), BitVec.extractLsb'_append_eq_right]
  · iterate 2 rw [BitVec.extractLsb'_append_eq_of_le (by decide)]
    rw [BitVec.extractLsb'_append_eq_right]
  · iterate 2 rw [BitVec.extractLsb'_append_eq_of_le (by decide)]
    rw [BitVec.extractLsb'_append_eq_left]

/-- The word fetched is made of the four bytes at the pc, the lowest address lowest (20_memory.md R57, 40_step_engine.md R113). -/
theorem loadValue_word (s : State) (a : Nat) :
    s.loadValue a .word = s.mem.get (a + 3) ++ s.mem.get (a + 2) ++ s.mem.get (a + 1) ++ s.mem.get a := by
  refine eq_of_bytes (w := .word) fun i hi => (loadValue_byte s a .word i hi).trans ?_
  obtain ⟨h0, h1, h2, h3⟩ := bytes_of_append (s.mem.get a) (s.mem.get (a + 1)) (s.mem.get (a + 2)) (s.mem.get (a + 3))
  match i, hi with
  | 0, _ => exact h0.symm
  | 1, _ => exact h1.symm
  | 2, _ => exact h2.symm
  | 3, _ => exact h3.symm

/-- An instruction that runs reports no IllegalInstruction: its only fault is MemoryFault (60_exceptions.md R282). -/
theorem lastStep_resolve_ne_illegal {i : Instr} {s : State} {r : Except Fault Proposal} (hr : Proposes i s r) :
    (s.resolve r).lastStep ≠ some (.err .illegalInstruction) := by
  rcases resolve_cases s r with ⟨p, -, -, h⟩ | ⟨p, -, -, h⟩ | ⟨f, hf, h⟩ <;> rw [h]
  · rw [commit_lastStep]; nofun
  · rw [takeFault_lastStep]; nofun
  · rw [takeFault_lastStep, hr.fault f hf]; nofun

theorem fetch_eq_of_inBounds {s : State} {w : InstrWord} (hb : s.InBounds s.pc.toNat 4) (hf : s.fetch = .ok w) :
    w = s.mem.get (s.pc.toNat + 3) ++ s.mem.get (s.pc.toNat + 2) ++ s.mem.get (s.pc.toNat + 1) ++ s.mem.get s.pc.toNat :=
  (Except.ok.inj (hf.symm.trans (memRead_inBounds (w := .word) hb))).trans (loadValue_word s s.pc.toNat)

/-- Settles O20: of the ways a STEP can go, only the one with an illegal word reports IllegalInstruction, and a word is illegal
when no row holds it. -/
theorem illegalWordFaults : Obligations.IllegalWordFaults := by
  intro s hrun
  rcases step_cases s with ⟨ht, -⟩ | ⟨-, hb, -, hs⟩ | ⟨w, -, hb, hf, hd, hs⟩ | ⟨w, i, r, -, hb, hf, hd, hr, hs, hp⟩
  · exact absurd hrun ht
  · exact ⟨_, hs, ⟨nofun, fun h => absurd h.1 hb⟩, nofun⟩
  · obtain rfl := fetch_eq_of_inBounds hb hf
    exact ⟨_, hs, ⟨fun _ => ⟨hb, decodeWord_illegal_iff.mp hd⟩, fun _ => rfl⟩, fun _ => faultsWith_takeFault s _⟩
  · obtain rfl := fetch_eq_of_inBounds hb hf
    have hne := lastStep_resolve_ne_illegal hp
    refine ⟨_, hs.trans hr, ⟨fun h => absurd h hne, fun ⟨_, hnone⟩ => ?_⟩, fun h => absurd h hne⟩
    rw [decodeWord_of_no_row hnone] at hd
    cases hd

end Sys2Proof.Machine
end

section
/-! SUPPORT. What a STEP leaves (40_step_engine.md R110 to R119): one relation between the state before and the state after, and
what follows from it for the fetch, the result, the pc and the tag. -/

namespace Sys2Proof.Machine

/-! ## The state after a STEP -/

/-- What a STEP may leave of `s`: by the guard nothing changes (R111), by fault entry only one of the engine's two kinds is
reported (R116), and a commit's next address was checked against the region (R117) and its event is EnvCall for the word of ECALL
alone (45_system_fence.md R221). `stepLeaves_of_step` ties it to `step`. -/
inductive StepLeaves (s : State) : State → Prop where
  | guard (htag : s.tag ≠ .running) : StepLeaves s { s with lastStep := some (.err .invalidState) }
  | fault (hrun : s.tag = .running) {f : Fault} (hf : f = .memoryFault ∨ f = .illegalInstruction) : StepLeaves s (s.takeFault f)
  | commit (hrun : s.tag = .running) {p : Proposal} (hnpc : s.InRegion p.npc)
      (hcall : p.event = .envCall ↔ s.fetch = .ok 0x00000073) : StepLeaves s (s.commit p)

theorem decodeWord_ecall : decodeWord 0x00000073 = .ok .ecall := decodeInvertsEncode .ecall rfl

/-- Only one word is an ECALL (30_encoding.md R94). -/
theorem decodeWord_eq_ecall_iff {w : InstrWord} : decodeWord w = .ok .ecall ↔ w = 0x00000073 := by
  constructor
  · intro hd
    obtain ⟨-, hencode, -⟩ := encodeInvertsDecode w .ecall hd
    exact hencode.symm
  · rintro rfl
    exact decodeWord_ecall

theorem stepLeaves_resolve {s : State} {w : InstrWord} {i : Instr} {r : Except Fault Proposal} (hrun : s.tag = .running)
    (hf : s.fetch = .ok w) (hd : decodeWord w = .ok i) (hr : Proposes i s r) : StepLeaves s (s.resolve r) := by
  rcases resolve_cases s r with ⟨p, hp, hnpc, h⟩ | ⟨p, -, -, h⟩ | ⟨f, hfault, h⟩ <;> rw [h]
  · refine .commit hrun hnpc ?_
    calc p.event = .envCall
      _ ↔ i = .ecall := hr.envCall p hp
      _ ↔ decodeWord w = .ok .ecall := by rw [hd, Except.ok.injEq]
      _ ↔ s.fetch = .ok 0x00000073 := by rw [decodeWord_eq_ecall_iff, hf, Except.ok.injEq]
  · exact .fault hrun (.inl rfl)
  · exact .fault hrun (.inl (hr.fault f hfault))

theorem stepLeaves_of_step {s t : State} (ht : step s = .next t) : StepLeaves s t := by
  rcases step_cases s with ⟨htag, h⟩ | ⟨hrun, -, -, h⟩ | ⟨w, hrun, -, -, -, h⟩ | ⟨w, i, r, hrun, -, hf, hd, hexec, h, hr⟩
  · cases h.symm.trans ht
    exact .guard htag
  · cases h.symm.trans ht
    exact .fault hrun (.inl rfl)
  · cases h.symm.trans ht
    exact .fault hrun (.inr rfl)
  · cases (h.trans hexec).symm.trans ht
    exact stepLeaves_resolve hrun hf hd hr

/-! ## The guard and the fetch -/

/-- Settles O18: the guard's branch of `step`, which writes the model's own result field alone. -/
theorem stepGuardHasNoSideEffects : Obligations.StepGuardHasNoSideEffects := fun _ htag =>
  ⟨_, step_of_not_running htag, rfl, rfl, rfl, rfl, rfl, rfl, rfl, rfl, rfl⟩

/-- The fetch of four bytes in bounds (20_memory.md R57). -/
theorem fetch_inBounds {s : State} (hb : s.InBounds s.pc.toNat 4) : s.fetch =
    .ok (s.mem.get (s.pc.toNat + 3) ++ s.mem.get (s.pc.toNat + 2) ++ s.mem.get (s.pc.toNat + 1) ++ s.mem.get s.pc.toNat) :=
  (memRead_inBounds (w := .word) hb).trans (congrArg _ (loadValue_word s s.pc.toNat))

theorem fetch_outOfBounds {s : State} (hb : ¬ s.InBounds s.pc.toNat 4) : s.fetch = .error .memoryFault :=
  memRead_outOfBounds (w := .word) hb

/-- Settles O17: the fetch gives the word of the four bytes. -/
theorem stepRunsTheDecodedInstruction : Obligations.StepRunsTheDecodedInstruction := fun _ _ hrun hb hd =>
  step_of_decode_ok hrun (fetch_inBounds hb) hd

/-- Settles O19: out of bounds the fetch faults and the step ends there; a pc in the region can break the upper bound only. -/
theorem fetchOutOfBoundsIsMemoryFault : Obligations.FetchOutOfBoundsIsMemoryFault := by
  refine fun s hrun => ⟨fun hb => ?_, fun hpc => ?_, fun hb => ⟨_, fetch_inBounds hb, rfl⟩⟩
  · exact ⟨_, step_of_fetch_error hrun (fetch_outOfBounds hb), faultsWith_takeFault s _⟩
  · obtain ⟨hlow, -⟩ := hpc
    omega

/-! ## The result -/

/-- A STEP reports a result, InvalidState when its guard fails and not otherwise (40_step_engine.md R110, R111). -/
theorem lastStep_of_step {s t : State} (ht : step s = .next t) :
    ∃ r, t.lastStep = some r ∧ (r = .err .invalidState ↔ s.tag ≠ .running) := by
  cases stepLeaves_of_step ht with
  | guard htag => exact ⟨_, rfl, fun _ => htag, fun _ => rfl⟩
  | fault hrun hf => exact ⟨_, rfl, by rintro ⟨⟩; simp at hf, fun htag => absurd hrun htag⟩
  | commit hrun => exact ⟨_, rfl, nofun, fun htag => absurd hrun htag⟩

/-- Settles O21: the command reads its reply in the result that the step reported. -/
theorem stepAlwaysReturns : Obligations.StepAlwaysReturns := by
  intro s
  obtain ⟨t, ht⟩ := step_next s
  obtain ⟨r, hr, hguard⟩ := lastStep_of_step ht
  refine ⟨t, r, ht, hr, hguard, replyOfStep (some r), hr ▸ cmdStep_of_step ht, ?_, ?_⟩
  · rintro e rfl
    rfl
  · rintro f rfl
    rfl

/-- Settles O22: what reports a fault is fault entry, what reports an event is a commit. -/
theorem faultsArePrecise : Obligations.FaultsArePrecise := by
  intro s t hrun ht
  cases stepLeaves_of_step ht with
  | guard htag => exact absurd hrun htag
  | @fault _ f hf =>
    refine ⟨?_, nofun⟩
    rintro _ ⟨⟩
    exact ⟨hf, faultsWith_takeFault s f⟩
  | @commit _ p => exact ⟨nofun, fun _ _ => commit_faultCount s p⟩

/-! ## The pc -/

/-- Settles O23: what retires is a commit, and its checked next address is a 64-bit address, so the pc holds it whole. -/
theorem retiredPcLiesInRegion : Obligations.RetiredPcLiesInRegion := by
  intro s t e hconfig ht hok
  cases stepLeaves_of_step ht with
  | guard => cases hok
  | fault => cases hok
  | commit _ hnpc => rwa [commit_pc, toNat_ofInt_of_inRegion hconfig hnpc]

/-! ## The tag -/

theorem stepsTo_self (g : Tag) : g.stepsTo g = true := by cases g <;> rfl

/-- From running, a commit completes the run exactly at an environment call whose verdict is to terminate
(40_step_engine.md R118 (e)). -/
theorem tagAfter_eq_completed_iff {s : State} (hrun : s.tag = .running) (e : Event) :
    s.tagAfter e = .completed ↔
      e = .envCall ∧ Config.envTerminates s.x s.pc s.loadAddr s.memSize s.mem = true := by
  cases e with
  | retired | breakpoint => simp [hrun]
  | envCall => simp [tagAfter_envCall, hrun]

theorem tagAfter_cases (s : State) (e : Event) : s.tagAfter e = s.tag ∨ s.tagAfter e = .completed := by
  cases e with
  | retired | breakpoint => exact .inl rfl
  | envCall =>
    rw [tagAfter_envCall]
    split
    · exact .inr rfl
    · exact .inl rfl

/-- Settles O25, along each way a STEP can end. -/
theorem stepNeverHaltsAndKeepsConfiguration : Obligations.StepNeverHaltsAndKeepsConfiguration := by
  intro s t ht
  cases stepLeaves_of_step ht with
  | guard => exact ⟨⟨rfl, rfl⟩, stepsTo_self s.tag⟩
  | fault hrun => exact ⟨⟨rfl, rfl⟩, by rw [hrun]; rfl⟩
  | @commit hrun p =>
    refine ⟨⟨commit_loadAddr s p, commit_memSize s p⟩, ?_⟩
    rw [commit_tag, hrun]
    rcases tagAfter_cases s p.event with h | h
    · rw [h, hrun]; rfl
    · rw [h]; rfl

theorem step_of_fetch_ecall {s : State} (hrun : s.tag = .running) (hf : s.fetch = .ok 0x00000073) :
    step s = .next (s.resolve (.ok (s.proposeNone .envCall))) := step_of_decode_ok hrun hf decodeWord_ecall

/-- A STEP that completes the run is the commit of an ECALL (45_system_fence.md R221). -/
theorem fetch_of_completed {s t : State} (hrun : s.tag = .running) (ht : step s = .next t) (hdone : t.tag = .completed) :
    s.fetch = .ok 0x00000073 ∧ t.lastStep = some (.ok .envCall) := by
  cases stepLeaves_of_step ht with
  | guard htag => exact absurd hrun htag
  | fault => cases hdone
  | commit _ _ hcall =>
    obtain ⟨hevent, -⟩ := (tagAfter_eq_completed_iff hrun _).mp hdone
    exact ⟨hcall.mp hevent, by rw [commit_lastStep, hevent]⟩

/-- What an ECALL makes of the tag: it commits if its next address lies in the region, and the verdict decides then. -/
theorem completed_iff_of_ecall {s : State} (hrun : s.tag = .running) :
    (s.resolve (.ok (s.proposeNone .envCall))).tag = .completed ↔
      s.InRegion (nextPc s) ∧ Config.envTerminates s.x s.pc s.loadAddr s.memSize s.mem = true := by
  by_cases hnext : s.InRegion (nextPc s)
  · calc (s.resolve (.ok (s.proposeNone .envCall))).tag = .completed
      _ ↔ s.tagAfter .envCall = .completed := by rw [resolve_inRegion hnext, commit_tag]; rfl
      _ ↔ Config.envTerminates s.x s.pc s.loadAddr s.memSize s.mem = true :=
        (tagAfter_eq_completed_iff hrun .envCall).trans (and_iff_right rfl)
      _ ↔ _ := (and_iff_right hnext).symm
  · rw [resolve_outside hnext]
    exact ⟨nofun, fun ⟨h, _⟩ => absurd h hnext⟩

/-- Settles O26: a run is completed by the commit of an ECALL alone, and by that one when its two conditions hold. -/
theorem onlyATerminatingEcallCompletes : Obligations.OnlyATerminatingEcallCompletes := by
  intro s hrun
  obtain ⟨t, ht⟩ := step_next s
  refine ⟨t, ht, ?_, fun hdone => (fetch_of_completed hrun ht hdone).2⟩
  by_cases hf : s.fetch = .ok 0x00000073
  · cases (step_of_fetch_ecall hrun hf).symm.trans ht
    exact (completed_iff_of_ecall hrun).trans ⟨fun h => ⟨hf, h⟩, fun ⟨_, h⟩ => h⟩
  · exact ⟨fun hdone => absurd (fetch_of_completed hrun ht hdone).1 hf, fun ⟨h, _⟩ => absurd h hf⟩

end Sys2Proof.Machine
end

section
/-! SUPPORT. The integer computational instructions (41_integer_computational.md): what the engine makes of a proposed register
write (R154), and the integer formulas of 00_scope.md R6 and R7 for the word operations. -/

namespace Sys2Proof.Machine

/-! ## A computational instruction (R154) -/

theorem writesReg_commit (s : State) (rd : RegIdx) (v : Word) : WritesReg s (s.commit (s.proposeReg rd v)) rd v := by
  have hread (r : RegIdx) : (s.commit (s.proposeReg rd v)).getReg r = if r = rd ∧ rd ≠ 0 then v else s.getReg r :=
    getReg_setReg s rd r v
  refine ⟨?_, fun r hr => by rw [hread, if_neg fun h => hr h.1]⟩
  by_cases hrd : rd = 0
  · subst hrd
    rfl
  · rw [hread, if_pos ⟨rfl, hrd⟩, if_neg hrd]

/-- An instruction that proposes a register write alone is a computational one: the commit writes it, and fault entry, when the
next address lies outside the region, does not. -/
theorem computes_of_exec {i : Instr} {rd : RegIdx} {v : State → Word}
    (hexec : ∀ s, exec i s = .next (s.resolve (.ok (s.proposeReg rd (v s))))) : Computes i rd v := by
  refine fun s _ => ⟨fun hnext => ?_, fun hnext => ?_⟩
  · refine ⟨s.commit (s.proposeReg rd (v s)), ?_, retires_commit s _, rfl, writesReg_commit s rd (v s), fun a => ?_⟩
    · rw [hexec, resolve_inRegion hnext]
    · rw [commit_mem]
      rfl
  · refine ⟨s.takeFault .memoryFault, ?_, faultsWith_takeFault s _⟩
    rw [hexec, resolve_outside hnext]

/-- The value may be stated as a formula for the one the instruction proposes. -/
theorem computes_of_eq {i : Instr} {rd : RegIdx} {val v : State → Word} (hval : ∀ s, val s = v s)
    (hexec : ∀ s, exec i s = .next (s.resolve (.ok (s.proposeReg rd (val s))))) : Computes i rd v :=
  funext hval ▸ computes_of_exec hexec

/-! ## The word operations as formulas over the integers (00_scope.md R6, R7) -/

section
variable {w : Nat} (a b : BitVec w)

theorem add_eq_ofNat : a + b = BitVec.ofNat w (a.toNat + b.toNat) := by
  rw [BitVec.ofNat_add, BitVec.ofNat_toNat, BitVec.ofNat_toNat, BitVec.setWidth_eq, BitVec.setWidth_eq]

/-- The sum wraps alike whichever reading an operand has: here the first unsigned, the second signed. -/
theorem add_eq_ofInt : a + b = BitVec.ofInt w (a.toNat + b.toInt) := by
  rw [BitVec.ofInt_add, BitVec.ofInt_natCast, BitVec.ofNat_toNat, BitVec.setWidth_eq, BitVec.ofInt_toInt]

theorem sub_eq_ofInt : a - b = BitVec.ofInt w (a.toNat - b.toNat) := by
  rw [Int.sub_eq_add_neg, BitVec.ofInt_add, BitVec.ofInt_neg, BitVec.ofInt_natCast, BitVec.ofInt_natCast, BitVec.ofNat_toNat,
    BitVec.ofNat_toNat, BitVec.setWidth_eq, BitVec.setWidth_eq, BitVec.sub_eq_add_neg]

variable (n : Nat)

theorem shiftLeft_eq_ofNat : a <<< n = BitVec.ofNat w (a.toNat * 2 ^ n) := by
  apply BitVec.eq_of_toNat_eq
  rw [BitVec.toNat_shiftLeft, Nat.shiftLeft_eq, BitVec.toNat_ofNat]

theorem ushiftRight_eq_ofNat : a >>> n = BitVec.ofNat w (a.toNat / 2 ^ n) := by
  rw [← Nat.shiftRight_eq_div_pow, ← BitVec.toNat_ushiftRight, BitVec.ofNat_toNat, BitVec.setWidth_eq]

/-- The arithmetic shift is the floor of the quotient: division of integers by a positive power rounds down. -/
theorem sshiftRight_eq_ofInt : a.sshiftRight n = BitVec.ofInt w (a.toInt / 2 ^ n) := by
  calc a.sshiftRight n = BitVec.ofInt w (a.sshiftRight n).toInt := BitVec.ofInt_toInt.symm
    _ = BitVec.ofInt w (a.toInt / 2 ^ n) := by
      rw [BitVec.toInt_sshiftRight, Int.shiftRight_eq_div_pow, Nat.cast_pow, Nat.cast_ofNat]

end

/-- The low six bits of a shift operand, read as its value modulo 64 (R130). -/
theorem shift6_eq_mod (v : Word) : shift6 v = v.toNat % 64 := by
  rw [shift6, BitVec.extractLsb'_toNat, Nat.shiftRight_zero]

theorem boolWord_ltSigned (a b : Word) : boolWord (ltSigned a b) = if a.toInt < b.toInt then 1 else 0 := by
  simp only [boolWord, ltSigned, decide_eq_true_eq]

theorem boolWord_ltUnsigned (a b : Word) : boolWord (ltUnsigned a b) = if a.toNat < b.toNat then 1 else 0 := by
  simp only [boolWord, ltUnsigned, decide_eq_true_eq]

/-! ## The upper-immediate instructions -/

/-- Settles O1: the rows of LUI and AUIPC, the immediate itself, and the wrapped sum with the pc. -/
theorem upperImmediatesWriteConstantAndPcSum : Obligations.UpperImmediatesWriteConstantAndPcSum := by
  refine ⟨rowDecodes_of_mem (rowOf_mem (.lui 0 0)), rowDecodes_of_mem (rowOf_mem (.auipc 0 0)), fun rd imm => ?_,
    fun rd imm => ?_⟩
  · exact computes_of_exec fun _ => rfl
  · exact computes_of_eq (fun s => add_eq_ofNat s.pc imm) fun _ => rfl

/-! ## The register-immediate instructions -/

/-- Settles O2: a sum of an unsigned and a signed reading, and three operations bit by bit. -/
theorem immediateArithmeticAndLogic : Obligations.ImmediateArithmeticAndLogic := by
  refine ⟨rowDecodes_of_mem (rowOf_mem (.addi 0 0 0)), rowDecodes_of_mem (rowOf_mem (.xori 0 0 0)),
    rowDecodes_of_mem (rowOf_mem (.ori 0 0 0)), rowDecodes_of_mem (rowOf_mem (.andi 0 0 0)), fun rd rs1 imm => ?_, ?_, ?_, ?_⟩
  · exact computes_of_eq (fun s => add_eq_ofInt (s.getReg rs1) imm) fun _ => rfl
  all_goals exact fun _ _ _ => computes_of_exec fun _ => rfl

/-- Settles O3: the condition each comparison writes is the order of the signed or of the unsigned readings. -/
theorem immediateComparisons : Obligations.ImmediateComparisons := by
  refine ⟨rowDecodes_of_mem (rowOf_mem (.slti 0 0 0)), rowDecodes_of_mem (rowOf_mem (.sltiu 0 0 0)), fun rd rs1 imm => ?_,
    fun rd rs1 imm => ?_⟩
  · exact computes_of_eq (fun s => boolWord_ltSigned (s.getReg rs1) imm) fun _ => rfl
  · exact computes_of_eq (fun s => boolWord_ltUnsigned (s.getReg rs1) imm) fun _ => rfl

/-- The rows a word could belong to, once its opcode and funct3 are known, fix one more field, and the word holds there a value
that none of them has (30_encoding.md R96). -/
theorem illegal_of_funct3_opcode_field {w : InstrWord} {f3 : BitVec 3} {op : BitVec 7} {start len : Nat} {vals : List (BitVec len)}
    (hw : w &&& 0x0000707f#32 = (0#17 ++ f3 ++ 0#5 ++ op : BitVec 32))
    (hrows : ∀ r ∈ opcodeTable, r.pat.extractLsb' 0 7 = op → r.mask.extractLsb' 12 3 = BitVec.allOnes 3 ∧
      (r.pat.extractLsb' 12 3 = f3 →
        r.mask.extractLsb' start len = BitVec.allOnes len ∧ r.pat.extractLsb' start len ∈ vals))
    (hfield : w.extractLsb' start len ∉ vals) : decodeWord w = .error .illegal := by
  obtain ⟨hf3, hop⟩ := funct3_opcode_of_masked hw (by decide) (by decide)
  exact illegal_of_opcode_two_fields hop hf3 hrows hfield

/-- Settles O4: a function bit above the shift amount leaves the word no row, and each shift is a product or a floored quotient by a
power of two. -/
theorem immediateShifts : Obligations.ImmediateShifts := by
  refine ⟨rowDecodes_of_mem (rowOf_mem (.slli 0 0 0)), rowDecodes_of_mem (rowOf_mem (.srli 0 0 0)),
    rowDecodes_of_mem (rowOf_mem (.srai 0 0 0)), fun w hw hf6 => ?_, fun w hw hne hother => ?_, fun rd rs1 shamt => ?_,
    fun rd rs1 shamt => ?_, fun rd rs1 shamt => ?_⟩
  · have hslli : w.extractLsb' 26 6 ∉ [0b000000#6] := by simpa using hf6
    exact illegal_of_funct3_opcode_field (f3 := 0b001) (op := 0b0010011) hw (by decide) hslli
  · have hright : w.extractLsb' 26 6 ∉ [0b000000#6, 0b010000] := by simpa using ⟨hne, hother⟩
    exact illegal_of_funct3_opcode_field (f3 := 0b101) (op := 0b0010011) hw (by decide) hright
  · exact computes_of_eq (fun s => shiftLeft_eq_ofNat (s.getReg rs1) shamt.toNat) fun _ => rfl
  · exact computes_of_eq (fun s => ushiftRight_eq_ofNat (s.getReg rs1) shamt.toNat) fun _ => rfl
  · exact computes_of_eq (fun s => sshiftRight_eq_ofInt (s.getReg rs1) shamt.toNat) fun _ => rfl

/-! ## The register-register instructions -/

/-- Settles O5: the wrapped sum and difference, and three operations bit by bit. -/
theorem registerArithmeticAndLogic : Obligations.RegisterArithmeticAndLogic := by
  refine ⟨rowDecodes_of_mem (rowOf_mem (.add 0 0 0)), rowDecodes_of_mem (rowOf_mem (.sub 0 0 0)),
    rowDecodes_of_mem (rowOf_mem (.xor 0 0 0)), rowDecodes_of_mem (rowOf_mem (.or 0 0 0)),
    rowDecodes_of_mem (rowOf_mem (.and 0 0 0)), fun rd rs1 rs2 => ?_, fun rd rs1 rs2 => ?_, ?_, ?_, ?_⟩
  · exact computes_of_eq (fun s => add_eq_ofNat (s.getReg rs1) (s.getReg rs2)) fun _ => rfl
  · exact computes_of_eq (fun s => sub_eq_ofInt (s.getReg rs1) (s.getReg rs2)) fun _ => rfl
  all_goals exact fun _ _ _ => computes_of_exec fun _ => rfl

/-- Settles O6, by the readings of the two comparisons. -/
theorem registerComparisons : Obligations.RegisterComparisons := by
  refine ⟨rowDecodes_of_mem (rowOf_mem (.slt 0 0 0)), rowDecodes_of_mem (rowOf_mem (.sltu 0 0 0)), fun rd rs1 rs2 => ?_,
    fun rd rs1 rs2 => ?_⟩
  · exact computes_of_eq (fun s => boolWord_ltSigned (s.getReg rs1) (s.getReg rs2)) fun _ => rfl
  · exact computes_of_eq (fun s => boolWord_ltUnsigned (s.getReg rs1) (s.getReg rs2)) fun _ => rfl

/-- Settles O7: the shifts of O4, by an amount that is the operand modulo 64. -/
theorem registerShiftsUseSixBits : Obligations.RegisterShiftsUseSixBits := by
  refine ⟨rowDecodes_of_mem (rowOf_mem (.sll 0 0 0)), rowDecodes_of_mem (rowOf_mem (.srl 0 0 0)),
    rowDecodes_of_mem (rowOf_mem (.sra 0 0 0)), fun rd rs1 rs2 => ?_, fun rd rs1 rs2 => ?_, fun rd rs1 rs2 => ?_⟩
  · exact computes_of_eq (fun s => shift6_eq_mod (s.getReg rs2) ▸ shiftLeft_eq_ofNat (s.getReg rs1) _) fun _ => rfl
  · exact computes_of_eq (fun s => shift6_eq_mod (s.getReg rs2) ▸ ushiftRight_eq_ofNat (s.getReg rs1) _) fun _ => rfl
  · exact computes_of_eq (fun s => shift6_eq_mod (s.getReg rs2) ▸ sshiftRight_eq_ofInt (s.getReg rs1) _) fun _ => rfl

end Sys2Proof.Machine
end

section
/-! SUPPORT. The integer instructions on 32-bit words (42_integer_word.md): the low word of an operand and the low word of a wrapped
64-bit result, so that the formulas of 00_scope.md R6 and R7 hold at 32 bits (R160). -/

namespace Sys2Proof.Machine

/-! ## The low word of an operand and of a result (R160) -/

theorem low32_getReg (s : State) (r : RegIdx) : low32 (s.getReg r) = lowWord s r :=
  BitVec.setWidth_eq_extractLsb' (by decide)

theorem low32_ofNat (n : Nat) : low32 (BitVec.ofNat 64 n) = BitVec.ofNat 32 n :=
  BitVec.setWidth_ofNat_of_le (by decide) n

/-- Reducing modulo `2 ^ 64` first does not change the low word, for `2 ^ 32` divides `2 ^ 64`. -/
theorem low32_ofInt (n : Int) : low32 (BitVec.ofInt 64 n) = BitVec.ofInt 32 n := by
  apply BitVec.eq_of_toNat_eq
  rw [low32, BitVec.toNat_setWidth, BitVec.toNat_ofInt, BitVec.toNat_ofInt]
  omega

/-- The low five bits of a shift operand, read as its value modulo 32 (R160). -/
theorem shift5_eq_mod (v : Word) : shift5 v = v.toNat % 32 := by
  rw [shift5, BitVec.extractLsb'_toNat, Nat.shiftRight_zero]

section
variable (a b : Word)

theorem low32_add_eq_ofNat : low32 (a + b) = BitVec.ofNat 32 (a.toNat + b.toNat) := by
  rw [add_eq_ofNat, low32_ofNat]

theorem low32_add_eq_ofInt : low32 (a + b) = BitVec.ofInt 32 (a.toNat + b.toInt) := by
  rw [add_eq_ofInt, low32_ofInt]

theorem low32_sub_eq_ofInt : low32 (a - b) = BitVec.ofInt 32 (a.toNat - b.toNat) := by
  rw [sub_eq_ofInt, low32_ofInt]

end

/-! ## The shifts of a register's low word, as products and floored quotients -/

section
variable (s : State) (r : RegIdx) (n : Nat)

theorem low32_shiftLeft_eq_ofNat : low32 (s.getReg r) <<< n = BitVec.ofNat 32 ((lowWord s r).toNat * 2 ^ n) := by
  rw [low32_getReg, shiftLeft_eq_ofNat]

theorem low32_ushiftRight_eq_ofNat : low32 (s.getReg r) >>> n = BitVec.ofNat 32 ((lowWord s r).toNat / 2 ^ n) := by
  rw [low32_getReg, ushiftRight_eq_ofNat]

theorem low32_sshiftRight_eq_ofInt :
    (low32 (s.getReg r)).sshiftRight n = BitVec.ofInt 32 ((lowWord s r).toInt / 2 ^ n) := by
  rw [low32_getReg, sshiftRight_eq_ofInt]

end

/-- An instruction that proposes a sign-extended 32-bit result is computational; the result may be stated as a formula (R160). -/
theorem computes_sextWord {i : Instr} {rd : RegIdx} {val v : State → BitVec 32} (hval : ∀ s, val s = v s)
    (hexec : ∀ s, exec i s = .next (s.resolve (.ok (s.proposeReg rd (sext32 (val s)))))) :
    Computes i rd fun s => sextWord (v s) :=
  computes_of_eq (fun s => congrArg sext32 (hval s)) hexec

/-! ## The word instructions with an immediate -/

/-- Settles O8: a funct7 of no row leaves the word illegal; ADDIW keeps the low word of the wrapped sum, and each shift is a product
or a floored quotient of the low word. -/
theorem wordImmediates : Obligations.WordImmediates := by
  refine ⟨rowDecodes_of_mem (rowOf_mem (.addiw 0 0 0)), rowDecodes_of_mem (rowOf_mem (.slliw 0 0 0)),
    rowDecodes_of_mem (rowOf_mem (.srliw 0 0 0)), rowDecodes_of_mem (rowOf_mem (.sraiw 0 0 0)), fun w hw hf7 => ?_,
    fun w hw hne hother => ?_, fun rd rs1 imm => ?_, fun rd rs1 shamt => ?_, fun rd rs1 shamt => ?_, fun rd rs1 shamt => ?_⟩
  · have hslliw : w.extractLsb' 25 7 ∉ [0b0000000#7] := by simpa using hf7
    exact illegal_of_funct3_opcode_field (f3 := 0b001) (op := 0b0011011) hw (by decide) hslliw
  · have hright : w.extractLsb' 25 7 ∉ [0b0000000#7, 0b0100000] := by simpa using ⟨hne, hother⟩
    exact illegal_of_funct3_opcode_field (f3 := 0b101) (op := 0b0011011) hw (by decide) hright
  · exact computes_sextWord (fun s => low32_add_eq_ofInt (s.getReg rs1) imm) fun _ => rfl
  · exact computes_sextWord (fun s => low32_shiftLeft_eq_ofNat s rs1 shamt.toNat) fun _ => rfl
  · exact computes_sextWord (fun s => low32_ushiftRight_eq_ofNat s rs1 shamt.toNat) fun _ => rfl
  · exact computes_sextWord (fun s => low32_sshiftRight_eq_ofInt s rs1 shamt.toNat) fun _ => rfl

/-! ## The word instructions on two registers -/

/-- Settles O9: the low words of the wrapped sum and difference, and the shifts of O8 by an amount that is the operand modulo 32. -/
theorem wordRegisters : Obligations.WordRegisters := by
  refine ⟨rowDecodes_of_mem (rowOf_mem (.addw 0 0 0)), rowDecodes_of_mem (rowOf_mem (.subw 0 0 0)),
    rowDecodes_of_mem (rowOf_mem (.sllw 0 0 0)), rowDecodes_of_mem (rowOf_mem (.srlw 0 0 0)),
    rowDecodes_of_mem (rowOf_mem (.sraw 0 0 0)), fun rd rs1 rs2 => ?_, fun rd rs1 rs2 => ?_, fun rd rs1 rs2 => ?_,
    fun rd rs1 rs2 => ?_, fun rd rs1 rs2 => ?_⟩
  · exact computes_sextWord (fun s => low32_add_eq_ofNat (s.getReg rs1) (s.getReg rs2)) fun _ => rfl
  · exact computes_sextWord (fun s => low32_sub_eq_ofInt (s.getReg rs1) (s.getReg rs2)) fun _ => rfl
  · exact computes_sextWord (fun s => shift5_eq_mod (s.getReg rs2) ▸ low32_shiftLeft_eq_ofNat s rs1 _) fun _ => rfl
  · exact computes_sextWord (fun s => shift5_eq_mod (s.getReg rs2) ▸ low32_ushiftRight_eq_ofNat s rs1 _) fun _ => rfl
  · exact computes_sextWord (fun s => shift5_eq_mod (s.getReg rs2) ▸ low32_sshiftRight_eq_ofInt s rs1 _) fun _ => rfl

end Sys2Proof.Machine
end

section
/-! SUPPORT. The control-transfer instructions (43_control_transfer.md): what the engine makes of a proposed target (R180), the link
(R190), and the conditions of the branches as relations of the two operands (R184 to R189). -/

namespace Sys2Proof.Machine

/-! ## A proposal whose next address is checked (40_step_engine.md R117, R118) -/

section
variable {i : Instr} {s : State} {p : Proposal}

theorem exec_commits (hexec : exec i s = .next (s.resolve (.ok p))) (hnpc : s.InRegion p.npc) : exec i s = .next (s.commit p) := by
  rw [hexec, resolve_inRegion hnpc]

theorem exec_faults (hexec : exec i s = .next (s.resolve (.ok p))) (hnpc : ¬ s.InRegion p.npc) :
    ∃ t, exec i s = .next t ∧ FaultsWith s t .memoryFault :=
  ⟨s.takeFault .memoryFault, by rw [hexec, resolve_outside hnpc], faultsWith_takeFault s .memoryFault⟩

end

/-- Without a memory write the commit leaves every byte as it is. -/
theorem sameBytes_commit (s : State) {p : Proposal} (hp : p.memWrite = none) : SameBytes s (s.commit p) := fun a => by
  rw [commit_mem, hp]
  rfl

/-- Without a register write, and without a memory write, the commit leaves every register as it is. -/
theorem sameRegs_commit (s : State) {p : Proposal} (hmem : p.memWrite = none) (hreg : p.regWrite = none) :
    SameRegs s (s.commit p) := fun r => by
  rw [commit_getReg, hmem, hreg]
  rfl

/-! ## Jumps: the link and the target (R180, R190) -/

/-- The link wraps at 64 bits, though the next address itself does not. -/
theorem link_eq_ofInt (s : State) : s.link = BitVec.ofInt 64 (nextPc s) := add_eq_ofInt s.pc 4

/-- Where it goes on does not matter to the register that a commit writes: a jump writes its link as a computational instruction
writes its result. -/
theorem writesReg_commit_proposeJump (s : State) (rd : RegIdx) (target : Int) :
    WritesReg s (s.commit (s.proposeJump rd target)) rd s.link := writesReg_commit s rd s.link

theorem jumpsTo_of_exec {i : Instr} {rd : RegIdx} {target : State → Int}
    (hexec : ∀ s, exec i s = .next (s.resolve (.ok (s.proposeJump rd (target s))))) : JumpsTo i rd target := by
  refine fun s _ => ⟨fun hnpc => ?_, exec_faults (hexec s)⟩
  refine ⟨_, exec_commits (hexec s) hnpc, retires_commit s _, rfl, ?_, sameBytes_commit s rfl⟩
  exact link_eq_ofInt s ▸ writesReg_commit_proposeJump s rd (target s)

/-- Settles O10: the rows of JAL and JALR, and the jump to the target each proposes. -/
theorem jumpsLinkAndCheckTheirTarget : Obligations.JumpsLinkAndCheckTheirTarget := by
  refine ⟨rowDecodes_of_mem (rowOf_mem (.jal 0 0)), rowDecodes_of_mem (rowOf_mem (.jalr 0 0 0)), fun rd imm => ?_,
    fun rd rs1 imm => ?_⟩
  · exact jumpsTo_of_exec (target := fun s => s.pcTarget imm) fun _ => rfl
  · exact jumpsTo_of_exec (target := fun s => s.regTarget rs1 imm) fun _ => rfl

/-! ## Branches: the condition and the next address -/

section
variable (a b : Word)

@[simp] theorem eqWord_iff : eqWord a b = true ↔ a = b := decide_eq_true_iff

@[simp] theorem ltSigned_iff : ltSigned a b = true ↔ a.toInt < b.toInt := decide_eq_true_iff

@[simp] theorem ltUnsigned_iff : ltUnsigned a b = true ↔ a.toNat < b.toNat := decide_eq_true_iff

theorem not_eqWord_iff : (!eqWord a b) = true ↔ a ≠ b := by
  rw [Bool.not_eq_true', ← Bool.not_eq_true, eqWord_iff]

theorem not_ltSigned_iff : (!ltSigned a b) = true ↔ a.toInt ≥ b.toInt := by
  rw [Bool.not_eq_true', ← Bool.not_eq_true, ltSigned_iff, Int.not_lt]

theorem not_ltUnsigned_iff : (!ltUnsigned a b) = true ↔ a.toNat ≥ b.toNat := by
  rw [Bool.not_eq_true', ← Bool.not_eq_true, ltUnsigned_iff, Nat.not_lt]

end

/-- The next address a branch proposes is the one the two exclusive clauses of the statements define. -/
theorem proposeBranch_npc {s : State} {taken : Bool} {imm : Word} {cond : Prop} {npc : Int} (hcond : taken = true ↔ cond)
    (htaken : cond → npc = s.pcTarget imm) (huntaken : ¬ cond → npc = s.seqPc) : (s.proposeBranch taken imm).npc = npc := by
  by_cases h : taken = true
  · exact (if_pos h).trans (htaken (hcond.mp h)).symm
  · exact (if_neg h).trans (huntaken (mt hcond.mpr h)).symm

theorem branchesIf_of_exec {i : Instr} {imm : Word} {taken : State → Bool} {cond : State → Prop}
    (hcond : ∀ s, taken s = true ↔ cond s)
    (hexec : ∀ s, exec i s = .next (s.resolve (.ok (s.proposeBranch (taken s) imm)))) : BranchesIf i imm cond := by
  rintro s _ npc ⟨htaken, huntaken⟩
  obtain rfl := proposeBranch_npc (hcond s) htaken huntaken
  refine ⟨fun hnpc => ?_, exec_faults (hexec s)⟩
  exact ⟨_, exec_commits (hexec s) hnpc, retires_commit s _, rfl, sameRegs_commit s rfl rfl, sameBytes_commit s rfl⟩

/-- Settles O11: the rows of the six branches, and the relation of the operands that each condition decides. -/
theorem branchesFollowTheirCondition : Obligations.BranchesFollowTheirCondition := by
  refine ⟨rowDecodes_of_mem (rowOf_mem (.beq 0 0 0)), rowDecodes_of_mem (rowOf_mem (.bne 0 0 0)),
    rowDecodes_of_mem (rowOf_mem (.blt 0 0 0)), rowDecodes_of_mem (rowOf_mem (.bge 0 0 0)),
    rowDecodes_of_mem (rowOf_mem (.bltu 0 0 0)), rowDecodes_of_mem (rowOf_mem (.bgeu 0 0 0)), fun rs1 rs2 imm => ?_,
    fun rs1 rs2 imm => ?_, fun rs1 rs2 imm => ?_, fun rs1 rs2 imm => ?_, fun rs1 rs2 imm => ?_, fun rs1 rs2 imm => ?_⟩
  · exact branchesIf_of_exec (fun s => eqWord_iff (s.getReg rs1) (s.getReg rs2)) fun _ => rfl
  · exact branchesIf_of_exec (fun s => not_eqWord_iff (s.getReg rs1) (s.getReg rs2)) fun _ => rfl
  · exact branchesIf_of_exec (fun s => ltSigned_iff (s.getReg rs1) (s.getReg rs2)) fun _ => rfl
  · exact branchesIf_of_exec (fun s => not_ltSigned_iff (s.getReg rs1) (s.getReg rs2)) fun _ => rfl
  · exact branchesIf_of_exec (fun s => ltUnsigned_iff (s.getReg rs1) (s.getReg rs2)) fun _ => rfl
  · exact branchesIf_of_exec (fun s => not_ltUnsigned_iff (s.getReg rs1) (s.getReg rs2)) fun _ => rfl

end Sys2Proof.Machine
end

section
/-! SUPPORT. The loads and stores (44_load_store.md): the check of the whole access and of the next address (R214), the value a load
reads as its bytes put together (R201 to R208), and the bytes that a store leaves (R209 to R213). -/

namespace Sys2Proof.Machine

/-! ## An access checked before it is proposed (40_step_engine.md R112, 44_load_store.md R214) -/

/-- An instruction that proposes only what a check allows takes a MemoryFault when the check or the next address fails. -/
theorem exec_faults_of_check {i : Instr} {s : State} {r : Except Fault Proposal} {p : Proposal} {check : Prop}
    (hexec : exec i s = .next (s.resolve r)) (hpass : check → r = .ok p) (hfail : ¬ check → r = .error .memoryFault)
    (h : ¬ (check ∧ s.InRegion p.npc)) : ∃ t, exec i s = .next t ∧ FaultsWith s t .memoryFault := by
  by_cases hc : check
  · exact exec_faults (hpass hc ▸ hexec) fun hnpc => h ⟨hc, hnpc⟩
  · exact ⟨s.takeFault .memoryFault, by rw [hexec, hfail hc, resolve_error], faultsWith_takeFault s .memoryFault⟩

/-! ## The value of bytes put together (20_memory.md R53, R54) -/

/-- A byte put below a value becomes the first of its bytes, lowest address first. -/
theorem toNat_append_byte {n : Nat} {v : BitVec n} {bs : List Byte} (hv : v.toNat = leValue bs) (b : Byte) :
    (v ++ b).toNat = leValue (b :: bs) := by
  rw [BitVec.toNat_append, ← Nat.shiftLeft_add_eq_or_of_lt b.isLt, Nat.shiftLeft_eq, hv, leValue]
  omega

/-- The value an access reads is the one whose bytes stand in memory. -/
theorem loadValue_eq_of_toNat {s : State} {a : Int} {w : Width} {v : BitVec w.bits}
    (hv : v.toNat = leValue (s.mem.getBytes a.toNat w.bytes)) : s.loadValue a w = v := by
  rw [State.loadValue, ← hv, BitVec.ofNat_toNat, BitVec.setWidth_eq]

section
variable (s : State) (rs1 : RegIdx) (imm : Word)

theorem loadValue_byte_eq : s.loadValue (ea s rs1 imm) .byte = byteAt s rs1 imm 0 :=
  loadValue_eq_of_toNat (w := .byte) rfl

theorem loadValue_half_eq : s.loadValue (ea s rs1 imm) .half = byteAt s rs1 imm 1 ++ byteAt s rs1 imm 0 :=
  loadValue_eq_of_toNat (w := .half) (toNat_append_byte rfl _)

theorem loadValue_word_eq : s.loadValue (ea s rs1 imm) .word =
    byteAt s rs1 imm 3 ++ byteAt s rs1 imm 2 ++ byteAt s rs1 imm 1 ++ byteAt s rs1 imm 0 :=
  loadValue_word s (ea s rs1 imm).toNat

theorem loadValue_dword_eq : s.loadValue (ea s rs1 imm) .dword =
    byteAt s rs1 imm 7 ++ byteAt s rs1 imm 6 ++ byteAt s rs1 imm 5 ++ byteAt s rs1 imm 4 ++
      byteAt s rs1 imm 3 ++ byteAt s rs1 imm 2 ++ byteAt s rs1 imm 1 ++ byteAt s rs1 imm 0 := by
  refine loadValue_eq_of_toNat (w := .dword) ?_
  iterate 7 refine toNat_append_byte ?_ _
  rfl

end

/-! ## Loads (R201 to R208) -/

/-- All 64 bits leave nothing to extend (R204). -/
theorem extend_full (v : Word) : extend .unsigned v = v := BitVec.setWidth_eq v

/-- In bounds a load proposes the write of one register, as a computational instruction does; out of bounds it faults, whatever
`rd` is. -/
theorem loads_of_exec {i : Instr} {w : Width} {e : Extension} {rd rs1 : RegIdx} {imm : Word} {v : State → Word}
    (hval : ∀ s, extend e (s.loadValue (ea s rs1 imm) w) = v s)
    (hexec : ∀ s, exec i s = .next (s.resolve (s.proposeLoad w e rd rs1 imm))) : Loads i rd rs1 imm w.bytes v := by
  intro s _
  have hpass (hb : s.InBounds (ea s rs1 imm) w.bytes) :
      s.proposeLoad w e rd rs1 imm = .ok (s.proposeReg rd (v s)) := hval s ▸ proposeLoad_inBounds e rd hb
  refine ⟨fun hb hnext => ?_, exec_faults_of_check (hexec s) hpass (proposeLoad_outOfBounds e rd)⟩
  exact ⟨_, exec_commits (hpass hb ▸ hexec s) hnext, retires_commit s _, rfl, writesReg_commit s rd (v s),
    sameBytes_commit s rfl⟩

/-- Settles O12: each width is its bytes put together, extended as the instruction says. -/
theorem loadsReadLittleEndianAndExtend : Obligations.LoadsReadLittleEndianAndExtend := by
  refine ⟨rowDecodes_of_mem (rowOf_mem (.lb 0 0 0)), rowDecodes_of_mem (rowOf_mem (.lh 0 0 0)),
    rowDecodes_of_mem (rowOf_mem (.lw 0 0 0)), rowDecodes_of_mem (rowOf_mem (.ld 0 0 0)),
    rowDecodes_of_mem (rowOf_mem (.lbu 0 0 0)), rowDecodes_of_mem (rowOf_mem (.lhu 0 0 0)),
    rowDecodes_of_mem (rowOf_mem (.lwu 0 0 0)), fun rd rs1 imm => ?_, fun rd rs1 imm => ?_, fun rd rs1 imm => ?_,
    fun rd rs1 imm => ?_, fun rd rs1 imm => ?_, fun rd rs1 imm => ?_, fun rd rs1 imm => ?_⟩
  · exact loads_of_exec (w := .byte) (fun s => congrArg (extend .signed) (loadValue_byte_eq s rs1 imm)) fun _ => rfl
  · exact loads_of_exec (w := .half) (fun s => congrArg (extend .signed) (loadValue_half_eq s rs1 imm)) fun _ => rfl
  · exact loads_of_exec (w := .word) (fun s => congrArg (extend .signed) (loadValue_word_eq s rs1 imm)) fun _ => rfl
  · exact loads_of_exec (w := .dword) (fun s => (extend_full _).trans (loadValue_dword_eq s rs1 imm)) fun _ => rfl
  · exact loads_of_exec (w := .byte) (fun s => congrArg (extend .unsigned) (loadValue_byte_eq s rs1 imm)) fun _ => rfl
  · exact loads_of_exec (w := .half) (fun s => congrArg (extend .unsigned) (loadValue_half_eq s rs1 imm)) fun _ => rfl
  · exact loads_of_exec (w := .word) (fun s => congrArg (extend .unsigned) (loadValue_word_eq s rs1 imm)) fun _ => rfl

/-! ## Stores (R209 to R213) -/

/-- Without a register write the commit leaves every register as it is, whatever it writes to memory. -/
theorem sameRegs_commit_of_regWrite_none (s : State) {p : Proposal} (hp : p.regWrite = none) : SameRegs s (s.commit p) :=
  fun r => by
    rw [commit_getReg, hp]
    exact applyMem_getReg s r p.memWrite

theorem commit_write_mem (s : State) (a : Int) (w : Width) (v : Word) (npc : Int) (e : Event) :
    (s.commit ⟨none, some ⟨a, w, v⟩, npc, e⟩).mem = (s.storeValue a w v).mem := commit_mem s _

/-- In bounds a store proposes the write of its bytes alone; out of bounds it faults and proposes nothing. -/
theorem stores_of_exec {i : Instr} {w : Width} {rs2 rs1 : RegIdx} {imm : Word}
    (hexec : ∀ s, exec i s = .next (s.resolve (s.proposeStore w rs2 rs1 imm))) : Stores i rs2 rs1 imm w.bytes := by
  intro s _ hm
  refine ⟨fun hb hnext => ?_,
    exec_faults_of_check (hexec s) (proposeStore_inBounds rs2) (proposeStore_outOfBounds rs2)⟩
  have hcommit : exec i s = .next (s.commit ⟨none, some ⟨ea s rs1 imm, w, s.getReg rs2⟩, s.seqPc, .retired⟩) :=
    (hexec s).trans (congrArg Host.Outcome.next (resolve_proposeStore rs2 hb hnext))
  refine ⟨_, hcommit, retires_commit s _, rfl, sameRegs_commit_of_regWrite_none s rfl, fun k hk => ?_, fun a ha => ?_⟩
  · rw [commit_write_mem]
    exact storeValue_get_inside hm (ea s rs1 imm) (s.getReg rs2) hk
  · obtain ⟨hlow, -⟩ := hb
    rw [commit_write_mem]
    exact storeValue_get_outside hm (s.getReg rs2) (by omega)

/-- Settles O13: the rows of the four stores, and the access of each by its width. -/
theorem storesWriteTheirBytesOnly : Obligations.StoresWriteTheirBytesOnly := by
  refine ⟨rowDecodes_of_mem (rowOf_mem (.sb 0 0 0)), rowDecodes_of_mem (rowOf_mem (.sh 0 0 0)),
    rowDecodes_of_mem (rowOf_mem (.sw 0 0 0)), rowDecodes_of_mem (rowOf_mem (.sd 0 0 0)), fun rs2 rs1 imm => ?_,
    fun rs2 rs1 imm => ?_, fun rs2 rs1 imm => ?_, fun rs2 rs1 imm => ?_⟩
  · exact stores_of_exec (w := .byte) fun _ => rfl
  · exact stores_of_exec (w := .half) fun _ => rfl
  · exact stores_of_exec (w := .word) fun _ => rfl
  · exact stores_of_exec (w := .dword) fun _ => rfl

end Sys2Proof.Machine
end

section
/-! SUPPORT. ECALL and EBREAK (45_system_fence.md R221, R222): the one word of each, and what the engine makes of a proposal that
writes nothing and reports an event. -/

namespace Sys2Proof.Machine

/-! ## The word of an instruction -/

/-- Encoder and decoder being inverses of each other, exactly one word decodes to a well-formed instruction. -/
theorem decodeWord_eq_ok_iff_eq_encode {i : Instr} (hi : i.wellFormed = true) {w : InstrWord} :
    decodeWord w = .ok i ↔ w = encode i := by
  constructor
  · intro hd
    obtain ⟨-, hencode, -⟩ := encodeInvertsDecode w i hd
    exact hencode.symm
  · rintro rfl
    exact decodeInvertsEncode i hi

theorem encode_ebreak : encode .ebreak = 0x00100073 := rfl

/-- Only one word is an EBREAK (30_encoding.md R94). -/
theorem decodeWord_eq_ebreak_iff {w : InstrWord} : decodeWord w = .ok .ebreak ↔ w = 0x00100073 :=
  encode_ebreak ▸ decodeWord_eq_ok_iff_eq_encode (i := .ebreak) rfl

/-! ## An event reported and nothing written -/

/-- The commit of a proposal that writes nothing leaves the event, the tag after it, and every register and byte; when the next
address lies outside the region the event plays no part, since fault entry comes in place of the commit (R117). -/
theorem exec_of_proposeNone {i : Instr} {e : Event} {s : State}
    (hexec : exec i s = .next (s.resolve (.ok (s.proposeNone e)))) :
    (s.InRegion (nextPc s) → ∃ t, exec i s = .next t ∧ Retires s t e (nextPc s) ∧ t.tag = s.tagAfter e ∧
      SameRegs s t ∧ SameBytes s t) ∧
    (¬ s.InRegion (nextPc s) → ∃ t, exec i s = .next t ∧ FaultsWith s t .memoryFault) := by
  refine ⟨fun hnext => ?_, exec_faults hexec⟩
  exact ⟨_, exec_commits hexec hnext, retires_commit s _, commit_tag s _, sameRegs_commit s rfl rfl, sameBytes_commit s rfl⟩

theorem exec_ecall (s : State) : exec .ecall s = .next (s.resolve (.ok (s.proposeNone .envCall))) := rfl

theorem exec_ebreak (s : State) : exec .ebreak s = .next (s.resolve (.ok (s.proposeNone .breakpoint))) := rfl

/-- Settles O15: the tag after an EnvCall is the verdict's on the state before the step, and only a commit asks for it. -/
theorem ecallReportsAndMayComplete : Obligations.EcallReportsAndMayComplete := by
  refine ⟨fun _ => decodeWord_eq_ecall_iff, fun s _ => ?_⟩
  rw [← tagAfter_envCall]
  exact exec_of_proposeNone (exec_ecall s)

/-- Settles O16: the tag after a Breakpoint is the one before, whatever the verdict would be. -/
theorem ebreakReportsAndGoesOn : Obligations.EbreakReportsAndGoesOn := by
  refine ⟨fun _ => decodeWord_eq_ebreak_iff, fun s _ => ?_⟩
  rw [← tagAfter_breakpoint s]
  exact exec_of_proposeNone (exec_ebreak s)

end Sys2Proof.Machine
end

section
/-! SUPPORT. The host's commands (46_host_commands.md): what each returns and leaves, said once per command and outcome of its
check, and that an error changes nothing (R239, R244). -/

namespace Sys2Proof.Machine

/-! ## What a command returns and leaves -/

section
variable (s : State)

theorem issue_get (r : RegIdx) : issue (.get r) s = .next (s, .value (s.getReg r)) := rfl

theorem issue_set (r : RegIdx) (v : Word) : issue (.set r v) s = .next (s.setReg r v, .ok) := rfl

theorem issue_getPc : issue .getPc s = .next (s, .value s.pc) := rfl

theorem issue_getDiagnostics : issue .getDiagnostics s = .next (s, .report ⟨s.instret, s.faultCount⟩) := rfl

end

section
variable {s : State}

theorem issue_start_of_halted (h : s.tag = .halted) : issue .start s = .next ({ s with tag := .running }, .ok) := if_pos h

theorem issue_start_of_not_halted (h : s.tag ≠ .halted) : issue .start s = .next (s, .err .invalidState) := if_neg h

theorem issue_setPc_inRegion {v : Word} (h : s.InRegion v.toNat) : issue (.setPc v) s = .next ({ s with pc := v }, .ok) :=
  if_pos h

theorem issue_init_of_contract {image : List Byte} {base : Word} {size : Nat} (h : InitContract image base size) :
    issue (.init image base size) s = .next (initState image base size, .ok) := cmdInit_of_contract h

theorem issue_step_of_not_running (h : s.tag ≠ .running) :
    issue .step s = .next ({ s with lastStep := some (.err .invalidState) }, .err .invalidState) :=
  cmdStep_of_step (step_of_not_running h)

/-- READn returns what its `MemRead` gives (20_memory.md R53), the value or the fault, and no other state. -/
theorem issue_read_of_ok {w : Width} {a : Word} {d : BitVec w.bits} (h : s.memRead a.toNat w = .ok d) :
    issue (.read w a) s = .next (s, .data w d) := by
  simp only [issue, cmdRead, h]

theorem issue_read_outOfBounds {w : Width} {a : Word} (h : ¬ s.InBounds a.toNat w.bytes) :
    issue (.read w a) s = .next (s, .err .memoryFault) := by
  simp only [issue, cmdRead, memRead_outOfBounds h]

theorem issue_write_inBounds {w : Width} {a : Word} (h : s.InBounds a.toNat w.bytes) (v : BitVec w.bits) :
    issue (.write w a v) s = .next (s.storeValue a.toNat w (v.setWidth 64), .ok) := by
  simp only [issue, cmdWrite, memWrite_inBounds h]

theorem issue_write_outOfBounds {w : Width} {a : Word} (h : ¬ s.InBounds a.toNat w.bytes) (v : BitVec w.bits) :
    issue (.write w a v) s = .next (s, .err .memoryFault) := by
  simp only [issue, cmdWrite, memWrite_outOfBounds h]

end

/-! ## READn and WRITEn (R237 to R239) -/

theorem bits_le (w : Width) : w.bits ≤ 64 := by cases w <;> decide

/-- A written value loses no bit on its way to the memory, which takes the low bits of a 64-bit word. -/
theorem extractLsb'_setWidth_word {w : Width} (v : BitVec w.bits) : (v.setWidth 64).extractLsb' 0 w.bits = v := by
  rw [← BitVec.setWidth_eq_extractLsb' (bits_le w), BitVec.setWidth_setWidth_of_le v (bits_le w), BitVec.setWidth_eq]

/-- The host reads back the value it wrote (R238). -/
theorem issue_read_storeValue {s : State} (hm : s.mem.wf) {w : Width} {a : Word} (hb : s.InBounds a.toNat w.bytes)
    (v : BitVec w.bits) :
    issue (.read w a) (s.storeValue a.toNat w (v.setWidth 64)) =
      .next (s.storeValue a.toNat w (v.setWidth 64), .data w v) := by
  have hread := memRead_storeValue_same hm hb (v.setWidth 64)
  rw [extractLsb'_setWidth_word] at hread
  exact issue_read_of_ok hread

/-- Settles O43: in bounds both commands are the model's own load and store, whose bytes the laws of memory give. -/
theorem hostAccessesShareTheBoundsCheck : Obligations.HostAccessesShareTheBoundsCheck := by
  intro s w a v hm
  refine ⟨fun hb => ⟨?_, ?_⟩, fun hb => ⟨issue_read_outOfBounds hb, issue_write_outOfBounds hb v⟩⟩
  · exact ⟨s.loadValue a.toNat w, issue_read_of_ok (memRead_inBounds hb), loadValue_byte s a.toNat w⟩
  · exact ⟨s.storeValue a.toNat w (v.setWidth 64), issue_write_inBounds hb v, rfl,
      fun _ hq => storeValue_get_outside hm (v.setWidth 64) hq, issue_read_storeValue hm hb v⟩

/-! ## Results and errors (R244) -/

/-- Every command that keeps its contract returns. -/
theorem issue_next_of_contract {c : Command} {s : State}
    (hinit : ∀ image base size, c = .init image base size → InitContract image base size)
    (hpc : ∀ v, c = .setPc v → s.InRegion v.toNat) : ∃ t r, issue c s = .next (t, r) := by
  cases c with
  | init image base size => exact ⟨_, _, issue_init_of_contract (hinit image base size rfl)⟩
  | setPc v => exact ⟨_, _, issue_setPc_inRegion (hpc v rfl)⟩
  | _ => exact issue_next (by nofun) (by nofun) s

/-- A command other than STEP answers an error only where its check fails, with the state as it was. -/
theorem eq_of_issue_err {c : Command} {s t : State} {f : Fault} (hstep : c ≠ .step) (h : issue c s = .next (t, .err f)) :
    t = s := by
  cases c with
  | step => exact absurd rfl hstep
  | get | set | getPc | getDiagnostics => cases h
  | init | setPc =>
    simp only [issue, cmdInit, cmdSetPc] at h
    split at h <;> cases h
  | start | read | write | saveState | restoreState =>
    simp only [issue, cmdStart, cmdRead, cmdWrite, cmdSaveState, cmdRestoreState] at h
    split at h <;> cases h
    rfl

/-- Settles O45: an error of another command leaves the very state, and a STEP that is not running changes only what it last
reported, which is no state of the core (R111). -/
theorem everyCommandReturns : Obligations.EveryCommandReturns := by
  intro c s hinit hpc
  obtain ⟨t, r, ht⟩ := issue_next_of_contract hinit hpc
  refine ⟨t, r, ht, ?_⟩
  rintro f rfl hfaulting
  by_cases hc : c = .step
  · subst hc
    have htag : s.tag ≠ .running := fun hrun => hfaulting ⟨rfl, hrun⟩
    cases (issue_step_of_not_running htag).symm.trans ht
    exact ⟨sameMachine_withReports s s.instret s.faultCount (some (.err .invalidState)), rfl, rfl⟩
  · obtain rfl := eq_of_issue_err hc ht
    exact ⟨sameMachine_withReports t t.instret t.faultCount t.lastStep, rfl, rfl⟩

/-! ## GET and SET (R233, R234) -/

theorem setReg_zero (s : State) (v : Word) : s.setReg 0 v = s := if_pos rfl

/-- A register reads the same after SET as after the commit of that register write: the rest of a commit reaches no register. -/
theorem writesReg_setReg (s : State) (r : RegIdx) (v : Word) : WritesReg s (s.setReg r v) r v := writesReg_commit s r v

/-- Settles O31: register 0 by `setReg_zero`, every other register by the register-write law, the frame field by field. -/
theorem registerZeroReadsZero : Obligations.RegisterZeroReadsZero := by
  refine ⟨issue_get, fun s => issue_get s 0, fun s v => ?_, fun s r v => ?_⟩
  · rw [issue_set, setReg_zero]
  · obtain ⟨hread, -⟩ := writesReg_setReg s r v
    refine ⟨s.setReg r v, issue_set s r v, writesReg_setReg s r v, setReg_pc s r v, setReg_mem s r v, setReg_tag s r v,
      setReg_instret s r v, setReg_faultCount s r v, ⟨setReg_loadAddr s r v, setReg_memSize s r v⟩, ?_⟩
    rw [issue_get, hread]

/-! ## START, GET_PC, SET_PC and GET_DIAGNOSTICS (R231, R232, R235, R236, R241) -/

/-- Settles O42: the two outcomes of START's check of the tag. -/
theorem startRunsAHaltedCore : Obligations.StartRunsAHaltedCore := fun _ =>
  ⟨issue_start_of_halted, issue_start_of_not_halted⟩

/-- Settles O44: each command by its equation. -/
theorem pcAndDiagnosticsCommands : Obligations.PcAndDiagnosticsCommands := fun s _ =>
  ⟨issue_getPc s, issue_setPc_inRegion, issue_getDiagnostics s⟩

end Sys2Proof.Machine
end

section
/-! SUPPORT. Snapshots (47_snapshot.md): what SAVE_STATE and RESTORE_STATE return, once per outcome of their checks, and that a
restore of a capture gives the captured core back. -/

namespace Sys2Proof.Machine

/-! ## What the two commands return -/

section
variable {s : State}

theorem issue_saveState_of_fits {cap : Nat} (h : s.memSize ≤ cap) :
    issue (.saveState cap) s = .next (s, .snapshot s.capture) := if_pos h

theorem issue_saveState_of_small {cap : Nat} (h : cap < s.memSize) :
    issue (.saveState cap) s = .next (s, .err .snapshotMismatch) := if_neg (Nat.not_le.mpr h)

theorem issue_restoreState_of_checks {S : Snapshot} (h : S.valid = true ∧ S.memSize = s.memSize) :
    issue (.restoreState S) s = .next (s.restore S, .ok) := if_pos h

theorem issue_restoreState_of_mismatch {S : Snapshot} (h : ¬ (S.valid = true ∧ S.memSize = s.memSize)) :
    issue (.restoreState S) s = .next (s, .err .snapshotMismatch) := if_neg h

end

/-! ## The record and the bytes of memory -/

@[simp] theorem capture_memSize (s : State) : s.capture.memSize = s.memSize := Memory.length_getBytes _ _ _

/-- Place `i` of a capture holds byte `i` of the region (R260). -/
theorem capture_mem_getElem? (s : State) {i : Nat} (hi : i < s.memSize) :
    s.capture.mem[i]? = some (s.mem.get (s.loadAddr.toNat + i)) := by
  have hlen : i < (s.mem.getBytes s.loadAddr.toNat s.memSize).length := by rwa [Memory.length_getBytes]
  rw [capture_mem, List.getElem?_eq_getElem hlen, Memory.getElem_getBytes]

/-- After a restore byte `i` of the region is the one in place `i` of the record (R264). -/
theorem mem_getElem?_eq_restore_get (s : State) (S : Snapshot) {i : Nat} (hi : i < S.memSize) :
    S.mem[i]? = some ((s.restore S).mem.get (s.loadAddr.toNat + i)) := by
  have hlen : i < S.mem.length := hi
  rw [restore_mem, Memory.get_setBytes (by decide), dif_pos (by omega), List.getElem?_eq_getElem hlen]
  congr 2
  omega

/-- Settles O47: the two outcomes of the check of the buffer, and what a capture holds. -/
theorem saveStateCapturesEverything : Obligations.SaveStateCapturesEverything := by
  refine fun s cap => ⟨fun hfits => ?_, issue_saveState_of_small⟩
  exact ⟨s.capture, issue_saveState_of_fits hfits, rfl, capture_getElem s, rfl, rfl, capture_memSize s,
    fun _ hi => capture_mem_getElem? s hi⟩

/-- Settles O48: the two outcomes of the checks of the record, and what a restore leaves. -/
theorem restoreStateOverwritesTheCore : Obligations.RestoreStateOverwritesTheCore := by
  refine fun s S => ⟨fun hchecks => ?_, issue_restoreState_of_mismatch⟩
  exact ⟨s.restore S, issue_restoreState_of_checks hchecks, restore_getReg s S, rfl, rfl, restore_wf s S,
    fun _ hi => mem_getElem?_eq_restore_get s S (hi.trans_eq hchecks.2.symm), rfl, rfl, rfl, rfl⟩

/-! ## A capture restored (R271) -/

theorem Memory.get_of_unlisted {m : Memory} {a : Nat} (h : ∀ c ∈ m, c.1 ≠ a) : m.get a = unlistedByte := by
  induction m with
  | nil => rfl
  | cons c m ih =>
    obtain ⟨hne, hrest⟩ := List.forall_mem_cons.mp h
    rw [Memory.get, if_neg hne.symm, ih hrest]

/-- The bytes of a range, listed again from nothing, give back a canonical memory that lies in the range: beside it both memories
list nothing, and canonical memories that read alike are equal. -/
theorem Memory.setBytes_getBytes {m : Memory} {a n : Nat} (hm : m.wf) (hrange : ∀ c ∈ m, a ≤ c.1 ∧ c.1 < a + n) :
    Memory.setBytes [] a (m.getBytes a n) = m := by
  refine Memory.eq_of_get (Memory.wf_setBytes (by decide) _ _) hm fun q => ?_
  rw [Memory.get_setBytes (by decide)]
  split
  · next hq =>
    rw [Memory.getElem_getBytes]
    congr 1
    omega
  · next hq =>
    rw [Memory.length_getBytes] at hq
    refine (Memory.get_of_unlisted fun c hc h => hq ?_).symm
    exact h ▸ hrange c hc

@[simp] theorem capture_restoredRegs (s : State) : s.capture.restoredRegs = s.x := by
  refine Vector.ext fun i hi => ?_
  rw [getElem_restoredRegs]
  exact getElem_savedRegs s i hi

/-- In a core of the same configuration the capture of a state restores that state but for the counters. -/
theorem sameMachine_restore_capture {s t : State} (hmem : s.MemOk) (hconfig : SameConfig s t) :
    SameMachine s (t.restore s.capture) := by
  obtain ⟨hload, hsize⟩ := hconfig
  obtain ⟨hwf, hregion⟩ := hmem
  refine ⟨capture_restoredRegs s, rfl, ?_, rfl, hload, hsize⟩
  rw [restore_mem, capture_mem, hload]
  exact Memory.setBytes_getBytes hwf hregion

theorem capture_checks {s t : State} (hconfig : SameConfig s t) :
    s.capture.valid = true ∧ s.capture.memSize = t.memSize := ⟨rfl, (capture_memSize s).trans hconfig.2.symm⟩

end Sys2Proof.Machine
end

section
/-! SUPPORT. The state machine and the counters (60_exceptions.md R293, R298, R301): one relation for what a command returns and
leaves of the tag, the counters and the configuration, and what follows from it for any sequence of commands. -/

namespace Sys2Proof.Machine

/-! ## One command -/

/-- The tag, the counters and the configuration are as before. -/
def SameControl (s t : State) : Prop :=
  t.tag = s.tag ∧ t.instret = s.instret ∧ t.faultCount = s.faultCount ∧ SameConfig s t

theorem sameControl_refl (s : State) : SameControl s s := ⟨rfl, rfl, rfl, rfl, rfl⟩

/-- The commands with a row of their own in the state machine (R293). -/
def movesTag : Command → Bool
  | .init _ _ _ | .start | .step | .restoreState _ => true
  | _ => false

/-- What a command may return and leave of `s`, a constructor for each row of the state machine (R293) and outcome of its check.
`returns_of_issue` ties it to `issue`. -/
inductive Returns (s : State) : Command → State → Reply → Prop where
  | init {image : List Byte} {base : Word} {size : Nat} :
      Returns s (.init image base size) (initState image base size) .ok
  | start (htag : s.tag = .halted) : Returns s .start { s with tag := .running } .ok
  | startInvalid (htag : s.tag ≠ .halted) : Returns s .start s (.err .invalidState)
  | step {t : State} (hstep : StepLeaves s t) : Returns s .step t (replyOfStep t.lastStep)
  | restore {S : Snapshot} : Returns s (.restoreState S) (s.restore S) .ok
  | restoreMismatch {S : Snapshot} : Returns s (.restoreState S) s (.err .snapshotMismatch)
  | other {c : Command} {t : State} {r : Reply} (hc : movesTag c = false) (hsame : SameControl s t) : Returns s c t r

theorem returns_of_issue {c : Command} {s t : State} {r : Reply} (h : issue c s = .next (t, r)) : Returns s c t r := by
  cases c with
  | init image base size =>
    simp only [issue, cmdInit] at h
    split at h <;> cases h
    exact .init
  | start =>
    simp only [issue, cmdStart] at h
    split at h <;> cases h
    · exact .start ‹_›
    · exact .startInvalid ‹_›
  | step =>
    have hs := step_of_issue_step h
    cases (cmdStep_of_step hs).symm.trans h
    exact .step (stepLeaves_of_step hs)
  | restoreState S =>
    simp only [issue, cmdRestoreState] at h
    split at h <;> cases h
    · exact .restore
    · exact .restoreMismatch
  | get | getPc | getDiagnostics =>
    cases h
    exact .other rfl (sameControl_refl s)
  | set q v =>
    cases h
    exact .other rfl ⟨setReg_tag s q v, setReg_instret s q v, setReg_faultCount s q v, setReg_loadAddr s q v,
      setReg_memSize s q v⟩
  | setPc v =>
    simp only [issue, cmdSetPc] at h
    split at h <;> cases h
    exact .other rfl (sameControl_refl s)
  | read | saveState =>
    simp only [issue, cmdRead, cmdSaveState] at h
    split at h <;> cases h <;> exact .other rfl (sameControl_refl s)
  | write w a v =>
    by_cases hb : s.InBounds a.toNat w.bytes
    · cases (issue_write_inBounds hb v).symm.trans h
      exact .other rfl (sameControl_refl s)
    · cases (issue_write_outOfBounds hb v).symm.trans h
      exact .other rfl (sameControl_refl s)

/-- Settles O24: a STEP is turned away by its guard, or is fault entry, or is a commit. -/
theorem stepCountsOncePerInstruction : Obligations.StepCountsOncePerInstruction := by
  intro s
  obtain ⟨t, ht⟩ := step_next s
  refine ⟨t, ht, ?_⟩
  cases stepLeaves_of_step ht with
  | guard htag => exact ⟨fun hrun => absurd hrun htag, fun _ => ⟨rfl, rfl, rfl⟩⟩
  | @fault hrun f hf =>
    refine ⟨fun _ => .inr ⟨?_, rfl, toNat_bump s.faultCount, rfl⟩, fun htag => absurd hrun htag⟩
    rcases hf with rfl | rfl
    · exact .inl rfl
    · exact .inr rfl
  | @commit hrun p =>
    exact ⟨fun _ => .inl ⟨⟨p.event, rfl⟩, toNat_bump s.instret, commit_faultCount s p⟩, fun htag => absurd hrun htag⟩

/-- From running, a commit leaves the tag running but for an environment call whose verdict is to terminate
(40_step_engine.md R118 (e)). -/
theorem tagAfter_running_cases {s : State} (hrun : s.tag = .running) (e : Event) :
    (e = .envCall ∧ Config.envTerminates s.x s.pc s.loadAddr s.memSize s.mem = true ∧ s.tagAfter e = .completed) ∨
    ((e = .envCall → Config.envTerminates s.x s.pc s.loadAddr s.memSize s.mem = false) ∧ s.tagAfter e = .running) := by
  have hdone := tagAfter_eq_completed_iff hrun e
  rcases tagAfter_cases s e with h | h
  · rw [h, hrun] at hdone
    refine .inr ⟨fun he => Bool.eq_false_iff.mpr fun hverdict => ?_, h.trans hrun⟩
    cases hdone.mpr ⟨he, hverdict⟩
  · obtain ⟨he, hverdict⟩ := hdone.mp h
    exact .inl ⟨he, hverdict, h⟩

/-- Settles O46, row by row. -/
theorem tagTransitionTable : Obligations.TagTransitionTable := by
  intro c s t r h
  cases returns_of_issue h with
  | init => exact ⟨rfl, rfl⟩
  | start htag => exact .inl ⟨htag, rfl, rfl⟩
  | startInvalid htag => exact .inr ⟨htag, rfl, rfl⟩
  | restore => exact .inl ⟨rfl, rfl⟩
  | restoreMismatch => exact .inr ⟨rfl, rfl⟩
  | step hstep =>
    cases hstep with
    | guard htag => exact .inr (.inr (.inr ⟨htag, rfl, rfl⟩))
    | fault hrun hf =>
      refine .inr (.inr (.inl ⟨hrun, ?_, rfl⟩))
      rcases hf with rfl | rfl
      · exact .inl rfl
      · exact .inr rfl
    | @commit hrun p =>
      rcases tagAfter_running_cases hrun p.event with ⟨he, hverdict, htag⟩ | ⟨hverdict, htag⟩
      · exact .inl ⟨hrun, congrArg Reply.event he, hverdict, htag⟩
      · exact .inr (.inl ⟨hrun, ⟨p.event, rfl, hverdict⟩, htag⟩)
  | other hc hsame =>
    obtain ⟨htag, -⟩ := hsame
    cases c with
    | init | start | step | restoreState => cases hc
    | _ => exact htag

/-! ## A sequence of commands -/

/-- Commands issued in turn, each of which returned: `Run s cs rs t` leads from `s` to `t` with the results `rs`. By
`run_of_issueAll` this is what `issueAll` gives. -/
inductive Run : State → List Command → List Reply → State → Prop where
  | nil (s : State) : Run s [] [] s
  | cons {s u t : State} {c : Command} {r : Reply} {cs : List Command} {rs : List Reply} (hc : Returns s c u r)
      (hcs : Run u cs rs t) : Run s (c :: cs) (r :: rs) t

theorem run_of_issueAll {cs : List Command} {s t : State} {rs : List Reply} (h : issueAll cs s = .next (t, rs)) :
    Run s cs rs t := by
  induction cs generalizing s rs with
  | nil =>
    cases h
    exact .nil _
  | cons c cs ih =>
    rw [issueAll] at h
    split at h
    · next u r hc =>
      split at h
      · next hcs =>
        cases h
        exact .cons (returns_of_issue hc) (ih hcs)
      · cases h
      · cases h
    · cases h
    · cases h

/-! ## The configuration -/

theorem SameConfig.trans {s u t : State} (h : SameConfig s u) (h' : SameConfig u t) : SameConfig s t :=
  ⟨h'.1.trans h.1, h'.2.trans h.2⟩

theorem sameConfig_of_stepLeaves {s t : State} (h : StepLeaves s t) : SameConfig s t := by
  cases h with
  | guard | fault => exact ⟨rfl, rfl⟩
  | @commit _ p => exact ⟨commit_loadAddr s p, commit_memSize s p⟩

/-- Only INIT sets the configuration (10_state.md R35). -/
theorem sameConfig_of_returns {c : Command} {s t : State} {r : Reply} (hc : isInit c = false) (h : Returns s c t r) :
    SameConfig s t := by
  cases h with
  | init => cases hc
  | start | startInvalid | restore | restoreMismatch => exact ⟨rfl, rfl⟩
  | step hstep => exact sameConfig_of_stepLeaves hstep
  | other _ hsame =>
    obtain ⟨-, -, -, hconfig⟩ := hsame
    exact hconfig

theorem sameConfig_of_run {cs : List Command} {s t : State} {rs : List Reply} (h : Run s cs rs t)
    (hcs : ∀ c ∈ cs, isInit c = false) : SameConfig s t := by
  induction h with
  | nil => exact ⟨rfl, rfl⟩
  | cons hc _ ih =>
    obtain ⟨hfirst, hrest⟩ := List.forall_mem_cons.mp hcs
    exact (sameConfig_of_returns hfirst hc).trans (ih hrest)

/-- Settles O49: no command but INIT changes the configuration, and in the same configuration a capture restores. -/
theorem snapshotRoundTripAfterAnyCommands : Obligations.SnapshotRoundTripAfterAnyCommands := by
  intro s t cap S cs rs hinv hsave hcs hrun
  obtain ⟨-, hmem, -⟩ := hinv
  obtain rfl := eq_capture_of_saveState hsave
  have hconfig := sameConfig_of_run (run_of_issueAll hrun) hcs
  exact ⟨t.restore s.capture, issue_restoreState_of_checks (capture_checks hconfig), sameMachine_restore_capture hmem hconfig,
    rfl, rfl⟩

/-! ## The end of a run (40_step_engine.md R123) -/

/-- Of a run that has ended nothing but RESTORE_STATE and INIT changes the tag or a counter: START and STEP turn away. -/
theorem sameControl_of_ended {c : Command} {s t : State} {r : Reply} (hended : s.Ended)
    (hc : isInit c = false ∧ isRestore c = false) (h : Returns s c t r) : SameControl s t := by
  have hhalted : s.tag ≠ .halted := by rcases hended with h | h <;> rw [h] <;> nofun
  have hrunning : s.tag ≠ .running := by rcases hended with h | h <;> rw [h] <;> nofun
  obtain ⟨hinit, hrestore⟩ := hc
  cases h with
  | init => cases hinit
  | restore | restoreMismatch => cases hrestore
  | start htag => exact absurd htag hhalted
  | startInvalid => exact sameControl_refl s
  | step hstep =>
    cases hstep with
    | guard => exact sameControl_refl s
    | fault hrun | commit hrun => exact absurd hrun hrunning
  | other _ hsame => exact hsame

theorem same_of_ended_run {cs : List Command} {s t : State} {rs : List Reply} (h : Run s cs rs t) (hended : s.Ended)
    (hcs : ∀ c ∈ cs, isInit c = false ∧ isRestore c = false) :
    t.tag = s.tag ∧ t.instret = s.instret ∧ t.faultCount = s.faultCount := by
  induction h with
  | nil => exact ⟨rfl, rfl, rfl⟩
  | cons hc _ ih =>
    obtain ⟨hfirst, hrest⟩ := List.forall_mem_cons.mp hcs
    obtain ⟨htag, hinstret, hfaults, -⟩ := sameControl_of_ended hended hfirst hc
    rw [← htag, ← hinstret, ← hfaults]
    refine ih ?_ hrest
    rwa [State.Ended, htag]

/-- Settles O52. -/
theorem onlyRestoreOrInitLeavesAFinishedRun : Obligations.OnlyRestoreOrInitLeavesAFinishedRun :=
  fun _ _ _ _ hended hcs hrun => same_of_ended_run (run_of_issueAll hrun) hended hcs

/-! ## The counters since INIT (R301) -/

theorem stepsTaken_cons (c : Command) (r : Reply) (cs : List Command) (rs : List Reply) :
    stepsTaken (c :: cs) (r :: rs) = stepsTaken [c] [r] + stepsTaken cs rs :=
  (congrArg List.length (List.filter_append [(c, r)] (cs.zip rs))).trans List.length_append

theorem restoresDone_cons (c : Command) (r : Reply) (cs : List Command) (rs : List Reply) :
    restoresDone (c :: cs) (r :: rs) = restoresDone [c] [r] + restoresDone cs rs :=
  (congrArg List.length (List.filter_append [(c, r)] (cs.zip rs))).trans List.length_append

/-- The instructions and faults counted so far. -/
def State.counted (s : State) : Nat := s.instret.toNat + s.faultCount.toNat

/-- The faults counted so far, and the one that can still come before the next restore while the core is not faulted. -/
def State.faultBound (s : State) : Nat := s.faultCount.toNat + if s.tag = .faulted then 0 else 1

theorem stepsTaken_of_ne_step {c : Command} (hc : c ≠ .step) (r : Reply) : stepsTaken [c] [r] = 0 := by
  simp [stepsTaken, hc]

theorem stepsTaken_step_of_ne {r : Reply} (hr : r ≠ .err .invalidState) : stepsTaken [.step] [r] = 1 := by
  simp [stepsTaken, hr]

theorem toNat_bump_of_lt {c : Word} (h : c.toNat < 2 ^ 64 - 1) : (bump c).toNat = c.toNat + 1 := by
  rw [toNat_bump]
  omega

/-- A STEP that its guard lets through counts one, an instruction or a fault, while neither counter is at its greatest value. -/
theorem counted_of_stepLeaves {s t : State} (hsat : s.counted < 2 ^ 64 - 1) (h : StepLeaves s t) :
    t.counted = s.counted + stepsTaken [.step] [replyOfStep t.lastStep] := by
  unfold State.counted at *
  cases h with
  | guard => rfl
  | @fault _ f hf =>
    have hreply : replyOfStep (some (.err f)) ≠ .err .invalidState := by rcases hf with rfl | rfl <;> nofun
    rw [takeFault_lastStep, stepsTaken_step_of_ne hreply, takeFault_instret, takeFault_faultCount,
      toNat_bump_of_lt (by omega), Nat.add_assoc]
  | @commit _ p =>
    have hreply : replyOfStep (some (.ok p.event)) ≠ .err .invalidState := nofun
    rw [commit_lastStep, stepsTaken_step_of_ne hreply, commit_instret, commit_faultCount, toNat_bump_of_lt (by omega)]
    omega

theorem counted_of_returns {c : Command} {s t : State} {r : Reply} (hc : isInit c = false) (hsat : s.counted < 2 ^ 64 - 1)
    (h : Returns s c t r) : t.counted = s.counted + stepsTaken [c] [r] := by
  cases h with
  | init => cases hc
  | start | startInvalid | restore | restoreMismatch => rfl
  | step hstep => exact counted_of_stepLeaves hsat hstep
  | other hother hsame =>
    obtain ⟨-, hinstret, hfaults, -⟩ := hsame
    rw [stepsTaken_of_ne_step (by rintro rfl; cases hother), State.counted, hinstret, hfaults]
    rfl

theorem stepsTaken_singleton_le (c : Command) (r : Reply) : stepsTaken [c] [r] ≤ 1 := List.length_filter_le _ _

/-- No command counts more than one, so a run shorter than what a counter still holds is counted in full. -/
theorem counted_of_run {cs : List Command} {s t : State} {rs : List Reply} (h : Run s cs rs t)
    (hcs : ∀ c ∈ cs, isInit c = false) (hsat : s.counted + cs.length < 2 ^ 64) :
    t.counted = s.counted + stepsTaken cs rs := by
  induction h with
  | nil => rfl
  | @cons s u t c r cs rs hc _ ih =>
    obtain ⟨hfirst, hrest⟩ := List.forall_mem_cons.mp hcs
    rw [List.length_cons] at hsat
    have hu := counted_of_returns hfirst (by omega) hc
    have hle := stepsTaken_singleton_le c r
    calc t.counted
      _ = u.counted + stepsTaken cs rs := ih hrest (by omega)
      _ = s.counted + (stepsTaken [c] [r] + stepsTaken cs rs) := by rw [hu, Nat.add_assoc]
      _ = s.counted + stepsTaken (c :: cs) (r :: rs) := by rw [stepsTaken_cons c r cs rs]

theorem toNat_bump_le (c : Word) : (bump c).toNat ≤ c.toNat + 1 := by
  rw [toNat_bump]
  exact Nat.min_le_left _ _

theorem faultCount_le_faultBound (s : State) : s.faultCount.toNat ≤ s.faultBound := Nat.le_add_right _ _

theorem faultBound_le (s : State) : s.faultBound ≤ s.faultCount.toNat + 1 := by
  unfold State.faultBound
  split <;> omega

theorem faultBound_of_ne_faulted {s : State} (h : s.tag ≠ .faulted) : s.faultBound = s.faultCount.toNat + 1 := by
  rw [State.faultBound, if_neg h]

/-- A STEP leaves the bound: a fault is counted, but it leaves the core where none can come, and a commit comes from running,
where one can. -/
theorem faultBound_of_stepLeaves {s t : State} (h : StepLeaves s t) : t.faultBound ≤ s.faultBound := by
  cases h with
  | guard => exact Nat.le_refl _
  | fault hrun =>
    rw [faultBound_of_ne_faulted (s := s) (by rw [hrun]; nofun)]
    exact toNat_bump_le s.faultCount
  | @commit hrun p =>
    rw [faultBound_of_ne_faulted (s := s) (by rw [hrun]; nofun), ← commit_faultCount s p]
    exact faultBound_le _

/-- Only a restore leads out of `faulted`, and so lets one more fault come. -/
theorem faultBound_of_returns {c : Command} {s t : State} {r : Reply} (hc : isInit c = false) (h : Returns s c t r) :
    t.faultBound ≤ s.faultBound + restoresDone [c] [r] := by
  cases h with
  | init => cases hc
  | start htag =>
    rw [faultBound_of_ne_faulted (s := s) (by rw [htag]; nofun)]
    exact faultBound_le _
  | startInvalid | restoreMismatch => exact Nat.le_add_right _ _
  | step hstep => exact (faultBound_of_stepLeaves hstep).trans (Nat.le_add_right _ _)
  | @restore S =>
    calc (s.restore S).faultBound
      _ ≤ s.faultCount.toNat + 1 := faultBound_le _
      _ ≤ s.faultBound + 1 := Nat.succ_le_succ (faultCount_le_faultBound s)
  | other _ hsame =>
    obtain ⟨htag, -, hfaults, -⟩ := hsame
    rw [State.faultBound, htag, hfaults]
    exact Nat.le_add_right _ _

theorem faultBound_of_run {cs : List Command} {s t : State} {rs : List Reply} (h : Run s cs rs t)
    (hcs : ∀ c ∈ cs, isInit c = false) : t.faultBound ≤ s.faultBound + restoresDone cs rs := by
  induction h with
  | nil => exact Nat.le_refl _
  | @cons s u t c r cs rs hc _ ih =>
    obtain ⟨hfirst, hrest⟩ := List.forall_mem_cons.mp hcs
    calc t.faultBound
      _ ≤ u.faultBound + restoresDone cs rs := ih hrest
      _ ≤ s.faultBound + restoresDone [c] [r] + restoresDone cs rs :=
        Nat.add_le_add_right (faultBound_of_returns hfirst hc) _
      _ = s.faultBound + restoresDone (c :: cs) (r :: rs) := by rw [restoresDone_cons c r cs rs, Nat.add_assoc]

theorem eq_initState_of_issue {image : List Byte} {base : Word} {size : Nat} {s t : State} {r : Reply}
    (h : issue (.init image base size) s = .next (t, r)) : t = initState image base size := by
  cases returns_of_issue h with
  | init => rfl
  | other hc => cases hc

/-- Settles O51: INIT counts nothing and bounds the faults by one, and both identities are kept from there on. -/
theorem counterIdentities : Obligations.CounterIdentities := by
  intro image base size s₀ s t cs rs hinit hcs hlen hrun
  obtain rfl := eq_initState_of_issue hinit
  have h := run_of_issueAll hrun
  have hzero : (initState image base size).counted = 0 := rfl
  have hone : (initState image base size).faultBound = 1 := rfl
  constructor
  · have hcounted := counted_of_run h hcs (by omega)
    rwa [hzero, Nat.zero_add] at hcounted
  · calc t.faultCount.toNat
      _ ≤ t.faultBound := faultCount_le_faultBound t
      _ ≤ 1 + restoresDone cs rs := hone ▸ faultBound_of_run h hcs
      _ = restoresDone cs rs + 1 := Nat.add_comm _ _

end Sys2Proof.Machine
end
